-- ==== Sys2Proof/Word.lean ====
section
/-! DEFINITION. The word types of the calco delta codec block (00_scope.md R12): every value is unsigned. -/

namespace Sys2Proof

/-- A register-window word (10_state.md R22) and a command word (30_encoding.md R80). -/
abbrev Word := BitVec 32

/-- One byte of buffer memory, and one symbol (20_memory.md R62, 00_scope.md R15). -/
abbrev Byte := BitVec 8

end Sys2Proof
end

