-- ==== Sys2Proof/Config.lean ====
section
/-! DEFINITION. The implementation parameters (00_scope.md R9, 60_exceptions.md R243, 20_memory.md R67 and R70). A model "takes each
one as an argument": they are held in State.params, so that a statement about every state is one about every configuration. The block
has no free value (R18: no rule draws a value from outside the registers, the command and the memory bytes read). -/

namespace Sys2Proof

/-- Why a range of buffer-memory addresses is not plain storage: the platform does not admit the access (R70), or it is device
memory with read side effects (R67). -/
inductive RegionKind where
  | notAdmitted
  | device
deriving DecidableEq, Repr

/-- The addresses `lo` to `hi`, both included, of a range that is not plain storage. -/
structure Region where
  lo   : Nat
  hi   : Nat
  kind : RegionKind
deriving DecidableEq, Repr

/-- The parameters. `awLess1` is P_AW less 1, so that P_AW is 1..32 by construction. `baseWords` is P_BASE divided by 4 (DEDUCED,
log 3: registers are naturally aligned words at word-aligned offsets, R22, R23). `regions` is MemAdmit as plain data together with
the device ranges (log 5): an address in no range is admitted plain storage. -/
structure Params where
  xlat      : Bool
  awLess1   : Fin 32
  baseWords : Nat
  regions   : List Region
deriving DecidableEq, Repr

/-- P_AW, the buffer-memory address width in bits (R9). -/
def Params.aw (p : Params) : Nat := p.awLess1.val + 1

/-- The number of buffer-memory addresses, `2^P_AW` (R60, R68). -/
def Params.space (p : Params) : Nat := 2 ^ p.aw

/-- P_BASE, the address of the register window (R243). -/
def Params.base (p : Params) : Nat := 4 * p.baseWords

/-- The defaults of R9: translator present, 32 address bits, every address admitted. P_BASE is OPEN: 0 is a DESIGN CHOICE (log 2). -/
def Params.standard : Params := { xlat := true, awLess1 := 31, baseWords := 0, regions := [] }

/-- SEED, the fixed seed 'A' of both encoder and decoder (R9, R10). -/
def seed : Byte := 0x41#8

/-- WFIELD_MAX (R9, 30_encoding.md R88). -/
def wfieldMax : Nat := 16

/-- RENT_MAX (R9, 30_encoding.md R88). -/
def rentMax : Nat := 9

/-- RADV_MAX (R9, 30_encoding.md R88). -/
def radvMax : Nat := 16

/-- REG_W, the width of R_ACC (R9). -/
def regW : Nat := 16

end Sys2Proof
end

