-- ==== Sys2Proof/Syntax.lean ====
section
/-! DEFINITION. The twelve commands (30_encoding.md R83), one constructor of Instr per row of spec/opcode_table.json. -/

namespace Sys2Proof

/-- A command with its operands (30_encoding.md R82). `n` is the five-bit field N as it stands in the word; its legal range is
checked by `Instr.wellFormed` (R88). No command names a register. -/
inductive Instr where
  | nop                                    -- NOP, R112
  | xlat (b : Byte)                        -- XLAT b, R164
  | wbit (bit : Bool)                      -- WBIT bit, R124
  | wbyte (b : Byte)                       -- WBYTE b, R125
  | wfield (n : BitVec 5) (v : BitVec 16)  -- WFIELD n, v, R126
  | rent (n : BitVec 5)                    -- RENT n, R142
  | radv (n : BitVec 5)                    -- RADV n, R143
  | encInit                                -- ENC.INIT, R170
  | encSym (c : Byte)                      -- ENC.SYM c, R172
  | measSym (c : Byte)                     -- MEAS.SYM c, R173
  | decInit                                -- DEC.INIT, R191
  | decNext                                -- DEC.NEXT, R192
deriving DecidableEq, Repr

/-- The twelve defined opcodes, without operands (30_encoding.md R83). -/
inductive Opcode where
  | nop | xlat | wbit | wbyte | wfield | rent | radv | encInit | encSym | measSym | decInit | decNext
deriving DecidableEq, Repr

end Sys2Proof
end

