-- ==== Sys2Proof/WellFormed.lean ====
section
/-! DEFINITION. Which command terms an encoding can carry: the N ranges of 30_encoding.md R88. -/

namespace Sys2Proof

/-- The term is a legal command: N is inside the range R88 gives for its opcode. Every other operand is legal at every value (R84). -/
def Instr.wellFormed : Instr → Bool
  | .nop => true
  | .xlat _ => true
  | .wbit _ => true
  | .wbyte _ => true
  | .wfield n _ => n.toNat ≤ wfieldMax
  | .rent n => n.toNat ≤ rentMax
  | .radv n => n.toNat ≤ radvMax
  | .encInit => true
  | .encSym _ => true
  | .measSym _ => true
  | .decInit => true
  | .decNext => true

end Sys2Proof
end

