-- ==== Sys2Proof/Decode.lean ====
section
/-! DEFINITION. The command word: its fields (30_encoding.md R81), the opcode map (R83), the masks and matches (R84), legality (R85,
R88), the decoder, and the encoder with the assembler's text (R89). -/

namespace Sys2Proof

/-- OP = w[7:0] (R81). -/
def opField (w : Word) : Byte := w.extractLsb' 0 8

/-- N = w[12:8] (R81). -/
def nField (w : Word) : BitVec 5 := w.extractLsb' 8 5

/-- RSV = w[15:13] (R81). -/
def rsvField (w : Word) : BitVec 3 := w.extractLsb' 13 3

/-- IMM = w[31:16] (R81). -/
def immField (w : Word) : BitVec 16 := w.extractLsb' 16 16

/-- The byte operand `b = IMM[7:0]` (R82). -/
def byteOperand (w : Word) : Byte := (immField w).extractLsb' 0 8

/-- The bit operand `bit = IMM[0]` (R82). -/
def bitOperand (w : Word) : Bool := (immField w).getLsbD 0

/-- The OP value of an opcode (R83). -/
def Opcode.byte : Opcode → Byte
  | .nop => 0x00#8
  | .xlat => 0x01#8
  | .wbit => 0x10#8
  | .wbyte => 0x11#8
  | .wfield => 0x12#8
  | .rent => 0x20#8
  | .radv => 0x21#8
  | .encInit => 0x30#8
  | .encSym => 0x31#8
  | .measSym => 0x32#8
  | .decInit => 0x40#8
  | .decNext => 0x41#8

/-- Every defined opcode (R83). -/
def Opcode.all : List Opcode :=
  [.nop, .xlat, .wbit, .wbyte, .wfield, .rent, .radv, .encInit, .encSym, .measSym, .decInit, .decNext]

/-- The opcode an OP value stands for; every value not in R83 is undefined (R86). -/
def Opcode.ofByte (b : Byte) : Option Opcode := Opcode.all.find? (fun op => op.byte == b)

/-- The bits a word of the opcode must have fixed (R84, column mask). -/
def Opcode.mask : Opcode → Word
  | .nop => 0xFFFFFFFF#32
  | .xlat => 0xFF00FFFF#32
  | .wbit => 0xFFFEFFFF#32
  | .wbyte => 0xFF00FFFF#32
  | .wfield => 0x0000E0FF#32
  | .rent => 0xFFFFE0FF#32
  | .radv => 0xFFFFE0FF#32
  | .encInit => 0xFFFFFFFF#32
  | .encSym => 0xFF00FFFF#32
  | .measSym => 0xFF00FFFF#32
  | .decInit => 0xFFFFFFFF#32
  | .decNext => 0xFFFFFFFF#32

/-- The value of those fixed bits (R84, column match). -/
def Opcode.matchBits : Opcode → Word
  | .nop => 0x00000000#32
  | .xlat => 0x00000001#32
  | .wbit => 0x00000010#32
  | .wbyte => 0x00000011#32
  | .wfield => 0x00000012#32
  | .rent => 0x00000020#32
  | .radv => 0x00000021#32
  | .encInit => 0x00000030#32
  | .encSym => 0x00000031#32
  | .measSym => 0x00000032#32
  | .decInit => 0x00000040#32
  | .decNext => 0x00000041#32

/-- The largest legal N (R88); where R84 says N must be 0, 0. -/
def Opcode.nMax : Opcode → Nat
  | .wfield => wfieldMax
  | .rent => rentMax
  | .radv => radvMax
  | .nop | .xlat | .wbit | .wbyte | .encInit | .encSym | .measSym | .decInit | .decNext => 0

/-- The command a word of this opcode carries: its operands, taken from the word's fields (R82). -/
def Opcode.build (w : Word) : Opcode → Instr
  | .nop => .nop
  | .xlat => .xlat (byteOperand w)
  | .wbit => .wbit (bitOperand w)
  | .wbyte => .wbyte (byteOperand w)
  | .wfield => .wfield (nField w) (immField w)
  | .rent => .rent (nField w)
  | .radv => .radv (nField w)
  | .encInit => .encInit
  | .encSym => .encSym (byteOperand w)
  | .measSym => .measSym (byteOperand w)
  | .decInit => .decInit
  | .decNext => .decNext

/-- Why a command word is illegal: R85 (a), (b), (c). -/
inductive Illegal where
  | undefinedOpcode
  | fieldNotZero
  | countOutOfRange
deriving DecidableEq, Repr

/-- The decoder, total on every word (R85, R111). -/
def decode (w : Word) : Except Illegal Instr :=
  match Opcode.ofByte (opField w) with
  | none => .error .undefinedOpcode
  | some op =>
    if w &&& op.mask ≠ op.matchBits then .error .fieldNotZero
    else if op.nMax < (nField w).toNat then .error .countOutOfRange
    else .ok (op.build w)

/-- What the decoder reads from a word numbered as spec/opcode_table.json numbers its bits. Every row is one 32-bit word (R87). -/
def decodeTableWord (nbits w : Nat) : Option Instr :=
  match decode (BitVec.ofNat 32 (w % 2 ^ nbits)) with
  | .ok i => some i
  | .error _ => none

/-- The opcode of a command. -/
def Instr.opcode : Instr → Opcode
  | .nop => .nop
  | .xlat _ => .xlat
  | .wbit _ => .wbit
  | .wbyte _ => .wbyte
  | .wfield _ _ => .wfield
  | .rent _ => .rent
  | .radv _ => .radv
  | .encInit => .encInit
  | .encSym _ => .encSym
  | .measSym _ => .measSym
  | .decInit => .decInit
  | .decNext => .decNext

/-- The N field of a command's word (R84). -/
def Instr.nBits : Instr → BitVec 5
  | .wfield n _ => n
  | .rent n => n
  | .radv n => n
  | .nop | .xlat _ | .wbit _ | .wbyte _ | .encInit | .encSym _ | .measSym _ | .decInit | .decNext => 0#5

/-- The IMM field of a command's word (R84). -/
def Instr.immBits : Instr → BitVec 16
  | .xlat b => b.setWidth 16
  | .wbit bit => (BitVec.ofBool bit).setWidth 16
  | .wbyte b => b.setWidth 16
  | .wfield _ v => v
  | .encSym c => c.setWidth 16
  | .measSym c => c.setWidth 16
  | .nop | .rent _ | .radv _ | .encInit | .decInit | .decNext => 0#16

/-- The word of a command, "zext_32(IMM) << 16 OR zext_32(N) << 8 OR OP" (R89). -/
def encode (i : Instr) : Word :=
  i.immBits.setWidth 32 <<< 16 ||| i.nBits.setWidth 32 <<< 8 ||| i.opcode.byte.setWidth 32

/-- The mnemonic of an opcode (R83). -/
def Opcode.mnemonic : Opcode → String
  | .nop => "NOP"
  | .xlat => "XLAT"
  | .wbit => "WBIT"
  | .wbyte => "WBYTE"
  | .wfield => "WFIELD"
  | .rent => "RENT"
  | .radv => "RADV"
  | .encInit => "ENC.INIT"
  | .encSym => "ENC.SYM"
  | .measSym => "MEAS.SYM"
  | .decInit => "DEC.INIT"
  | .decNext => "DEC.NEXT"

/-- The operands a command is written with, in the order of R89. -/
def Instr.asmOperands : Instr → List Nat
  | .xlat b => [b.toNat]
  | .wbit bit => [bit.toNat]
  | .wbyte b => [b.toNat]
  | .wfield n v => [n.toNat, v.toNat]
  | .rent n => [n.toNat]
  | .radv n => [n.toNat]
  | .encSym c => [c.toNat]
  | .measSym c => [c.toNat]
  | .nop | .encInit | .decInit | .decNext => []

/-- The assembler text of a command: "its mnemonic followed by its operands, separated by commas" (R89), numbers in decimal
(DESIGN CHOICE among the spellings R89 allows, log 19). -/
def Instr.asm (i : Instr) : String :=
  match i.asmOperands with
  | [] => i.opcode.mnemonic
  | ops => i.opcode.mnemonic ++ " " ++ String.intercalate ", " (ops.map toString)

end Sys2Proof
end

