-- ==== Sys2Proof/Machine/State.lean ====
section
/-! DEFINITION. The state of the block and of what stands around it: every register of 10_state.md R22 that holds state, buffer
memory (20_memory.md R60), the parameters (00_scope.md R9), and the model's own three lists (the host's accesses to come, the words its
reads have returned, and the accesses the block's memory port has made; log 1 and log 8). -/

namespace Sys2Proof.Machine

/-- Buffer memory: sparse (address, byte) pairs in one canonical form, see `Memory.wf`. -/
abbrev Memory := List Host.Cell

/-- The four error causes (60_exceptions.md R231 to R234). -/
inductive Err where
  | ill | wovf | runder | dend
deriving DecidableEq, Repr

/-- The four sticky STATUS bits (10_state.md R27). DONE is derived and holds no state. -/
structure ErrorFlags where
  ill    : Bool
  wovf   : Bool
  runder : Bool
  dend   : Bool
deriving DecidableEq, Repr

/-- W_ADDR, W_LEN, W_OFF: the writer cursor (R29 to R31). W_ADDR keeps bits [P_AW-1:0] (log 17). -/
structure WriterCursor where
  addr : Word
  len  : Word
  off  : BitVec 3
deriving DecidableEq, Repr

/-- R_ADDR, R_LEN, R_ACC, R_CNT: the reader cursor (R32 to R35). -/
structure ReaderCursor where
  addr : Word
  len  : Word
  acc  : BitVec 16
  cnt  : BitVec 5
deriving DecidableEq, Repr

/-- E_PREV, E_BITS: the encoder's registers (R36, R37). -/
structure EncoderRegs where
  prev : Byte
  bits : Word
deriving DecidableEq, Repr

/-- D_PREV, D_REM: the decoder's own registers (R39, R40). -/
structure DecoderRegs where
  prev : Byte
  rem  : Word
deriving DecidableEq, Repr

/-- The width of a host access to the register window (R23). -/
inductive AccessSize where
  | byte | half | word | double
deriving DecidableEq, Repr

/-- What the world outside the block does, one entry a step (00_scope.md R17, 20_memory.md R72, 70_reset_and_hazards.md R260):
a register access at an address of the host's register space, a load or store of one byte of buffer memory, a platform reset,
or a platform reset that arrives while the command `w` is in progress. -/
inductive HostOp where
  | regRead (addr : Nat) (size : AccessSize)
  | regWrite (addr : Nat) (size : AccessSize) (v : Word)
  | memLoad (addr : Nat)
  | memStore (addr : Nat) (b : Byte)
  | reset
  | resetDuring (w : Word)
deriving DecidableEq, Repr

/-- One access of the block's bus-master port, always one byte (20_memory.md R62): MemRead(a, 1) or MemOr(a, m). -/
inductive PortAccess where
  | read (a : Nat)
  | orByte (a : Nat) (m : Byte)
deriving DecidableEq, Repr

/-- The whole state. -/
structure State where
  params    : Params
  flags     : ErrorFlags
  result    : BitVec 21
  writer    : WriterCursor
  reader    : ReaderCursor
  enc       : EncoderRegs
  dec       : DecoderRegs
  mem       : Memory
  port      : List PortAccess
  hostQueue : List HostOp
  hostReads : List Word
deriving DecidableEq, Repr

/-- Why the machine stops with a fault. -/
inductive Fault where
  /-- Stuck (20_memory.md R70): a command accesses an address the platform does not admit, so the command has no step and no later
  command runs. Raised by RENT, DEC.INIT, DEC.NEXT, WBIT, WBYTE, WFIELD and ENC.SYM through `accessByte`. Safe: the spec gives no
  later state, but for a platform reset, which `HostOp.resetDuring` models. -/
  | memNotAdmitted (a : Nat)
  /-- A host load or store names an address outside the 2^P_AW addresses of buffer memory (R60). Raised by `hostAccess`. Safe. -/
  | hostAddressOutside (a : Nat)
  /-- A host load or store names an address the platform does not admit (log 10). Raised by `hostAccess`. Safe. -/
  | hostNotAdmitted (a : Nat)
deriving DecidableEq, Repr

/-- Why the model gives no meaning. -/
inductive Refusal where
  /-- The instruction has no meaning in the model yet. Raised by no arm of `exec`. Safe. -/
  | notModelled (mnemonic : String)
  /-- A view that covers device memory: "A model refuses a view that covers such memory" (20_memory.md R67). Raised by a command's
  first access through the view, in `accessByte`. Safe. -/
  | viewCoversDevice
  /-- A host register access that is not a naturally aligned 32-bit word: "has no meaning in this spec. A model refuses it" (10_state.md
  R23). Raised by `hostAccess`. Safe. -/
  | hostAccessForm
  /-- A host load or store of device memory, whose behaviour the spec does not give (R67, log 10). Raised by `hostAccess`. Safe. -/
  | hostDeviceAccess
deriving DecidableEq, Repr

/-- The outcome of a meaning or a step. -/
abbrev Result := Host.Outcome State Fault Refusal

/-- No error recorded. -/
def ErrorFlags.clear : ErrorFlags := { ill := false, wovf := false, runder := false, dend := false }

/-- The machine right after reset: the registers of R47, the default parameters, no listed memory byte (log 4), nothing from the host
yet (log 1). -/
def State.reset : State :=
  { params := Params.standard
    flags := ErrorFlags.clear
    result := 0#21
    writer := { addr := 0#32, len := 0#32, off := 0#3 }
    reader := { addr := 0#32, len := 0#32, acc := 0#16, cnt := 0#5 }
    enc := { prev := seed, bits := 0#32 }
    dec := { prev := seed, rem := 0#32 }
    mem := []
    port := []
    hostQueue := []
    hostReads := [] }

end Sys2Proof.Machine
end

