-- ==== Sys2Proof/Machine/Flags.lean ====
section
/-! DEFINITION. The STATUS register (10_state.md R27): setting a sticky bit, the word a read returns, and the bits a host write clears. -/

namespace Sys2Proof.Machine

/-- The STATUS bit number of an error (R27). -/
def Err.bit : Err → Nat
  | .ill => 0
  | .wovf => 1
  | .runder => 2
  | .dend => 3

/-- The value of an error's sticky bit. -/
def ErrorFlags.get (f : ErrorFlags) : Err → Bool
  | .ill => f.ill
  | .wovf => f.wovf
  | .runder => f.runder
  | .dend => f.dend

/-- The flags with one error's bit set (60_exceptions.md R230). -/
def ErrorFlags.set (f : ErrorFlags) : Err → ErrorFlags
  | .ill => { f with ill := true }
  | .wovf => { f with wovf := true }
  | .runder => { f with runder := true }
  | .dend => { f with dend := true }

/-- The flags after a host write of `v` to STATUS: exactly the bits written as 1 are cleared (R27). -/
def ErrorFlags.clearWritten (f : ErrorFlags) (v : Word) : ErrorFlags :=
  { ill := f.ill && !v.getLsbD 0
    wovf := f.wovf && !v.getLsbD 1
    runder := f.runder && !v.getLsbD 2
    dend := f.dend && !v.getLsbD 3 }

/-- The word a read of STATUS returns: the four error bits, DONE in bit 8, every other bit 0 (R27). -/
def statusWord (f : ErrorFlags) (done : Bool) : Word :=
  BitVec.ofNat 32 (f.ill.toNat + 2 * f.wovf.toNat + 4 * f.runder.toNat + 8 * f.dend.toNat + 256 * done.toNat)

end Sys2Proof.Machine
end

