-- ==== Sys2Proof/Machine/Memory.lean ====
section
/-! DEFINITION. Buffer memory as a list in one canonical form, and which addresses a view or a region covers (20_memory.md sections 1
and 3, 00_scope.md R16). -/

namespace Sys2Proof

/-- The region holds address `a`. -/
def Region.holds (r : Region) (a : Nat) : Bool := decide (r.lo ≤ a) && decide (a ≤ r.hi)

namespace Machine

/-- What an address that no entry lists reads as: 0, the convention of 95_test_vectors.md ("Memory is 0 unless stated"); a DESIGN
CHOICE for memory nothing has written (log 4). -/
def Memory.unlisted : Byte := 0x00#8

/-- The byte at address `a`. -/
def Memory.read : Memory → Nat → Byte
  | [], _ => Memory.unlisted
  | (k, b) :: rest, a => if k = a then b else Memory.read rest a

/-- Memory with the byte `v` at address `a`, every other address as before; the canonical form is kept. -/
def Memory.write : Memory → Nat → Byte → Memory
  | [], a, v => if v = Memory.unlisted then [] else [(a, v)]
  | (k, b) :: rest, a, v =>
    if a < k then (if v = Memory.unlisted then (k, b) :: rest else (a, v) :: (k, b) :: rest)
    else if a = k then (if v = Memory.unlisted then rest else (k, v) :: rest)
    else (k, b) :: Memory.write rest a v

/-- Every entry lies at `lo` or above, the addresses rise strictly, and no entry equals what an unlisted address reads as. -/
def Memory.wfFrom : Nat → Memory → Bool
  | _, [] => true
  | lo, (k, b) :: rest => decide (lo ≤ k) && decide (b ≠ Memory.unlisted) && Memory.wfFrom (k + 1) rest

/-- The canonical form: two memories in it that read alike are the same list. -/
def Memory.wf (m : Memory) : Bool := Memory.wfFrom 0 m

/-- Every listed address is one of the `space` addresses that exist (R60). -/
def Memory.below (space : Nat) (m : Memory) : Bool := m.all (fun c => decide (c.1 < space))

/-- A view: a start address and a length in bytes (00_scope.md R16); it continues at address 0 past the top (R68). -/
structure View where
  start : Nat
  len   : Nat
deriving DecidableEq, Repr

/-- The view covers address `a`, in a space of `space` addresses (R30, R68). -/
def View.covers (space : Nat) (v : View) (a : Nat) : Bool :=
  decide (a < space) && decide ((a + space - v.start % space) % space < v.len)

/-- Some address of the space lies both in the view and in the region: of two arcs of a circle that meet, one holds the other's first
address. -/
def View.meets (space : Nat) (v : View) (r : Region) : Bool :=
  (decide (r.lo ≤ r.hi) && v.covers space r.lo) || (decide (0 < v.len) && r.holds (v.start % space))

end Machine

/-- MemAdmit(a): the platform admits an access to address `a` (R70, 92_eei_decisions.md D31). -/
def Params.memAdmit (p : Params) (a : Nat) : Bool :=
  p.regions.all (fun r => !(decide (r.kind = .notAdmitted) && r.holds a))

/-- Address `a` is device memory (R67). -/
def Params.isDevice (p : Params) (a : Nat) : Bool :=
  p.regions.any (fun r => decide (r.kind = .device) && r.holds a)

/-- The view covers device memory (R67). -/
def Params.viewCoversDevice (p : Params) (v : Machine.View) : Bool :=
  p.regions.any (fun r => decide (r.kind = .device) && v.meets p.space r)

end Sys2Proof
end

