-- ==== Sys2Proof/Machine/Operands.lean ====
section
/-! DEFINITION. Operand forms and the arithmetic of the rules (00_scope.md R12, R14; 30_encoding.md R82; 44_codec.md R171;
43_translator.md R160). Every value is unsigned and nothing is sign-extended. -/

namespace Sys2Proof.Machine

/-- The field that WBIT writes, `zext_16(bit)` (R124). -/
def bitOperandField (bit : Bool) : BitVec 16 := (BitVec.ofBool bit).setWidth 16

/-- The field that WBYTE writes, `zext_16(b)` (R125). -/
def byteOperandField (b : Byte) : BitVec 16 := b.setWidth 16

/-- The count operand `n = N`, unsigned (R82). -/
def countOperand (n : BitVec 5) : Nat := n.toNat

/-- `ceil8(b) = (b + 7) div 8`, without overflow (R12). -/
def ceil8 (b : Nat) : Nat := (b + 7) / 8

/-- `v AND mask(n)`, the low `n` bits of a field (R12, R120). -/
def maskField (v : BitVec 16) (n : Nat) : BitVec 16 := v &&& BitVec.ofNat 16 (2 ^ n - 1)

/-- The minimal number of bits that represent `v`; 0 for 0 (R14). -/
def bitwidth (v : Nat) : Nat := if v = 0 then 0 else Nat.log2 v + 1

/-- `translate(b)` (43_translator.md R160), the identity where the unit is absent (R163). -/
def translate (xlat : Bool) (b : Byte) : Byte :=
  if xlat then
    if b = 32#8 then 127#8
    else if b = 127#8 then 32#8
    else if b = 34#8 then 126#8
    else if b = 126#8 then 34#8
    else b
  else b

/-- `Code(d)` (44_codec.md R171): the code value and its width. -/
def code (d : Byte) : BitVec 16 × Nat :=
  if d.toNat < 32 then (((d.setWidth 9 <<< 1).extractLsb' 0 6).setWidth 16, 6)
  else ((d.setWidth 9 <<< 1 ||| 1#9).setWidth 16, 9)

/-- An address register's value: bits [P_AW-1:0] of `v` (R29, R32), which is the address modulo 2^P_AW (20_memory.md R68). -/
def wrapAddr (p : Params) (v : Nat) : Word := BitVec.ofNat 32 (v % p.space)

/-- What a host write of `v` stores in R_CNT: `min(v[4:0], 16)` (10_state.md R35). -/
def legalCount (v : Word) : BitVec 5 := BitVec.ofNat 5 (min (v.toNat % 32) regW)

end Sys2Proof.Machine
end

