-- ==== Sys2Proof/Machine/Ops.lean ====
section
/-! DEFINITION. The named operations over registers and memory: raising an error and clearing one (60_exceptions.md R230, R239), platform
reset (R260), the register window (10_state.md sections 2 and 3), the memory port (20_memory.md), and the shared primitives BitWrite
(41_bitwriter.md R120), Rent and Advance (42_bitreader.md R140, R141), the encoder's symbol step (44_codec.md) and DecodeStep
(45_decoder.md R190). -/

namespace Sys2Proof.Machine

/-- Pseudocode is sequential (00_scope.md R13): `f` runs on what `x` answers, unless `x` stops. -/
def chain {α β : Type} (x : Host.Outcome α Fault Refusal) (f : α → Host.Outcome β Fault Refusal) : Host.Outcome β Fault Refusal :=
  match x with
  | .next a => f a
  | .fault r => .fault r
  | .refused r => .refused r

/-! ## State updates -/

/-- The state with the given error flags. -/
def State.setFlags (s : State) (f : ErrorFlags) : State := { s with flags := f }
/-- The state with the given RESULT. -/
def State.setResult (s : State) (r : BitVec 21) : State := { s with result := r }
/-- The state with the given writer cursor. -/
def State.setWriter (s : State) (w : WriterCursor) : State := { s with writer := w }
/-- The state with the given reader cursor. -/
def State.setReader (s : State) (r : ReaderCursor) : State := { s with reader := r }
/-- The state with the given encoder registers. -/
def State.setEnc (s : State) (e : EncoderRegs) : State := { s with enc := e }
/-- The state with the given decoder registers. -/
def State.setDec (s : State) (d : DecoderRegs) : State := { s with dec := d }
/-- The state with the given buffer memory. -/
def State.setMem (s : State) (m : Memory) : State := { s with mem := m }
/-- The state after one more access of the memory port. -/
def State.logPort (s : State) (a : PortAccess) : State := { s with port := s.port ++ [a] }
/-- The state with the given host accesses still to come. -/
def State.setQueue (s : State) (q : List HostOp) : State := { s with hostQueue := q }
/-- The state after a host read that returned `v`. -/
def State.logRead (s : State) (v : Word) : State := { s with hostReads := s.hostReads ++ [v] }

/-! ## Errors and reset -/

/-- `raise ERR(e)` (R230): set the sticky bit; nothing is saved, no mode changes, nothing is vectored (R238). -/
def raise (e : Err) (s : State) : State := s.setFlags (s.flags.set e)

/-- The host's return from an error (R239): a write of `v` to STATUS clears the bits written as 1. -/
def clearErrors (v : Word) (s : State) : State := s.setFlags (s.flags.clearWritten v)

/-- A platform reset (10_state.md R47, 70_reset_and_hazards.md R260): every block register takes its reset value; buffer memory, the
parameters and the model's own lists are not changed. -/
def resetRegisters (s : State) : State :=
  { s with
    flags := ErrorFlags.clear
    result := 0#21
    writer := { addr := 0#32, len := 0#32, off := 0#3 }
    reader := { addr := 0#32, len := 0#32, acc := 0#16, cnt := 0#5 }
    enc := { prev := seed, bits := 0#32 }
    dec := { prev := seed, rem := 0#32 } }

/-! ## Derived fields -/

/-- STATUS.DONE, which "always reads (D_REM = 0)" (10_state.md R27). -/
def State.done (s : State) : Bool := decide (s.dec.rem = 0#32)

/-- E_BYTES, `ceil8(E_BITS)` without overflow (R38). -/
def State.eBytes (s : State) : Word := BitVec.ofNat 32 (ceil8 s.enc.bits.toNat)

/-- D_OUT, `translate(D_PREV)` (R41). -/
def State.dOut (s : State) : Byte := translate s.params.xlat s.dec.prev

/-- The ID constant (R24). -/
def idWord : Word := 0x43414C01#32

/-- CONFIG: XLAT in bit 0, AW in [15:8], REGW in [23:16] (R25). -/
def configWord (p : Params) : Word := BitVec.ofNat 32 (p.xlat.toNat + 256 * p.aw + 65536 * regW)

/-! ## The register window -/

/-- The registers of the window (10_state.md R22). -/
inductive Reg where
  | id | config | cmd | status | result | wAddr | wLen | wOff | rAddr | rLen | rAcc | rCnt
  | ePrev | eBits | eBytes | dPrev | dRem | dOut
deriving DecidableEq, Repr

/-- Every register, in the order of R22. -/
def Reg.all : List Reg :=
  [.id, .config, .cmd, .status, .result, .wAddr, .wLen, .wOff, .rAddr, .rLen, .rAcc, .rCnt,
   .ePrev, .eBits, .eBytes, .dPrev, .dRem, .dOut]

/-- The register's byte offset in the window (R22). -/
def Reg.offset : Reg → Nat
  | .id => 0x00
  | .config => 0x04
  | .cmd => 0x08
  | .status => 0x0C
  | .result => 0x10
  | .wAddr => 0x14
  | .wLen => 0x18
  | .wOff => 0x1C
  | .rAddr => 0x20
  | .rLen => 0x24
  | .rAcc => 0x28
  | .rCnt => 0x2C
  | .ePrev => 0x30
  | .eBits => 0x34
  | .eBytes => 0x38
  | .dPrev => 0x3C
  | .dRem => 0x40
  | .dOut => 0x44

/-- The register at an offset; none at the reserved offsets 0x48..0x7C (R22). -/
def Reg.atOffset (off : Nat) : Option Reg := Reg.all.find? (fun r => r.offset == off)

/-- The word a host read of a register returns (R23 to R41, 40_control.md R113). -/
def readReg (r : Reg) (s : State) : Word :=
  match r with
  | .id => idWord
  | .config => configWord s.params
  | .cmd => 0#32
  | .status => statusWord s.flags s.done
  | .result => s.result.setWidth 32
  | .wAddr => s.writer.addr
  | .wLen => s.writer.len
  | .wOff => s.writer.off.setWidth 32
  | .rAddr => s.reader.addr
  | .rLen => s.reader.len
  | .rAcc => s.reader.acc.setWidth 32
  | .rCnt => s.reader.cnt.setWidth 32
  | .ePrev => s.enc.prev.setWidth 32
  | .eBits => s.enc.bits
  | .eBytes => s.eBytes
  | .dPrev => s.dec.prev.setWidth 32
  | .dRem => s.dec.rem
  | .dOut => s.dOut.setWidth 32

/-- A host write of `v` to a register other than CMD, under that register's legal-value rule (40_control.md R114, 10_state.md R27 to
R41); a write to a read-only register is ignored (R23). CMD holds no state: what its write does is `executeCommand`. -/
def writeReg (r : Reg) (v : Word) (s : State) : State :=
  match r with
  | .status => clearErrors v s
  | .wAddr => s.setWriter { s.writer with addr := wrapAddr s.params v.toNat }
  | .wLen => s.setWriter { s.writer with len := v }
  | .wOff => s.setWriter { s.writer with off := v.setWidth 3 }
  | .rAddr => s.setReader { s.reader with addr := wrapAddr s.params v.toNat }
  | .rLen => s.setReader { s.reader with len := v }
  | .rAcc => s.setReader { s.reader with acc := v.setWidth 16 }
  | .rCnt => s.setReader { s.reader with cnt := legalCount v }
  | .ePrev => s.setEnc { s.enc with prev := v.setWidth 8 }
  | .eBits => s.setEnc { s.enc with bits := v }
  | .dPrev => s.setDec { s.dec with prev := v.setWidth 8 }
  | .dRem => s.setDec { s.dec with rem := v }
  | .id | .config | .cmd | .result | .eBytes | .dOut => s

/-! ## The memory port -/

/-- The writer view (10_state.md R30). -/
def State.writerView (s : State) : View := { start := s.writer.addr.toNat, len := s.writer.len.toNat }

/-- The reader view (R33): the bytes not yet pulled. -/
def State.readerView (s : State) : View := { start := s.reader.addr.toNat, len := s.reader.len.toNat }

/-- An access of the block to address `a` through the view `v`: a view that covers device memory is refused (20_memory.md R67), an
access that is not admitted leaves the command stuck (R70), and otherwise the access is made and the machine goes on at `t`. -/
def accessByte (v : View) (a : Nat) (s : State) (t : State) : Result :=
  if s.params.viewCoversDevice v then .refused .viewCoversDevice
  else if s.params.memAdmit a then .next t
  else .fault (.memNotAdmitted a)

/-- `MemOr(a, m)`, made only if the mask is not 0 (R66, 41_bitwriter.md R120). -/
def orByte (v : View) (a : Nat) (m : Byte) (s : State) : Result :=
  if m = 0#8 then .next s
  else accessByte v a s ((s.setMem (s.mem.write a (s.mem.read a ||| m))).logPort (.orByte a m))

/-! ## BitWriter -/

/-- What a BitWrite returns (41_bitwriter.md R120). -/
inductive WriteEnd where
  | ok | fail
deriving DecidableEq, Repr

/-- `s = vm << W_OFF`, the field at its place in the bytes it covers: at most 23 bits (R120). -/
def placedField (v : BitVec 16) (n : Nat) (off : BitVec 3) : BitVec 24 := (maskField v n).setWidth 24 <<< off.toNat

/-- The mask `m = s[8*i+7 : 8*i]` of the covered byte `i` (R120). -/
def fieldByte (f : BitVec 24) (i : Nat) : Byte := f.extractLsb' (8 * i) 8

/-- The covered bytes `i`, `i+1`, … (`count` of them), in ascending address order (R120). -/
def orBytes (v : View) (f : BitVec 24) : (count i : Nat) → State → Result
  | 0, _, s => .next s
  | count + 1, i, s =>
    chain (orByte v ((v.start + i) % s.params.space) (fieldByte f i) s) (orBytes v f count (i + 1))

/-- The writer cursor `n` bits further on: the view start moves by whole bytes (R120, 10_state.md R42). -/
def WriterCursor.advance (p : Params) (w : WriterCursor) (n : Nat) : WriterCursor :=
  { addr := wrapAddr p (w.addr.toNat + (w.off.toNat + n) / 8)
    len := w.len - BitVec.ofNat 32 ((w.off.toNat + n) / 8)
    off := BitVec.ofNat 3 ((w.off.toNat + n) % 8) }

/-- A field of `n` bits at the writer cursor stays inside the writer view (R121). -/
def WriterCursor.fits (w : WriterCursor) (n : Nat) : Bool := decide (ceil8 (w.off.toNat + n) ≤ w.len.toNat)

/-- `BitWrite(v, n)` for n in 0..16 (R120, R121). -/
def bitWrite (v : BitVec 16) (n : Nat) (s : State) : Host.Outcome (WriteEnd × State) Fault Refusal :=
  if n = 0 then .next (.ok, s)
  else if s.writer.fits n then
    chain (orBytes s.writerView (placedField v n s.writer.off) (ceil8 (s.writer.off.toNat + n)) 0 s)
      (fun t => .next (.ok, t.setWriter (s.writer.advance s.params n)))
  else .next (.fail, raise .wovf s)

/-- A command that is one BitWrite and nothing else (R124 to R126). -/
def writeField (v : BitVec 16) (n : Nat) (s : State) : Result := chain (bitWrite v n s) (fun r => .next r.2)

/-! ## BitReader -/

/-- One turn of Rent's loop: pull the byte at R_ADDR (42_bitreader.md R140). -/
def pullByte (s : State) : Result :=
  accessByte s.readerView (s.reader.addr.toNat % s.params.space) s
    ((s.setReader
        { addr := wrapAddr s.params (s.reader.addr.toNat + 1)
          len := s.reader.len - 1#32
          acc := s.reader.acc ||| (s.mem.read (s.reader.addr.toNat % s.params.space)).setWidth 16 <<< s.reader.cnt.toNat
          cnt := s.reader.cnt + 8#5 }).logPort (.read (s.reader.addr.toNat % s.params.space)))

/-- Rent's loop, at most `fuel` turns (log 18). -/
def rentLoop (n : Nat) : (fuel : Nat) → State → Result
  | 0, s => .next s
  | fuel + 1, s =>
    if s.reader.cnt.toNat < n ∧ s.reader.len ≠ 0#32 then chain (pullByte s) (rentLoop n fuel) else .next s

/-- `Rent(n)` for n in 0..9 (R140): the pair it returns is (R_CNT, R_ACC) of the state it answers. Each turn adds 8 valid bits, so `n`
turns are always enough (R144, log 18). -/
def rent (n : Nat) (s : State) : Result := rentLoop n n s

/-- `Advance(n)` for n in 0..16 (R141): RUNDER if `n > R_CNT`; shift, and saturate the count at 0. -/
def advance (n : Nat) (s : State) : State :=
  let s1 := if s.reader.cnt.toNat < n then raise .runder s else s
  s1.setReader
    { s.reader with
      acc := s.reader.acc >>> n
      cnt := if s.reader.cnt.toNat < n then 0#5 else s.reader.cnt - BitVec.ofNat 5 n }

/-- Reader equivalence (R145): the four reader registers agree. A predicate for models; no command computes it. -/
abbrev readerEquiv (s t : State) : Prop := s.reader = t.reader

/-! ## Encoder and decoder steps -/

/-- Steps 1 and 2 of ENC.SYM and MEAS.SYM: the delta `translate(c) XOR E_PREV` (44_codec.md R172, R173). -/
def symbolDelta (c : Byte) (s : State) : Byte := translate s.params.xlat c ^^^ s.enc.prev

/-- Step 5 and the bit count: `E_PREV <- t; E_BITS <- (E_BITS + n) mod 2^32` (R172, R173). -/
def accountSymbol (c : Byte) (n : Nat) (s : State) : State :=
  s.setEnc { prev := translate s.params.xlat c, bits := s.enc.bits + BitVec.ofNat 32 n }

/-- Step 4 of DecodeStep: `D_PREV <- D_PREV XOR d` (45_decoder.md R190). -/
def applyDelta (d : Byte) (s : State) : State := s.setDec { s.dec with prev := s.dec.prev ^^^ d }

/-- Steps 2 to 4 of DecodeStep: the long code if 9 bits are available and bit 0 is 1, else the short code (R190). -/
def consumeCode (s : State) : State :=
  if 9 ≤ s.reader.cnt.toNat ∧ s.reader.acc.getLsbD 0 = true then
    applyDelta (s.reader.acc.extractLsb' 1 8) (advance 9 s)
  else
    applyDelta ((s.reader.acc.extractLsb' 1 5).setWidth 8) (advance 6 s)

/-- `DecodeStep()` (R190). It does not touch D_REM. -/
def decodeStep (s : State) : Result := chain (rent 9 s) (fun t => .next (consumeCode t))

end Sys2Proof.Machine
end

