-- ==== Sys2Proof/Machine/Codec.lean ====
section
/-! DEFINITION. The Codec's commands (44_codec.md section 2). -/

namespace Sys2Proof.Machine

/-- ENC.INIT (R170): `E_PREV <- 0x41; E_BITS <- 0`. -/
def execEncInit (s : State) : Result := .next (s.setEnc { prev := seed, bits := 0#32 })

/-- ENC.SYM c (R172): write the code of the delta; if that fails (WOVF) nothing else changes, else E_PREV and E_BITS follow. -/
def execEncSym (c : Byte) (s : State) : Result :=
  chain (bitWrite (code (symbolDelta c s)).1 (code (symbolDelta c s)).2 s) (fun r =>
    match r.1 with
    | .ok => .next (accountSymbol c (code (symbolDelta c s)).2 r.2)
    | .fail => .next r.2)

/-- MEAS.SYM c (R173): account the code without writing it. -/
def execMeasSym (c : Byte) (s : State) : Result := .next (accountSymbol c (code (symbolDelta c s)).2 s)

end Sys2Proof.Machine
end

