-- ==== Sys2Proof/Machine/Control.lean ====
section
/-! DEFINITION. The control command (40_control.md). -/

namespace Sys2Proof.Machine

/-- NOP (R112): every register and every memory byte stays. -/
def execNop (s : State) : Result := .next s

end Sys2Proof.Machine
end

