-- ==== Sys2Proof/Machine/Decoder.lean ====
section
/-! DEFINITION. The DecodingSequence's commands (45_decoder.md section 2). -/

namespace Sys2Proof.Machine

/-- The first three assignments of DEC.INIT: `R_ACC <- 0; R_CNT <- 0; D_PREV <- 0x41` (R191). -/
def seedDecoder (s : State) : State :=
  (s.setReader { s.reader with acc := 0#16, cnt := 0#5 }).setDec { s.dec with prev := seed }

/-- DEC.INIT (R191): seed, then decode one symbol if `D_REM != 0`. -/
def execDecInit (s : State) : Result :=
  if s.dec.rem = 0#32 then .next (seedDecoder s) else decodeStep (seedDecoder s)

/-- DEC.NEXT (R192): DEND at `D_REM = 0`; else decrement, and decode the next symbol if D_REM is still not 0. -/
def execDecNext (s : State) : Result :=
  if s.dec.rem = 0#32 then .next (raise .dend s)
  else
    let t := s.setDec { s.dec with rem := s.dec.rem - 1#32 }
    if t.dec.rem = 0#32 then .next t else decodeStep t

end Sys2Proof.Machine
end

