-- ==== Sys2Proof/Machine/Reader.lean ====
section
/-! DEFINITION. The BitReader's commands (42_bitreader.md section 2). -/

namespace Sys2Proof.Machine

/-- RENT n (R142): Rent(n), then `RESULT <- {11'b0, avail[4:0], acc[15:0]}`; "ILL when N > 9" (no word decodes to that term, log 7). -/
def execRent (n : BitVec 5) (s : State) : Result :=
  if countOperand n ≤ rentMax then
    chain (rent (countOperand n) s) (fun t => .next (t.setResult (t.reader.cnt ++ t.reader.acc)))
  else .next (raise .ill s)

/-- RADV n (R143): Advance(n); "ILL when N > 16" (no word decodes to that term, log 7). -/
def execRadv (n : BitVec 5) (s : State) : Result :=
  if countOperand n ≤ radvMax then .next (advance (countOperand n) s) else .next (raise .ill s)

end Sys2Proof.Machine
end

