-- ==== Sys2Proof/Machine/Translator.lean ====
section
/-! DEFINITION. The SymbolTranslator's command (43_translator.md section 2). -/

namespace Sys2Proof.Machine

/-- XLAT b (R164): `RESULT <- zext_32(translate(b))`. -/
def execXlat (b : Byte) (s : State) : Result := .next (s.setResult ((translate s.params.xlat b).setWidth 21))

end Sys2Proof.Machine
end

