-- ==== Sys2Proof/Machine/Writer.lean ====
section
/-! DEFINITION. The BitWriter's commands (41_bitwriter.md section 2). -/

namespace Sys2Proof.Machine

/-- WBIT bit (R124): `BitWrite(zext_16(bit), 1)`. -/
def execWbit (bit : Bool) (s : State) : Result := writeField (bitOperandField bit) 1 s

/-- WBYTE b (R125): `BitWrite(zext_16(b), 8)`. -/
def execWbyte (b : Byte) (s : State) : Result := writeField (byteOperandField b) 8 s

/-- WFIELD n, v (R126): `BitWrite(v, n)`; "ILL when N > 16" (no word decodes to that term, log 7). -/
def execWfield (n : BitVec 5) (v : BitVec 16) (s : State) : Result :=
  if countOperand n ≤ wfieldMax then writeField v (countOperand n) s else .next (raise .ill s)

end Sys2Proof.Machine
end

