-- ==== Sys2Proof/Machine/Dispatch.lean ====
section
/-! DEFINITION. One arm per command (40_control.md R111: "the block performs the rule of its opcode"). -/

namespace Sys2Proof.Machine

def exec (i : Instr) (s : State) : Host.Outcome State Fault Refusal :=
  match i with
  | .nop => Sys2Proof.Machine.execNop s
  | .xlat b => Sys2Proof.Machine.execXlat b s
  | .wbit bit => Sys2Proof.Machine.execWbit bit s
  | .wbyte b => Sys2Proof.Machine.execWbyte b s
  | .wfield n v => Sys2Proof.Machine.execWfield n v s
  | .rent n => Sys2Proof.Machine.execRent n s
  | .radv n => Sys2Proof.Machine.execRadv n s
  | .encInit => Sys2Proof.Machine.execEncInit s
  | .encSym c => Sys2Proof.Machine.execEncSym c s
  | .measSym c => Sys2Proof.Machine.execMeasSym c s
  | .decInit => Sys2Proof.Machine.execDecInit s
  | .decNext => Sys2Proof.Machine.execDecNext s

end Sys2Proof.Machine
end

