-- ==== Sys2Proof/Machine/Bus.lean ====
section
/-! DEFINITION. What one entry of the host's access list does: a command by a write of CMD (40_control.md R110, R111), the other register
accesses (10_state.md R23, 40_control.md R113, R114), host loads and stores of buffer memory (20_memory.md R72), and platform reset
(70_reset_and_hazards.md R260). -/

namespace Sys2Proof.Machine

/-- `Execute(w)` (R111): an illegal word raises ILL and has no other effect; a legal one performs the rule of its opcode. -/
def executeCommand (w : Word) (s : State) : Result :=
  match decode w with
  | .error _ => .next (raise .ill s)
  | .ok i => exec i s

/-- How many bytes an access covers. -/
def AccessSize.bytes : AccessSize → Nat
  | .byte => 1
  | .half => 2
  | .word => 4
  | .double => 8

/-- The size in bytes of the register window (10_state.md R22). -/
def windowBytes : Nat := 128

/-- The access covers a byte of the register window (R22); one that does not is none of the block's (log 9). -/
def touchesWindow (p : Params) (addr : Nat) (size : AccessSize) : Bool :=
  decide (addr < p.base + windowBytes) && decide (p.base < addr + size.bytes)

/-- A whole, naturally aligned 32-bit word (R23). -/
def alignedWord (addr : Nat) (size : AccessSize) : Bool := decide (size = .word) && decide (addr % 4 = 0)

/-- A host read at a window offset (R23): reserved offsets return 0. It changes nothing in the block (R113). -/
def readOffset (off : Nat) (s : State) : Word :=
  match Reg.atOffset off with
  | none => 0#32
  | some r => readReg r s

/-- A host write at a window offset (R23, R26): a write to CMD issues the command, one to a reserved offset is ignored. -/
def writeOffset (off : Nat) (v : Word) (s : State) : Result :=
  match Reg.atOffset off with
  | none => .next s
  | some r => if r = .cmd then executeCommand v s else .next (writeReg r v s)

/-- A host load or store of one byte of buffer memory at `a`, going on at `t` (R72); the model's stops are log 10. -/
def hostByteAccess (a : Nat) (s t : State) : Result :=
  if s.params.space ≤ a then .fault (.hostAddressOutside a)
  else if s.params.isDevice a then .refused .hostDeviceAccess
  else if s.params.memAdmit a then .next t
  else .fault (.hostNotAdmitted a)

/-- One entry of the host's access list. -/
def hostAccess (op : HostOp) (s : State) : Result :=
  match op with
  | .regRead addr size =>
    if touchesWindow s.params addr size then
      if alignedWord addr size then .next (s.logRead (readOffset (addr - s.params.base) s)) else .refused .hostAccessForm
    else .next s
  | .regWrite addr size v =>
    if touchesWindow s.params addr size then
      if alignedWord addr size then writeOffset (addr - s.params.base) v s else .refused .hostAccessForm
    else .next s
  | .memLoad a => hostByteAccess a s (s.logRead ((s.mem.read a).setWidth 32))
  | .memStore a b => hostByteAccess a s (s.setMem (s.mem.write a b))
  | .reset => .next (resetRegisters s)
  | .resetDuring _ => .next (resetRegisters s)

end Sys2Proof.Machine
end

