-- ==== Sys2Proof/Machine/Step.lean ====
section
/-! DEFINITION. The step: the block is idle until the host acts (60_exceptions.md R246, 70_reset_and_hazards.md R262), and one entry of the
host's access list is one step, because a command completes before the host's next access (40_control.md R110). -/

namespace Sys2Proof.Machine

/-- One step: the oldest host access still to come, or nothing while there is none. -/
def step (s : State) : Host.Outcome State Fault Refusal :=
  match s.hostQueue with
  | [] => .next s
  | op :: rest => hostAccess op (s.setQueue rest)

/-- The state in which the host's next access is the write of the command word `w` to CMD. The block fetches nothing (10_state.md R21):
this stands for the host issuing the command (log 1). -/
def State.withFetchWord (s : State) (nbits w : Nat) : State :=
  s.setQueue (.regWrite (s.params.base + Reg.cmd.offset) .word (BitVec.ofNat 32 (w % 2 ^ nbits)) :: s.hostQueue)

end Sys2Proof.Machine
end

