-- ==== Sys2Proof/Machine/HostSeq.lean ====
section
/-! DEFINITION. The host procedures (46_host_sequences.md; 30_encoding.md R90): MEASURE, ENCODE, DECODE, SAVE.DEC, RESTORE.DEC, and the
size-selecting wrapper's contract. They are host software, written as host accesses; the block has none of them (R7). -/

namespace Sys2Proof.Machine

/-- `WR REG, v` (R90). -/
def wr (p : Params) (r : Reg) (v : Word) : HostOp := .regWrite (p.base + r.offset) .word v

/-- `RD REG` (R90). -/
def rd (p : Params) (r : Reg) : HostOp := .regRead (p.base + r.offset) .word

/-- A command mnemonic on its own line: `WR CMD, <its word>` (R90). -/
def cmd (p : Params) (i : Instr) : HostOp := wr p .cmd (encode i)

/-- Host accesses in order, up to the first that stops (20_memory.md R72). -/
def runAccesses : List HostOp → State → Result
  | [], s => .next s
  | op :: rest, s => chain (hostAccess op s) (runAccesses rest)

/-- `RD REG` with the word it returned. -/
def hostRead (r : Reg) (s : State) : Host.Outcome (Word × State) Fault Refusal :=
  chain (hostAccess (rd s.params r) s) (fun t => .next (t.hostReads.getLastD 0#32, t))

/-- The commands of MEASURE (R210). -/
def measureOps (p : Params) (x : List Byte) : List HostOp := cmd p .encInit :: x.map (fun c => cmd p (.measSym c))

/-- `MEASURE x` with its result, `RD E_BYTES` (R210). -/
def measure (x : List Byte) (s : State) : Host.Outcome (Word × State) Fault Refusal :=
  chain (runAccesses (measureOps s.params x) s) (hostRead .eBytes)

/-- The accesses of ENCODE (R211). -/
def encodeOps (p : Params) (x : List Byte) (a len : Word) : List HostOp :=
  [wr p .wAddr a, wr p .wLen len, wr p .wOff 0#32, cmd p .encInit] ++ x.map (fun c => cmd p (.encSym c))

/-- `ENCODE x, A, L` with its result, `RD E_BYTES`, "valid only if (RD STATUS)[1] = 0" (R211). -/
def encodeString (x : List Byte) (a len : Word) (s : State) : Host.Outcome (Word × State) Fault Refusal :=
  chain (runAccesses (encodeOps s.params x a len) s) (hostRead .eBytes)

/-- ENCODE followed by the check R211 asks for: the result is discarded if STATUS.WOVF is set. -/
def encodeChecked (x : List Byte) (a len : Word) (s : State) : Host.Outcome (Option Word × State) Fault Refusal :=
  chain (encodeString x a len s) (fun r =>
    chain (hostRead .status r.2) (fun q => .next (if q.1.getLsbD 1 then none else some r.1, q.2)))

/-- The host's zeroing of `n` bytes from `a` (70_reset_and_hazards.md R263 step 1, R265). -/
def zeroBuffer (p : Params) (a n : Nat) : List HostOp :=
  (List.range n).map (fun i => .memStore ((a + i) % p.space) 0x00#8)

/-- The accesses of DECODE before its loop (R212). -/
def decodeOps (p : Params) (a len k : Word) : List HostOp :=
  [wr p .rAddr a, wr p .rLen len, wr p .dRem k, cmd p .decInit]

/-- The loop of DECODE: while STATUS.DONE reads 0, take D_OUT and issue DEC.NEXT (R212). The host may stop early, which abandons the
sequence; here it does after `fuel` turns (log 16). -/
def decodeLoop : (fuel : Nat) → State → Host.Outcome (List Byte × State) Fault Refusal
  | 0, s => .next ([], s)
  | fuel + 1, s =>
    chain (hostRead .status s) (fun st =>
      if st.1.getLsbD 8 then .next ([], st.2)
      else
        chain (hostRead .dOut st.2) (fun y =>
          chain (hostAccess (cmd y.2.params .decNext) y.2) (fun t =>
            chain (decodeLoop fuel t) (fun r => .next (y.1.setWidth 8 :: r.1, r.2)))))

/-- `DECODE A, L, k` (R212): after `k` turns the next read of STATUS ends the loop, so `k + 1` turns are never cut short. -/
def decodeString (a len k : Word) (s : State) : Host.Outcome (List Byte × State) Fault Refusal :=
  chain (runAccesses (decodeOps s.params a len k) s) (decodeLoop (k.toNat + 1))

/-- The six words SAVE.DEC reads, in its order (R219). -/
structure SavedDecoder where
  rAddr : Word
  rLen  : Word
  rAcc  : Word
  rCnt  : Word
  dPrev : Word
  dRem  : Word
deriving DecidableEq, Repr

/-- `SAVE.DEC` (R219). -/
def saveDecoder (s : State) : Host.Outcome (SavedDecoder × State) Fault Refusal :=
  chain (hostRead .rAddr s) fun r0 =>
  chain (hostRead .rLen r0.2) fun r1 =>
  chain (hostRead .rAcc r1.2) fun r2 =>
  chain (hostRead .rCnt r2.2) fun r3 =>
  chain (hostRead .dPrev r3.2) fun r4 =>
  chain (hostRead .dRem r4.2) fun r5 =>
  .next ({ rAddr := r0.1, rLen := r1.1, rAcc := r2.1, rCnt := r3.1, dPrev := r4.1, dRem := r5.1 }, r5.2)

/-- `RESTORE.DEC s` (R219). -/
def restoreOps (p : Params) (d : SavedDecoder) : List HostOp :=
  [wr p .rAddr d.rAddr, wr p .rLen d.rLen, wr p .rAcc d.rAcc, wr p .rCnt d.rCnt, wr p .dPrev d.dPrev, wr p .dRem d.dRem]

/-! ## The size-selecting wrapper (R215, R216, R220) -/

/-- The artifact that the wrapper stores: the string itself, or its stream (R215). The constructor is the host's record of the form,
which the spec leaves open (91_not_in_source.md N9; DESIGN CHOICE, log 16). -/
inductive Artifact where
  | raw (x : List Byte)
  | compressed (bytes : List Byte)
deriving DecidableEq, Repr

/-- What the wrapper stores: the artifact, and the symbol count, which "is kept beside it in both cases" (R216). -/
structure Stored where
  artifact : Artifact
  count    : Nat
deriving DecidableEq, Repr

/-- The size of the stored artifact; the count beside it "is not counted" (R216). -/
def Stored.size (f : Stored) : Nat :=
  match f.artifact with
  | .raw x => x.length
  | .compressed bytes => bytes.length

/-- The length that both forms expose: that of the decoded-byte sequence, which is the count and not the artifact's size (R220, R101). -/
def Stored.length (f : Stored) : Nat := f.count

/-- The bytes of a buffer, by host loads. -/
def loadBytes (p : Params) (a : Nat) : (n : Nat) → State → Host.Outcome (List Byte × State) Fault Refusal
  | 0, s => .next ([], s)
  | n + 1, s =>
    chain (hostAccess (.memLoad (a % p.space)) s) (fun t =>
      chain (loadBytes p (a + 1) n t) (fun r => .next ((t.hostReads.getLastD 0#32).setWidth 8 :: r.1, r.2)))

/-- The wrapper with the scratch buffer at `a` (R215): compressed only if the measured size is strictly smaller than the string. -/
def wrapString (x : List Byte) (a : Word) (s : State) : Host.Outcome (Stored × State) Fault Refusal :=
  chain (measure x s) fun m =>
  if m.1.toNat < x.length then
    chain (runAccesses (zeroBuffer s.params a.toNat m.1.toNat) m.2) fun z =>
    chain (encodeString x a m.1 z) fun e =>
    chain (loadBytes s.params a.toNat m.1.toNat e.2) fun b =>
    .next ({ artifact := .compressed b.1, count := x.length }, b.2)
  else .next ({ artifact := .raw x, count := x.length }, m.2)

/-- The uniform read contract's sequence (R220), of `Stored.length` bytes: a compressed artifact that stands at `a` is DECODEd with the
count kept beside it; a raw one is its own bytes, with no block command. -/
def readStored (a : Word) (f : Stored) (s : State) : Host.Outcome (List Byte × State) Fault Refusal :=
  match f.artifact with
  | .raw x => .next (x, s)
  | .compressed bytes => decodeString a (BitVec.ofNat 32 bytes.length) (BitVec.ofNat 32 f.count) s

end Sys2Proof.Machine
end

