-- ==== Sys2Proof/Machine/Stream.lean ====
section
/-! DEFINITION. The encoded stream as pure data (30_encoding.md section 5): what a buffer holding the encoding of a string reads as,
said without the machine. No command uses it; statements about the stream format are made with it. -/

namespace Sys2Proof.Machine

/-- The codes of a string in input order, each delta taken from the translated symbol before it (R95, 44_codec.md R171). -/
def codesFrom (xlat : Bool) : Byte → List Byte → List (BitVec 16 × Nat)
  | _, [] => []
  | prev, c :: rest => code (translate xlat c ^^^ prev) :: codesFrom xlat (translate xlat c) rest

/-- The codes of a string, from the fixed seed (00_scope.md R10). -/
def streamCodes (xlat : Bool) (x : List Byte) : List (BitVec 16 × Nat) := codesFrom xlat seed x

/-- The bits of one code, bit 0 first (R96, R97). -/
def codeBits (c : BitVec 16 × Nat) : List Bool := (List.range c.2).map c.1.getLsbD

/-- The stream of a string: its codes' bits with no header, separator or terminator (R95). -/
def streamBits (xlat : Bool) (x : List Byte) : List Bool := (streamCodes xlat x).flatMap codeBits

/-- The number of code bits of a string. -/
def streamWidth (xlat : Bool) (x : List Byte) : Nat := ((streamCodes xlat x).map Prod.snd).sum

/-- The number of bytes of a string's stream (R100). -/
def streamBytes (xlat : Bool) (x : List Byte) : Nat := ceil8 (streamWidth xlat x)

/-- How many symbols of a string take long codes (R97, R100). -/
def longCount (xlat : Bool) (x : List Byte) : Nat := (streamCodes xlat x).countP (fun c => c.2 == 9)

/-- The translated value of the last symbol, or the start value for an empty string: what E_PREV holds at the end (10_state.md R36). -/
def lastTranslated (xlat : Bool) (prev : Byte) (x : List Byte) : Byte := x.foldl (fun _ c => translate xlat c) prev

/-- Stream bit number `k` of a buffer whose byte 0 is at `start` (20_memory.md R63), addresses modulo the space (R68). -/
def bufferBit (m : Memory) (space start k : Nat) : Bool := (m.read ((start + k / 8) % space)).getLsbD (k % 8)

/-- The buffer at `start` begins with the stream of `x` (00_scope.md R16, "well-formed stream"). -/
def HoldsStream (xlat : Bool) (x : List Byte) (m : Memory) (space start : Nat) : Prop :=
  ∀ k, k < streamWidth xlat x → (streamBits xlat x)[k]? = some (bufferBit m space start k)

end Sys2Proof.Machine
end

