-- ==== Sys2Proof/Safety.lean ====
section
/-! DEFINITION. What counts as a good state and a safe run, and the rules' own descriptions of results, in the terms the statements use:
written from the rules in plain arithmetic, beside the operations that the machine runs. -/

namespace Sys2Proof.Machine

/-! ## Invariants and safe runs -/

/-- Address registers hold bits [P_AW-1:0] (10_state.md R29, R32), R_CNT is 0..16 (R35), and buffer memory is in its canonical form
and lists only addresses that exist (20_memory.md R60). W_OFF is in [0,8) by its type (R42). -/
abbrev State.Inv (s : State) : Prop :=
  s.writer.addr.toNat < s.params.space ∧ s.reader.addr.toNat < s.params.space ∧ s.reader.cnt.toNat ≤ regW ∧
  s.mem.wf = true ∧ s.mem.below s.params.space = true

/-- The reader invariant: "every bit of R_ACC at position R_CNT or above is 0, and R_CNT <= 16" (10_state.md R43). Commands keep it; a
host write to R_ACC or R_CNT can break it. -/
abbrev State.ReaderInv (s : State) : Prop :=
  s.reader.cnt.toNat ≤ regW ∧ ∀ k, k < 16 → s.reader.cnt.toNat ≤ k → s.reader.acc.getLsbD k = false

/-- Every access a command may make through the view is admitted plain storage (20_memory.md R67, R70). -/
def usableView (p : Params) (v : View) : Prop :=
  p.viewCoversDevice v = false ∧ ∀ a, v.covers p.space a = true → p.memAdmit a = true

/-- No error recorded: what 93_implementation_defined.md lists as a fault of the run (U1, U2, U3, U11) leaves a sticky bit (92_eei_decisions.md
D15). -/
abbrev State.Clean (s : State) : Prop := s.flags = ErrorFlags.clear

/-- A run of `n` steps that goes on and records no error in any state. -/
def CleanRun : Nat → State → Prop
  | 0, s => s.Clean
  | n + 1, s => s.Clean ∧ ∃ t, step s = .next t ∧ CleanRun n t

/-- Commands one after another, up to the first that stops (40_control.md R110). -/
def runCommands : List Instr → State → Result
  | [], s => .next s
  | i :: rest, s => chain (exec i s) (runCommands rest)

/-! ## What the rules say of commands as a whole -/

/-- A legal command word, as the table of 30_encoding.md R84 and the ranges of R88 say it. -/
def specLegal (w : Word) : Prop :=
  w &&& 0xFFFFFFFF#32 = 0x00000000#32 ∨ w &&& 0xFF00FFFF#32 = 0x00000001#32 ∨
  w &&& 0xFFFEFFFF#32 = 0x00000010#32 ∨ w &&& 0xFF00FFFF#32 = 0x00000011#32 ∨
  (w &&& 0x0000E0FF#32 = 0x00000012#32 ∧ w.toNat / 256 % 32 ≤ 16) ∨
  (w &&& 0xFFFFE0FF#32 = 0x00000020#32 ∧ w.toNat / 256 % 32 ≤ 9) ∨
  (w &&& 0xFFFFE0FF#32 = 0x00000021#32 ∧ w.toNat / 256 % 32 ≤ 16) ∨
  w &&& 0xFFFFFFFF#32 = 0x00000030#32 ∨ w &&& 0xFF00FFFF#32 = 0x00000031#32 ∨
  w &&& 0xFF00FFFF#32 = 0x00000032#32 ∨ w &&& 0xFFFFFFFF#32 = 0x00000040#32 ∨ w &&& 0xFFFFFFFF#32 = 0x00000041#32

/-- The commands that make accesses to buffer memory "and no others do" (20_memory.md R62). -/
def accessesMemory : Instr → Bool
  | .rent _ | .decInit | .decNext | .wbit _ | .wbyte _ | .wfield _ _ | .encSym _ => true
  | .nop | .xlat _ | .radv _ | .encInit | .measSym _ => false

/-- The errors a legal command can raise, at most one of them a time (60_exceptions.md R236). -/
def mayRaise : Instr → List Err
  | .wbit _ | .wbyte _ | .wfield _ _ | .encSym _ => [.wovf]
  | .radv _ | .decInit => [.runder]
  | .decNext => [.dend, .runder]
  | .nop | .xlat _ | .rent _ | .encInit | .measSym _ => []

/-- The field a writer command writes: its value and its width (41_bitwriter.md R124 to R126). -/
def writeForm : Instr → Option (BitVec 16 × Nat)
  | .wbit bit => some (if bit then 1#16 else 0#16, 1)
  | .wbyte b => some (BitVec.ofNat 16 b.toNat, 8)
  | .wfield n v => some (v, n.toNat)
  | .nop | .xlat _ | .rent _ | .radv _ | .encInit | .encSym _ | .measSym _ | .decInit | .decNext => none

/-! ## The writer's rules, bit by bit -/

/-- Where bit `k` of a field written at the writer cursor lands: byte `start + (k_abs div 8)`, bit `k_abs mod 8` (20_memory.md R63),
addresses modulo 2^P_AW (R68). -/
def fieldBitAt (s : State) (k : Nat) : Nat × Nat :=
  ((s.writer.addr.toNat + (s.writer.off.toNat + k) / 8) % s.params.space, (s.writer.off.toNat + k) % 8)

/-- Memory of `t` is that of `s` with exactly the 1 bits among the low `n` bits of `v` set at their places (R63, R66; 41_bitwriter.md
R120). -/
def FieldOred (v : BitVec 16) (n : Nat) (s t : State) : Prop :=
  ∀ a j, j < 8 → ((t.mem.read a).getLsbD j = true ↔
    (s.mem.read a).getLsbD j = true ∨ ∃ k, k < n ∧ v.getLsbD k = true ∧ fieldBitAt s k = (a, j))

/-- The writer cursor of `t` is `n` bits after that of `s`, the view start moved by whole bytes (R120, 10_state.md R42). -/
def CursorMoved (n : Nat) (s t : State) : Prop :=
  t.writer.addr.toNat = (s.writer.addr.toNat + (s.writer.off.toNat + n) / 8) % s.params.space ∧
  t.writer.len.toNat = s.writer.len.toNat - (s.writer.off.toNat + n) / 8 ∧
  t.writer.off.toNat = (s.writer.off.toNat + n) % 8

/-- The OR mask of covered byte `i` of a field of `n` bits at bit offset `off` (R120). -/
def fieldMask (v : BitVec 16) (n off i : Nat) : Byte := BitVec.ofNat 8 (v.toNat % 2 ^ n * 2 ^ off / 2 ^ (8 * i))

/-- The accesses of a BitWrite, in ascending address order; "a byte whose mask m is 0 is neither read nor written" (R120). -/
def fieldAccesses (v : BitVec 16) (n : Nat) (s : State) : List PortAccess :=
  (List.range ((s.writer.off.toNat + n + 7) / 8)).filterMap (fun i =>
    if fieldMask v n s.writer.off.toNat i = 0#8 then none
    else some (.orByte ((s.writer.addr.toNat + i) % s.params.space) (fieldMask v n s.writer.off.toNat i)))

/-- A field of `n` bits stays inside the writer view: "ceil8(W_OFF + n) > W_LEN" is false (R121). -/
abbrev fieldFits (n : Nat) (s : State) : Prop := (s.writer.off.toNat + n + 7) / 8 ≤ s.writer.len.toNat

/-- OR of the number `x` into the byte at `a`. -/
def orInto (m : Memory) (a x : Nat) : Memory := m.write a (m.read a ||| BitVec.ofNat 8 x)

/-- Buffer memory and the writer cursor, as numbers, between two turns of the recursive split (R122). -/
structure SplitPoint where
  mem  : Memory
  addr : Nat
  len  : Nat
  off  : Nat
deriving DecidableEq, Repr

/-- The memory and the writer cursor of a state. -/
def State.splitPoint (s : State) : SplitPoint :=
  { mem := s.mem, addr := s.writer.addr.toNat, len := s.writer.len.toNat, off := s.writer.off.toNat }

/-- The cursor at bit 0 of the next byte of its view. -/
def SplitPoint.nextByte (space : Nat) (c : SplitPoint) : SplitPoint :=
  { c with addr := (c.addr + 1) % space, len := c.len - 1, off := 0 }

/-- The source's recursive split of a field write (R122): if the field fits the current byte it is written in place and the cursor advances
by `n`; otherwise the low bits fill the current byte, and the rest of the value is written at bit 0 of the next one. -/
def splitWrite (space : Nat) : (fuel v n : Nat) → SplitPoint → SplitPoint
  | 0, _, _, c => c
  | fuel + 1, v, n, c =>
    if n ≤ 8 - c.off then
      let filled := { c with mem := orInto c.mem c.addr (v % 2 ^ n * 2 ^ c.off), off := c.off + n }
      if filled.off = 8 then filled.nextByte space else filled
    else
      splitWrite space fuel (v / 2 ^ (8 - c.off)) (n - (8 - c.off))
        ({ c with mem := orInto c.mem c.addr (v % 2 ^ (8 - c.off) * 2 ^ c.off) }.nextByte space)

/-! ## The reader's and the decoder's rules, in closed form -/

/-- How many bytes Rent(n) pulls: as many as bring R_CNT to `n`, but not more than the view holds (42_bitreader.md R140). -/
def pullsFor (n : Nat) (r : ReaderCursor) : Nat := min r.len.toNat ((n - r.cnt.toNat + 7) / 8)

/-- The byte of buffer memory `i` bytes after R_ADDR. -/
def viewByte (s : State) (i : Nat) : Nat := (s.mem.read ((s.reader.addr.toNat + i) % s.params.space)).toNat

/-- The state after Rent(n) for n in 0..9, at most two bytes being pulled (R140, R144): each pulled byte is ORed in above the valid
bits, and R_ADDR, R_LEN and R_CNT follow. -/
def rented (n : Nat) (s : State) : State :=
  { s with
    reader :=
      { addr := if pullsFor n s.reader = 0 then s.reader.addr
                else BitVec.ofNat 32 ((s.reader.addr.toNat + pullsFor n s.reader) % s.params.space)
        len := BitVec.ofNat 32 (s.reader.len.toNat - pullsFor n s.reader)
        acc := s.reader.acc
          ||| (if 1 ≤ pullsFor n s.reader then BitVec.ofNat 16 (viewByte s 0 * 2 ^ s.reader.cnt.toNat) else 0#16)
          ||| (if 2 ≤ pullsFor n s.reader then BitVec.ofNat 16 (viewByte s 1 * 2 ^ (s.reader.cnt.toNat + 8)) else 0#16)
        cnt := BitVec.ofNat 5 (s.reader.cnt.toNat + 8 * pullsFor n s.reader) }
    port := s.port ++
      (List.range (pullsFor n s.reader)).map (fun i => .read ((s.reader.addr.toNat + i) % s.params.space)) }

/-- The state after Advance(n) (R141): shift by `n`, count saturating at 0, RUNDER if `n` exceeds the count. -/
def advanced (n : Nat) (s : State) : State :=
  { s with
    flags := { s.flags with runder := s.flags.runder || decide (s.reader.cnt.toNat < n) }
    reader := { s.reader with
      acc := BitVec.ofNat 16 (s.reader.acc.toNat / 2 ^ n)
      cnt := BitVec.ofNat 5 (s.reader.cnt.toNat - n) } }

/-- The state with D_PREV XORed with the number `d` (45_decoder.md R190 step 4). -/
def xoredPrev (d : Nat) (s : State) : State := { s with dec := { s.dec with prev := s.dec.prev ^^^ BitVec.ofNat 8 d } }

/-- The state after DecodeStep (R190): a long code, bits 1..8, if 9 bits are available and bit 0 is 1; else a short code, bits 1..5. -/
def decoded (s : State) : State :=
  if 9 ≤ (rented 9 s).reader.cnt.toNat ∧ (rented 9 s).reader.acc.toNat % 2 = 1 then
    xoredPrev ((rented 9 s).reader.acc.toNat / 2 % 256) (advanced 9 (rented 9 s))
  else xoredPrev ((rented 9 s).reader.acc.toNat / 2 % 32) (advanced 6 (rented 9 s))

/-! ## The encoder's rules -/

/-- The width of the code of a delta: 6 bits below 32, else 9 (44_codec.md R171). -/
def specWidth (d : Byte) : Nat := if d.toNat < 32 then 6 else 9

/-- The value of the code of a delta: flag 0 then the delta, or flag 1 then the delta (30_encoding.md R96, R97). -/
def specCode (d : Byte) : BitVec 16 := BitVec.ofNat 16 (if d.toNat < 32 then 2 * d.toNat else 2 * d.toNat + 1)

/-- The field that a command's BitWrite writes: that of `writeForm`, and the code of the delta for ENC.SYM (44_codec.md R172). -/
def writtenField (i : Instr) (s : State) : Option (BitVec 16 × Nat) :=
  match i with
  | .encSym c =>
    some (specCode (translate s.params.xlat c ^^^ s.enc.prev), specWidth (translate s.params.xlat c ^^^ s.enc.prev))
  | .wbit _ | .wbyte _ | .wfield _ _ | .nop | .xlat _ | .rent _ | .radv _ | .encInit | .measSym _ | .decInit | .decNext => writeForm i

/-! ## The accesses a command's rule asks for -/

/-- The address of an access. -/
def PortAccess.addr : PortAccess → Nat
  | .read a => a
  | .orByte a _ => a

/-- The reads of Rent(n), in ascending address order (42_bitreader.md R140). -/
def pullAccesses (n : Nat) (s : State) : List PortAccess :=
  (List.range (pullsFor n s.reader)).map (fun i => .read ((s.reader.addr.toNat + i) % s.params.space))

/-- The accesses a command's rule asks for in the state it runs in, in order: none of a write that does not fit (41_bitwriter.md R121), the
reads of Rent(9) of a command that decodes a symbol (45_decoder.md R190 to R192), none of the commands 20_memory.md R62 does not list. -/
def plannedAccesses (i : Instr) (s : State) : List PortAccess :=
  match i with
  | .wbit _ | .wbyte _ | .wfield _ _ | .encSym _ =>
    match writtenField i s with
    | some (v, n) => if fieldFits n s then fieldAccesses v n s else []
    | none => []
  | .rent n => pullAccesses n.toNat s
  | .decInit => if s.dec.rem = 0#32 then [] else pullAccesses 9 { s with reader := { s.reader with cnt := 0#5 } }
  | .decNext => if s.dec.rem.toNat ≤ 1 then [] else pullAccesses 9 s
  | .nop | .xlat _ | .radv _ | .encInit | .measSym _ => []

/-- The view that a command's accesses go through (20_memory.md R62). -/
def accessView (i : Instr) (s : State) : View :=
  match i with
  | .wbit _ | .wbyte _ | .wfield _ _ | .encSym _ => s.writerView
  | .rent _ | .decInit | .decNext | .nop | .xlat _ | .radv _ | .encInit | .measSym _ => s.readerView

end Sys2Proof.Machine
end

