-- ==== Sys2Proof/Certificates/Slice0/Obligations.lean ====
section
/-! DEFINITION. The statements for the provers. Each docstring names the rule it formalises. Where a statement could fail only in states that no
run reaches, it has the invariant State.Inv as a premise, which StepKeepsInvariant and ResetSatisfiesInvariant state on their own. -/

open Sys2Proof Sys2Proof.Machine

/-! ## Encoding -/

/-- Every legal command's word decodes to that command, every operand at every value the encoding admits (30_encoding.md R80 to R89). -/
def Obligations.EncodedCommandDecodesToItself : Prop :=
  ∀ i : Instr, i.wellFormed = true → decode (encode i) = .ok i

/-- The other direction: each legal word has one meaning, and the encoder gives the word back (R84, R87). -/
def Obligations.DecodedWordEncodesToItself : Prop :=
  ∀ (w : Word) (i : Instr), decode w = .ok i → i.wellFormed = true ∧ encode i = w

/-- R85, R231: a word that the table of R84 with the ranges of R88 does not list sets STATUS.ILL and nothing else changes; a word it lists
decodes to a command. -/
def Obligations.IllegalWordRaisesOnlyIll : Prop :=
  (∀ w : Word, specLegal w → ∃ i, decode w = .ok i) ∧
  (∀ (w : Word) (s : State), ¬ specLegal w → executeCommand w s = .next { s with flags := { s.flags with ill := true } })

/-- Words written out from the spec's encodings decode to the commands they stand for (R89 and the examples of the command rules). -/
def Obligations.WordsFromTheSpecDecode : Prop :=
  decode 0x00000000#32 = .ok .nop ∧ decode 0x00200001#32 = .ok (.xlat 0x20#8) ∧ decode 0x00010010#32 = .ok (.wbit true) ∧
  decode 0x00A50011#32 = .ok (.wbyte 0xA5#8) ∧ decode 0x017D0912#32 = .ok (.wfield 9#5 0x17D#16) ∧
  decode 0x00000920#32 = .ok (.rent 9#5) ∧ decode 0x00000621#32 = .ok (.radv 6#5) ∧ decode 0x00000030#32 = .ok .encInit ∧
  decode 0x00410031#32 = .ok (.encSym 0x41#8) ∧ decode 0x00410032#32 = .ok (.measSym 0x41#8) ∧
  decode 0x00000040#32 = .ok .decInit ∧ decode 0x00000041#32 = .ok .decNext

/-! ## The step and the host's accesses -/

/-- R110, R111: when the host's oldest access is the write of a legal word to CMD, the step runs exactly the command it decodes to, on the
state with that access taken off the host's list; when the host has nothing to do, the block is idle (R246). -/
def Obligations.StepRunsTheDecodedCommand : Prop :=
  (∀ (s : State) (w : Word) (i : Instr) (rest : List HostOp),
    s.hostQueue = .regWrite (s.params.base + 8) .word w :: rest → decode w = .ok i →
    step s = exec i { s with hostQueue := rest }) ∧
  (∀ s : State, s.hostQueue = [] → step s = .next s)

/-- A run of the machine over a list of host accesses is those accesses in order (20_memory.md R72): as many steps as there are accesses end
where `runAccesses` ends. -/
def Obligations.QueuedAccessesRunInOrder : Prop :=
  ∀ (ops : List HostOp) (s t : State), s.hostQueue = [] → runAccesses ops s = .next t →
    Sys2Proof.core.run ops.length { s with hostQueue := ops } = .next t

/-- R23, R113, R40 and the map R22: a host read of an aligned word of the window returns the register's word, or 0 at a reserved offset, and
changes nothing in the block. -/
def Obligations.RegisterReadHasNoSideEffect : Prop :=
  ∀ (s : State) (off : Nat), off < 128 → off % 4 = 0 →
    hostAccess (.regRead (s.params.base + off) .word) s =
      .next { s with hostReads := s.hostReads ++ [
        if off = 0x00 then 0x43414C01#32
        else if off = 0x04 then
          BitVec.ofNat 32 ((if s.params.xlat then 1 else 0) + 2 ^ 8 * s.params.aw + 2 ^ 16 * 16)
        else if off = 0x0C then
          BitVec.ofNat 32 ((if s.flags.ill then 1 else 0) + (if s.flags.wovf then 2 else 0) + (if s.flags.runder then 4 else 0)
            + (if s.flags.dend then 8 else 0) + (if s.dec.rem = 0#32 then 2 ^ 8 else 0))
        else if off = 0x10 then BitVec.ofNat 32 s.result.toNat
        else if off = 0x14 then s.writer.addr
        else if off = 0x18 then s.writer.len
        else if off = 0x1C then BitVec.ofNat 32 s.writer.off.toNat
        else if off = 0x20 then s.reader.addr
        else if off = 0x24 then s.reader.len
        else if off = 0x28 then BitVec.ofNat 32 s.reader.acc.toNat
        else if off = 0x2C then BitVec.ofNat 32 s.reader.cnt.toNat
        else if off = 0x30 then BitVec.ofNat 32 s.enc.prev.toNat
        else if off = 0x34 then s.enc.bits
        else if off = 0x38 then BitVec.ofNat 32 ((s.enc.bits.toNat + 7) / 8)
        else if off = 0x3C then BitVec.ofNat 32 s.dec.prev.toNat
        else if off = 0x40 then s.dec.rem
        else if off = 0x44 then BitVec.ofNat 32 (translate s.params.xlat s.dec.prev).toNat
        else 0#32] }

/-- R114 with the legal-value rules of R27 and R29 to R40: what a host write of `v` to each register other than CMD leaves; read-only
registers and reserved offsets ignore it (R23), and the derived fields DONE, E_BYTES and D_OUT follow the registers they are computed from. -/
def Obligations.RegisterWriteStoresLegalValue : Prop :=
  ∀ (s : State) (off : Nat) (v : Word), off < 128 → off % 4 = 0 → off ≠ 0x08 →
    ∃ t, hostAccess (.regWrite (s.params.base + off) .word v) s = .next t ∧ t = (
      if off = 0x0C then
        { s with flags :=
          { ill := s.flags.ill && !v.getLsbD 0, wovf := s.flags.wovf && !v.getLsbD 1
            runder := s.flags.runder && !v.getLsbD 2, dend := s.flags.dend && !v.getLsbD 3 } }
      else if off = 0x14 then { s with writer := { s.writer with addr := BitVec.ofNat 32 (v.toNat % 2 ^ s.params.aw) } }
      else if off = 0x18 then { s with writer := { s.writer with len := v } }
      else if off = 0x1C then { s with writer := { s.writer with off := BitVec.ofNat 3 (v.toNat % 8) } }
      else if off = 0x20 then { s with reader := { s.reader with addr := BitVec.ofNat 32 (v.toNat % 2 ^ s.params.aw) } }
      else if off = 0x24 then { s with reader := { s.reader with len := v } }
      else if off = 0x28 then { s with reader := { s.reader with acc := BitVec.ofNat 16 (v.toNat % 65536) } }
      else if off = 0x2C then { s with reader := { s.reader with cnt := BitVec.ofNat 5 (min (v.toNat % 32) 16) } }
      else if off = 0x30 then { s with enc := { s.enc with prev := BitVec.ofNat 8 (v.toNat % 256) } }
      else if off = 0x34 then { s with enc := { s.enc with bits := v } }
      else if off = 0x3C then { s with dec := { s.dec with prev := BitVec.ofNat 8 (v.toNat % 256) } }
      else if off = 0x40 then { s with dec := { s.dec with rem := v } }
      else s) ∧
      ((readReg .status t).getLsbD 8 = true ↔ t.dec.rem = 0#32) ∧
      (readReg .eBytes t).toNat = (t.enc.bits.toNat + 7) / 8 ∧
      (readReg .dOut t).toNat = (translate s.params.xlat t.dec.prev).toNat

/-- R23: an access to the register window that is not a whole, naturally aligned 32-bit word is refused, read or write. That an access counts
as one to the window when it covers at least one of its bytes is the model's own choice (log 9, DESIGN CHOICE). -/
def Obligations.UnalignedOrNarrowAccessIsRefused : Prop :=
  ∀ (s : State) (addr : Nat) (size : AccessSize) (v : Word),
    addr < s.params.base + 128 → s.params.base < addr + size.bytes → (size ≠ .word ∨ addr % 4 ≠ 0) →
    hostAccess (.regRead addr size) s = .refused .hostAccessForm ∧
    hostAccess (.regWrite addr size v) s = .refused .hostAccessForm

/-- R47, R260: a platform reset, in the middle of a command or not, gives every register its reset value and changes neither buffer memory
nor the parameters; the machine right after reset is one whose registers a further reset leaves as they are. -/
def Obligations.ResetSetsEveryRegister : Prop :=
  hostAccess .reset State.reset = .next State.reset ∧
  ∀ (s : State) (w : Word), ∀ op ∈ [HostOp.reset, HostOp.resetDuring w],
    hostAccess op s = .next
      { params := s.params
        flags := { ill := false, wovf := false, runder := false, dend := false }
        result := 0#21
        writer := { addr := 0#32, len := 0#32, off := 0#3 }
        reader := { addr := 0#32, len := 0#32, acc := 0#16, cnt := 0#5 }
        enc := { prev := 0x41#8, bits := 0#32 }
        dec := { prev := 0x41#8, rem := 0#32 }
        mem := s.mem, port := s.port, hostQueue := s.hostQueue, hostReads := s.hostReads }

/-- R261: right after reset, ENC.INIT and a DEC.INIT of the empty sequence change nothing, and STATUS reads 0x100. -/
def Obligations.ResetEqualsFreshEncoderAndDecoder : Prop :=
  exec .encInit State.reset = .next State.reset ∧ exec .decInit State.reset = .next State.reset ∧
  readReg .status State.reset = 0x100#32

/-- R72: what the host stores to plain admitted memory the host's next load of that address returns, and no other byte changes. -/
def Obligations.HostStoreIsSeenByNextLoad : Prop :=
  ∀ (s t : State) (a : Nat) (b : Byte), s.Inv → hostAccess (.memStore a b) s = .next t →
    hostAccess (.memLoad a) t = .next { t with hostReads := t.hostReads ++ [BitVec.ofNat 32 b.toNat] } ∧
    (∀ c, c ≠ a → t.mem.read c = s.mem.read c) ∧ t = { s with mem := t.mem }

/-! ## Control, translator -/

/-- R112: NOP leaves every register and every memory byte unchanged. -/
def Obligations.NopChangesNothing : Prop := ∀ s : State, exec .nop s = .next s

/-- R164, R160, R163, R28: XLAT puts the translated byte, zero-extended, in RESULT and changes nothing else. -/
def Obligations.XlatWritesTranslatedByte : Prop :=
  ∀ (b : Byte) (s : State), ∃ t, exec (.xlat b) s = .next t ∧ t = { s with result := t.result } ∧
    (readReg .result t).toNat =
      (if s.params.xlat then
        (if b.toNat = 32 then 127 else if b.toNat = 127 then 32 else if b.toNat = 34 then 126
         else if b.toNat = 126 then 34 else b.toNat)
       else b.toNat)

/-- R161, R162: the permutation is its own inverse for all 256 bytes, and moves no byte but 32, 127, 34 and 126. -/
def Obligations.TranslateIsSelfInverse : Prop :=
  ∀ (xlat : Bool) (b : Byte), translate xlat (translate xlat b) = b ∧
    (b ≠ 32#8 → b ≠ 127#8 → b ≠ 34#8 → b ≠ 126#8 → translate xlat b = b)

/-! ## BitWriter -/

/-- R120, R124, R125, R126: a WBIT, WBYTE or WFIELD of at least one bit that fits the writer view completes; its field is ORed in at its
stream bits and nowhere else, exactly the bytes with a nonzero mask are accessed, in ascending order, the cursor moves by the field's
width, and every other register stays. -/
def Obligations.FittingWriteOrsItsField : Prop :=
  ∀ (i : Instr) (v : BitVec 16) (n : Nat) (s : State), writeForm i = some (v, n) → i.wellFormed = true → 0 < n → fieldFits n s →
    usableView s.params s.writerView →
    ∃ t, exec i s = .next t ∧ FieldOred v n s t ∧ CursorMoved n s t ∧ t.port = s.port ++ fieldAccesses v n s ∧
      t = { s with writer := t.writer, mem := t.mem, port := t.port }

/-- R121: a BitWrite of at least one bit whose field would fall in a byte at or beyond the end of the view fails, sets WOVF and changes
nothing else, and so does a WBIT, WBYTE or WFIELD of such a field. -/
def Obligations.WriteOutsideViewRaisesOnlyWovf : Prop :=
  (∀ (v : BitVec 16) (n : Nat) (s : State), 0 < n → n ≤ 16 → ¬ fieldFits n s →
    bitWrite v n s = .next (.fail, { s with flags := { s.flags with wovf := true } })) ∧
  ∀ (i : Instr) (v : BitVec 16) (n : Nat) (s : State), writeForm i = some (v, n) → i.wellFormed = true → 0 < n → ¬ fieldFits n s →
    exec i s = .next { s with flags := { s.flags with wovf := true } }

/-- R126: a WFIELD of no bits is a no-op, even in an empty view. -/
def Obligations.ZeroWidthWriteIsNoOp : Prop :=
  ∀ (v : BitVec 16) (s : State), exec (.wfield 0#5 v) s = .next s

/-- R122: BitWrite is the source's recursive split: every byte of memory and the whole writer cursor are the same after either, for a BitWrite of
1 to 16 bits that fits the writer view, and so for every WBIT, WBYTE, WFIELD and ENC.SYM whose field fits. -/
def Obligations.WriteEqualsRecursiveSplit : Prop :=
  (∀ (v : BitVec 16) (n : Nat) (s t : State), s.Inv → 0 < n → n ≤ 16 → fieldFits n s → bitWrite v n s = .next (.ok, t) →
    (∀ a, t.mem.read a = (splitWrite s.params.space 3 v.toNat n s.splitPoint).mem.read a) ∧
    t.splitPoint = { splitWrite s.params.space 3 v.toNat n s.splitPoint with mem := t.mem }) ∧
  (∀ (i : Instr) (v : BitVec 16) (n : Nat) (s t : State), s.Inv → writtenField i s = some (v, n) → i.wellFormed = true → 0 < n →
    fieldFits n s → exec i s = .next t →
    (∀ a, t.mem.read a = (splitWrite s.params.space 3 v.toNat n s.splitPoint).mem.read a) ∧
    t.splitPoint = { splitWrite s.params.space 3 v.toNat n s.splitPoint with mem := t.mem })

/-- R123: after a sequence of WFIELDs none of which overflows, the cursor stands the sum of their widths after where it started. -/
def Obligations.ConsecutiveWritesLeaveNoGap : Prop :=
  ∀ (fs : List (BitVec 5 × BitVec 16)) (s t : State), s.Inv → (∀ f ∈ fs, f.1.toNat ≤ 16) → s.flags.wovf = false →
    runCommands (fs.map (fun f => Instr.wfield f.1 f.2)) s = .next t → t.flags.wovf = false →
    CursorMoved ((fs.map (fun f => f.1.toNat)).sum) s t

/-- R66, R127: no command of the block ever clears a bit of memory. -/
def Obligations.NoCommandClearsMemoryBits : Prop :=
  ∀ (i : Instr) (s t : State), exec i s = .next t →
    ∀ a j, (s.mem.read a).getLsbD j = true → (t.mem.read a).getLsbD j = true

/-! ## BitReader -/

/-- R140, R142, R28: RENT pulls exactly the bytes it needs and the view holds, and reports (avail, acc) in RESULT; nothing else changes. -/
def Obligations.RentPullsOnlyWhatItNeeds : Prop :=
  ∀ (n : BitVec 5) (s : State), n.toNat ≤ 9 → usableView s.params s.readerView →
    exec (.rent n) s = .next
      { rented n.toNat s with
        result := BitVec.ofNat 21 ((rented n.toNat s).reader.cnt.toNat * 65536 + (rented n.toNat s).reader.acc.toNat) }

/-- R141, R143, R233: RADV shifts R_ACC by `n`, lowers R_CNT by `n` down to 0, sets RUNDER exactly if `n` exceeds R_CNT, and changes
nothing else, memory included. -/
def Obligations.RadvDiscardsOldestBits : Prop :=
  ∀ (n : BitVec 5) (s : State), n.toNat ≤ 16 → exec (.radv n) s = .next (advanced n.toNat s)

/-- R144: under the reader invariant a RENT drops no bit: every bit that was valid stays, and each pulled byte stands whole above it. -/
def Obligations.RentNeverOverflowsAccumulator : Prop :=
  ∀ (n : BitVec 5) (s t : State), s.ReaderInv → n.toNat ≤ 9 → exec (.rent n) s = .next t →
    t.reader.cnt.toNat = s.reader.cnt.toNat + 8 * pullsFor n.toNat s.reader ∧ t.reader.cnt.toNat ≤ 16 ∧
    t.reader.acc.toNat = s.reader.acc.toNat +
      ((List.range (pullsFor n.toNat s.reader)).map (fun i => viewByte s i * 2 ^ (s.reader.cnt.toNat + 8 * i))).sum

/-- R43: every command keeps the reader invariant. -/
def Obligations.CommandsKeepReaderInvariant : Prop :=
  ∀ (i : Instr) (s t : State), s.ReaderInv → exec i s = .next t → t.ReaderInv

/-- R70: a RENT whose first pull is at an address the platform does not admit is stuck: it has no next state. -/
def Obligations.UnadmittedPullLeavesRentStuck : Prop :=
  ∀ (n : BitVec 5) (s : State), n.toNat ≤ 9 → s.reader.cnt.toNat < n.toNat → s.reader.len ≠ 0#32 →
    s.params.viewCoversDevice s.readerView = false → s.params.memAdmit (s.reader.addr.toNat % s.params.space) = false →
    exec (.rent n) s = .fault (.memNotAdmitted (s.reader.addr.toNat % s.params.space))

/-! ## Codec -/

/-- R96, R97, R171: a delta below 32 takes 6 bits, flag 0 then its five bits; any other takes 9 bits, flag 1 then its eight bits; the test is
that of the bit-width. -/
def Obligations.CodeHasFlagThenDelta : Prop :=
  ∀ d : Byte, (code d).2 = (if bitwidth d.toNat ≤ 5 then 6 else 9) ∧
    (code d).1.toNat = (if d.toNat < 32 then 2 * d.toNat else 2 * d.toNat + 1) ∧ (bitwidth d.toNat ≤ 5 ↔ d.toNat < 32)

/-- R175: the boundary between short and long codes. -/
def Obligations.CodeBoundaryAtThirtyTwo : Prop :=
  code 31#8 = (0x3E#16, 6) ∧ code 32#8 = (0x41#16, 9) ∧ code 0#8 = (0x00#16, 6) ∧ code 255#8 = (0x1FF#16, 9)

/-- R170: ENC.INIT seeds E_PREV and clears E_BITS; nothing else changes. -/
def Obligations.EncInitSeedsTheEncoder : Prop :=
  ∀ s : State, exec .encInit s = .next { s with enc := { prev := 0x41#8, bits := 0#32 } }

/-- R173: MEAS.SYM accounts the code of the delta and keeps the translated symbol; nothing else changes. -/
def Obligations.MeasSymAccountsTheCode : Prop :=
  ∀ (c : Byte) (s : State), exec (.measSym c) s = .next
    { s with enc :=
      { prev := translate s.params.xlat c
        bits := BitVec.ofNat 32 ((s.enc.bits.toNat + specWidth (translate s.params.xlat c ^^^ s.enc.prev)) % 2 ^ 32) } }

/-- R172, R121: an ENC.SYM whose code fits the writer view completes: the code of the delta is ORed in at its stream bits, the cursor moves
by its width, E_PREV and E_BITS follow, and every other register stays; if the code does not fit, only WOVF is set. -/
def Obligations.EncSymWritesTheCode : Prop :=
  ∀ (c : Byte) (s : State),
    (fieldFits (specWidth (translate s.params.xlat c ^^^ s.enc.prev)) s → usableView s.params s.writerView →
      ∃ t, exec (.encSym c) s = .next t ∧
        FieldOred (specCode (translate s.params.xlat c ^^^ s.enc.prev)) (specWidth (translate s.params.xlat c ^^^ s.enc.prev)) s t ∧
        CursorMoved (specWidth (translate s.params.xlat c ^^^ s.enc.prev)) s t ∧
        t.enc.prev = translate s.params.xlat c ∧
        t.enc.bits.toNat = (s.enc.bits.toNat + specWidth (translate s.params.xlat c ^^^ s.enc.prev)) % 2 ^ 32 ∧
        t.port = s.port ++
          fieldAccesses (specCode (translate s.params.xlat c ^^^ s.enc.prev)) (specWidth (translate s.params.xlat c ^^^ s.enc.prev)) s ∧
        t = { s with writer := t.writer, enc := t.enc, mem := t.mem, port := t.port }) ∧
    (¬ fieldFits (specWidth (translate s.params.xlat c ^^^ s.enc.prev)) s →
      exec (.encSym c) s = .next { s with flags := { s.flags with wovf := true } })

/-- R174: from the same encoder registers, measuring a string and successfully encoding it leave the same E_PREV, E_BITS and E_BYTES. -/
def Obligations.MeasureAgreesWithEncode : Prop :=
  ∀ (x : List Byte) (s s' t u : State), s.params = s'.params → s.enc = s'.enc → s.flags.wovf = false →
    runCommands (x.map Instr.encSym) s = .next t → t.flags.wovf = false → runCommands (x.map Instr.measSym) s' = .next u →
    t.enc = u.enc ∧ readReg .eBytes t = readReg .eBytes u

/-- R177: what ENC.SYM writes and where depends only on the symbol, the encoder registers, the writer cursor and the parameters. -/
def Obligations.EncoderOutputIsPure : Prop :=
  ∀ (c : Byte) (s u t : State), s.params = u.params → s.enc = u.enc → s.writer = u.writer → exec (.encSym c) s = .next t →
    ∃ w l, exec (.encSym c) u = .next w ∧ w.writer = t.writer ∧ w.enc = t.enc ∧ t.port = s.port ++ l ∧ w.port = u.port ++ l

/-- R100: the length of a stream, `ceil8(6*(k-L) + 9*L)`. -/
def Obligations.StreamLengthCountsLongCodes : Prop :=
  ∀ (xlat : Bool) (x : List Byte),
    streamBytes xlat x = (6 * (x.length - longCount xlat x) + 9 * longCount xlat x + 7) / 8 ∧ longCount xlat x ≤ x.length ∧
    (streamBits xlat x).length = streamWidth xlat x

/-! ## DecodingSequence -/

/-- R191, R190: DEC.INIT seeds the decoder, keeps R_ADDR, R_LEN and D_REM, and decodes the first symbol exactly if D_REM is not 0. -/
def Obligations.DecInitDecodesFirstSymbol : Prop :=
  ∀ s : State, usableView s.params s.readerView →
    exec .decInit s = .next
      (if s.dec.rem = 0#32 then
        { s with reader := { s.reader with acc := 0#16, cnt := 0#5 }, dec := { s.dec with prev := 0x41#8 } }
       else
        decoded { s with reader := { s.reader with acc := 0#16, cnt := 0#5 }, dec := { s.dec with prev := 0x41#8 } })

/-- R192, R190, R234: DEC.NEXT at D_REM = 0 sets DEND and changes nothing else; else it decrements D_REM and decodes the next symbol exactly if
D_REM is still not 0. -/
def Obligations.DecNextAdvancesTheSequence : Prop :=
  ∀ s : State, usableView s.params s.readerView →
    exec .decNext s = .next
      (if s.dec.rem.toNat = 0 then { s with flags := { s.flags with dend := true } }
       else if s.dec.rem.toNat = 1 then { s with dec := { s.dec with rem := 0#32 } }
       else decoded { s with dec := { s.dec with rem := BitVec.ofNat 32 (s.dec.rem.toNat - 1) } })

/-- R194: from DEC.INIT with D_REM = k, after j DEC.NEXTs, j at most k, D_REM is k - j, and DONE reads 1 exactly when j = k. -/
def Obligations.SequenceEndsAfterExactlyItsCount : Prop :=
  ∀ (s t : State) (j : Nat), j ≤ s.dec.rem.toNat → runCommands (.decInit :: List.replicate j .decNext) s = .next t →
    t.dec.rem.toNat = s.dec.rem.toNat - j ∧ ((readReg .status t).getLsbD 8 = true ↔ j = s.dec.rem.toNat)

/-- R197, R219: SAVE.DEC reads the six decoder registers and changes nothing; RESTORE.DEC in any state of the same parameters puts them
back and changes nothing else. -/
def Obligations.RestoreBringsBackTheDecoder : Prop :=
  ∀ s u : State, s.Inv → u.params = s.params →
    ∃ d r, saveDecoder s = .next (d, { s with hostReads := r }) ∧
      runAccesses (restoreOps u.params d) u = .next { u with reader := s.reader, dec := s.dec }

/-- R44, R197: the future of the sequence depends only on the six decoder registers, the memory and the parameters: after any number of
DEC.NEXTs the decoder registers, D_OUT and the memory reads made are the same. -/
def Obligations.DecodingDependsOnlyOnSixRegisters : Prop :=
  ∀ (n : Nat) (s u t : State), s.params = u.params → s.mem = u.mem → s.reader = u.reader → s.dec = u.dec →
    runCommands (List.replicate n .decNext) s = .next t →
    ∃ w l, runCommands (List.replicate n .decNext) u = .next w ∧ w.reader = t.reader ∧ w.dec = t.dec ∧
      readReg .dOut w = readReg .dOut t ∧ t.port = s.port ++ l ∧ w.port = u.port ++ l

/-- R45, R77: a change to a byte that a command does not pull is not seen: the result depends only on the bytes the command reads. -/
def Obligations.UnpulledBytesAreNotSeen : Prop :=
  ∀ (i : Instr) (s u t : State), (i = .decInit ∨ i = .decNext ∨ ∃ n, i = .rent n) → s.params = u.params → s.reader = u.reader →
    s.dec = u.dec → exec i s = .next t →
    (∀ a, PortAccess.read a ∈ t.port.drop s.port.length → s.mem.read a = u.mem.read a) →
    ∃ w, exec i u = .next w ∧ w.reader = t.reader ∧ w.dec = t.dec ∧
      w.port.drop u.port.length = t.port.drop s.port.length

/-! ## Errors -/

/-- R27, R230, R236: no command clears an error bit; a legal command sets only a bit it may raise, and of the bits that were clear at most
one. -/
def Obligations.ErrorsAreStickyAndAtMostOne : Prop :=
  ∀ (i : Instr) (s t : State), i.wellFormed = true → exec i s = .next t →
    (∀ e, s.flags.get e = true → t.flags.get e = true) ∧
    (∀ e, t.flags.get e = true → s.flags.get e = false → e ∈ mayRaise i) ∧
    (∀ e e', t.flags.get e = true → s.flags.get e = false → t.flags.get e' = true → s.flags.get e' = false → e = e')

/-- R238: a command word, legal or not, that newly raises ILL, WOVF or DEND has had no effect other than the flag. -/
def Obligations.RaisingIllWovfOrDendChangesNothingElse : Prop :=
  ∀ (w : Word) (s t : State) (e : Err), e ≠ .runder → executeCommand w s = .next t → s.flags.get e = false → t.flags.get e = true →
    t = { s with flags := s.flags.set e }

/-- R115, R28: every command word but those of XLAT and RENT, legal or not, leaves RESULT unchanged. -/
def Obligations.OnlyXlatAndRentWriteResult : Prop :=
  ∀ (w : Word) (s t : State), executeCommand w s = .next t →
    (∀ b, decode w ≠ .ok (.xlat b)) → (∀ n, decode w ≠ .ok (.rent n)) → t.result = s.result

/-! ## The memory port, stops, completion -/

/-- R62, R71, R196: every access of a command is inside the view it goes through, reads inside the reader view and ORs, with a nonzero
mask, inside the writer view; the commands R62 does not list make none. -/
def Obligations.AccessesStayInsideTheirViews : Prop :=
  ∀ (i : Instr) (s t : State), exec i s = .next t → ∃ l, t.port = s.port ++ l ∧ (accessesMemory i = false → l = []) ∧
    (∀ a, PortAccess.read a ∈ l → s.readerView.covers s.params.space a = true) ∧
    (∀ a m, PortAccess.orByte a m ∈ l → s.writerView.covers s.params.space a = true ∧ m ≠ 0#8)

/-- R276: a command makes at most three accesses; a RENT, DEC.INIT, DEC.NEXT or ENC.SYM at most two. -/
def Obligations.AccessCountsAreBounded : Prop :=
  ∀ (i : Instr) (s t : State), exec i s = .next t →
    t.port.length ≤ s.port.length + 3 ∧ (writeForm i = none → t.port.length ≤ s.port.length + 2)

/-- R70, R67: a command faults only by an access of its own that is not admitted, inside one of the two views; it is refused only because
a view covers device memory. -/
def Obligations.CommandsStopOnlyOnMemory : Prop :=
  ∀ (i : Instr) (s : State),
    (∀ f, exec i s = .fault f → ∃ a, f = .memNotAdmitted a ∧ s.params.memAdmit a = false ∧
      (s.readerView.covers s.params.space a = true ∨ s.writerView.covers s.params.space a = true)) ∧
    (∀ r, exec i s = .refused r → r = .viewCoversDevice ∧
      (s.params.viewCoversDevice s.readerView = true ∨ s.params.viewCoversDevice s.writerView = true))

/-- R110, R70: a command always completes, unless a memory access is not admitted: where both views are admitted plain memory, every
command, legal or not, answers a next state. -/
def Obligations.EveryCommandCompletesOnUsableViews : Prop :=
  ∀ (w : Word) (s : State), usableView s.params s.readerView → usableView s.params s.writerView →
    ∃ t, executeCommand w s = .next t

/-- R67: the test for a view that covers device memory is right: it holds exactly if some address is both in the view and device memory. -/
def Obligations.DeviceViewTestIsExact : Prop :=
  ∀ (p : Params) (v : View), p.viewCoversDevice v = true ↔ ∃ a, v.covers p.space a = true ∧ p.isDevice a = true

/-- Two memories in the canonical form that read alike are the same list (the model's representation, log 4). -/
def Obligations.CanonicalMemoriesReadingAlikeAreEqual : Prop :=
  ∀ m m' : Memory, m.wf = true → m'.wf = true → (∀ a, m.read a = m'.read a) → m = m'

/-! ## The invariant, and whole strings -/

/-- Every step, whatever the host does, keeps the invariant: address registers below 2^P_AW, R_CNT at most 16, memory canonical and inside the
address space (10_state.md R29, R32, R35; 20_memory.md R60). -/
def Obligations.StepKeepsInvariant : Prop := ∀ s t : State, s.Inv → step s = .next t → t.Inv

/-- The invariant, the reader invariant and the absence of errors hold right after reset. -/
def Obligations.ResetSatisfiesInvariant : Prop := State.reset.Inv ∧ State.reset.ReaderInv ∧ State.reset.Clean

/-- R210: MEASURE returns the byte length of the string's stream, for any string whose code bits E_BITS can count, and changes nothing but
the encoder registers. -/
def Obligations.MeasureReturnsStreamLength : Prop :=
  ∀ (x : List Byte) (s : State), streamWidth s.params.xlat x < 2 ^ 32 →
    ∃ t, measure x s = .next (BitVec.ofNat 32 (streamBytes s.params.xlat x), t) ∧
      t = { s with enc := t.enc, hostReads := t.hostReads }

/-- R95, R99, R176, R211: ENCODE into a zeroed, usable view that is large enough returns the stream's byte length, leaves the string's stream in
the buffer with zero padding, changes no other byte, records no error, and leaves the cursor after the last code. -/
def Obligations.EncodeWritesTheStream : Prop :=
  ∀ (x : List Byte) (a len : Word) (s : State), streamWidth s.params.xlat x < 2 ^ 32 → streamBytes s.params.xlat x ≤ len.toNat →
    streamBytes s.params.xlat x ≤ s.params.space → usableView s.params { start := a.toNat, len := len.toNat } →
    (∀ i, i < streamBytes s.params.xlat x → s.mem.read ((a.toNat + i) % s.params.space) = 0#8) →
    ∃ t, encodeString x a len s = .next (BitVec.ofNat 32 (streamBytes s.params.xlat x), t) ∧
      HoldsStream s.params.xlat x t.mem s.params.space a.toNat ∧
      (∀ k, streamWidth s.params.xlat x ≤ k → k < 8 * streamBytes s.params.xlat x →
        bufferBit t.mem s.params.space a.toNat k = false) ∧
      (∀ b, (∀ i, i < streamBytes s.params.xlat x → b ≠ (a.toNat + i) % s.params.space) → t.mem.read b = s.mem.read b) ∧
      t.flags = s.flags ∧
      t.writer.addr.toNat = (a.toNat + streamWidth s.params.xlat x / 8) % s.params.space ∧
      t.writer.off.toNat = streamWidth s.params.xlat x % 8

/-- R195 in terms of what memory holds: DECODE of a view that holds a string's stream, with the string's count, yields exactly the string, with
no error and no change of memory; a final long code that ends in the view's last byte included. -/
def Obligations.DecodeRecoversTheString : Prop :=
  ∀ (x : List Byte) (a len : Word) (s : State), x.length < 2 ^ 32 → streamBytes s.params.xlat x ≤ len.toNat →
    usableView s.params { start := a.toNat, len := len.toNat } → HoldsStream s.params.xlat x s.mem s.params.space a.toNat →
    ∃ t, decodeString a len (BitVec.ofNat 32 x.length) s = .next (x, t) ∧ t.flags = s.flags ∧ t.mem = s.mem ∧ t.dec.rem = 0#32

/-- R214: the round trip, for every byte string whose count D_REM can hold: ENCODE into a zeroed view that is large enough records no error,
and from any later state in which the encoded bytes are unchanged, DECODE of any view of at least the encoded size with the string's count
yields the string and records no error. The size is what ENCODE returns, for every string whose code bits E_BITS can count (R211). -/
def Obligations.EncodeThenDecodeRoundTrips : Prop :=
  ∀ (x : List Byte) (a len : Word) (s : State), x.length < 2 ^ 32 →
    streamBytes s.params.xlat x ≤ len.toNat → streamBytes s.params.xlat x ≤ s.params.space →
    usableView s.params { start := a.toNat, len := len.toNat } →
    (∀ i, i < streamBytes s.params.xlat x → s.mem.read ((a.toNat + i) % s.params.space) = 0#8) →
    ∃ n t, encodeString x a len s = .next (n, t) ∧ t.flags = s.flags ∧
      (streamWidth s.params.xlat x < 2 ^ 32 → n.toNat = streamBytes s.params.xlat x) ∧
      ∀ (u : State) (len' : Word), u.params = s.params →
        (∀ i, i < streamBytes s.params.xlat x →
          u.mem.read ((a.toNat + i) % s.params.space) = t.mem.read ((a.toNat + i) % s.params.space)) →
        streamBytes s.params.xlat x ≤ len'.toNat → usableView s.params { start := a.toNat, len := len'.toNat } →
        ∃ w, decodeString a len' (BitVec.ofNat 32 x.length) u = .next (x, w) ∧ w.flags = u.flags

/-- R213: MEASURE and ENCODE return the same number, and the bytes that can change are the first that many of the view. -/
def Obligations.MeasureAndEncodeReturnTheSameSize : Prop :=
  ∀ (x : List Byte) (a len m : Word) (s t : State), streamWidth s.params.xlat x < 2 ^ 32 → measure x s = .next (m, t) →
    m.toNat ≤ len.toNat → m.toNat ≤ s.params.space → usableView s.params { start := a.toNat, len := len.toNat } →
    (∀ i, i < m.toNat → s.mem.read ((a.toNat + i) % s.params.space) = 0#8) →
    ∃ u, encodeString x a len s = .next (m, u) ∧ u.flags = s.flags ∧
      (∀ b, (∀ i, i < m.toNat → b ≠ (a.toNat + i) % s.params.space) → u.mem.read b = s.mem.read b)

/-- R215, R216: what the size-selecting wrapper stores is never larger than the string, the count is kept beside it in both forms, and the
artifact is the stream exactly if the stream is strictly smaller (for every string whose code bits E_BITS can count), else the string. -/
def Obligations.WrapperNeverStoresMore : Prop :=
  ∀ (x : List Byte) (a : Word) (s t : State) (f : Stored), wrapString x a s = .next (f, t) →
    f.count = x.length ∧ f.size ≤ x.length ∧ (∀ bytes, f.artifact = .compressed bytes → f.size < x.length) ∧
    (∀ y, f.artifact = .raw y → y = x) ∧
    (streamWidth s.params.xlat x < 2 ^ 32 →
      ((∃ bytes, f.artifact = .compressed bytes) ↔ streamBytes s.params.xlat x < x.length) ∧
      ∀ bytes, f.artifact = .compressed bytes → bytes.length = streamBytes s.params.xlat x)

/-- R220: both stored forms expose the string's length and a sequence that yields the string, with no error; a compressed artifact is read
where the wrapper left it. The string's code bits fit E_BITS (log 16) and its stream fits the memory. -/
def Obligations.StoredFormReadsBackTheString : Prop :=
  ∀ (x : List Byte) (a : Word) (s t : State) (f : Stored), s.Inv → streamWidth s.params.xlat x < 2 ^ 32 →
    streamBytes s.params.xlat x ≤ s.params.space → usableView s.params { start := a.toNat, len := streamBytes s.params.xlat x } →
    wrapString x a s = .next (f, t) →
    f.length = x.length ∧ ∃ u, readStored a f t = .next (x, u) ∧ u.flags = s.flags

/-! ## Where a command stops -/

/-- R70, for every command: a command makes the accesses its rule asks for, in order; if the platform does not admit one of them the command
is stuck at the first such, and if it admits them all the command completes, having made exactly those. -/
def Obligations.UnadmittedAccessLeavesCommandStuck : Prop :=
  ∀ (i : Instr) (s : State), i.wellFormed = true →
    (plannedAccesses i s = [] ∨ s.params.viewCoversDevice (accessView i s) = false) →
    (∀ a, (plannedAccesses i s).find? (fun b => !s.params.memAdmit b.addr) = some a → exec i s = .fault (.memNotAdmitted a.addr)) ∧
    ((∀ b ∈ plannedAccesses i s, s.params.memAdmit b.addr = true) →
      ∃ t, exec i s = .next t ∧ t.port = s.port ++ plannedAccesses i s)

/-- R67: a command that is to make an access through a view that covers device memory is refused. That it is refused at its first access, and
before the admission of that access is looked at, is the model's reading (log 6). -/
def Obligations.DeviceViewIsRefused : Prop :=
  ∀ (i : Instr) (s : State), i.wellFormed = true → plannedAccesses i s ≠ [] → s.params.viewCoversDevice (accessView i s) = true →
    exec i s = .refused .viewCoversDevice
end

