-- ==== Sys2Proof/Laws/Decode.lean ====
section
/-! SUPPORT. The opcode map (30_encoding.md R83, R84): no two opcodes share an OP value, and no word selects two rows. -/

namespace Sys2Proof

@[simp] theorem Opcode.ofByte_byte (op : Opcode) : Opcode.ofByte op.byte = some op := by cases op <;> rfl

theorem Opcode.byte_of_ofByte {b : Byte} {op : Opcode} (h : Opcode.ofByte b = some op) : op.byte = b := by
  have := List.find?_some h
  simpa using this

theorem Opcode.mem_all (op : Opcode) : op ∈ Opcode.all := by cases op <;> decide

/-- Two different rows disagree on a bit that both fix, so no word selects both. -/
theorem rows_pairwise_disjoint :
    Opcode.all.Pairwise (fun a b => a.matchBits &&& (a.mask &&& b.mask) ≠ b.matchBits &&& (a.mask &&& b.mask)) := by
  decide

/-- The decoder answers a command only where OP is defined, the fixed fields are right and N is in range (R85). -/
theorem decode_eq_ok {w : Word} {i : Instr} (h : decode w = .ok i) :
    ∃ op, Opcode.ofByte (opField w) = some op ∧ w &&& op.mask = op.matchBits ∧ (nField w).toNat ≤ op.nMax ∧ i = op.build w := by
  unfold decode at h
  split at h
  · cases h
  · rename_i op hop
    split at h
    · cases h
    · rename_i hm
      split at h
      · cases h
      · rename_i hn
        cases h
        exact ⟨op, hop, by simpa using hm, by omega, rfl⟩

theorem decode_of_selects {w : Word} {op : Opcode} (ho : Opcode.ofByte (opField w) = some op) (hm : w &&& op.mask = op.matchBits)
    (hn : (nField w).toNat ≤ op.nMax) : decode w = .ok (op.build w) := by
  unfold decode
  rw [ho]
  simp only [hm, ne_eq, not_true_eq_false, if_false]
  rw [if_neg (by omega)]

end Sys2Proof
end

