-- ==== Sys2Proof/Laws/Memory.lean ====
section
/-! SUPPORT. The laws of buffer memory: read after write, the canonical form, and which addresses are listed. -/

namespace Sys2Proof.Machine.Memory

@[simp] theorem read_nil (a : Nat) : Memory.read [] a = Memory.unlisted := rfl

/-- A write leaves every other address as it was, in any list. -/
theorem read_write_of_ne (m : Memory) {a b : Nat} (v : Byte) (h : b ≠ a) : (m.write a v).read b = m.read b := by
  induction m with
  | nil =>
    unfold write
    split
    · rfl
    · simp [read, Ne.symm h]
  | cons c rest ih =>
    obtain ⟨k, x⟩ := c
    unfold write
    split
    · split
      · rfl
      · simp [read, Ne.symm h]
    · split
      · rename_i hak
        subst hak
        split <;> simp [read, Ne.symm h]
      · simp [read, ih]

theorem wfFrom_mono {m : Memory} {lo hi : Nat} (h : lo ≤ hi) (hm : wfFrom hi m = true) : wfFrom lo m = true := by
  cases m with
  | nil => rfl
  | cons c rest =>
    obtain ⟨k, x⟩ := c
    simp only [wfFrom, Bool.and_eq_true, decide_eq_true_eq] at hm ⊢
    exact ⟨⟨by omega, hm.1.2⟩, hm.2⟩

/-- An address below every entry reads as unlisted. -/
theorem read_of_wfFrom {m : Memory} {lo a : Nat} (hm : wfFrom lo m = true) (h : a < lo) : m.read a = unlisted := by
  induction m generalizing lo with
  | nil => rfl
  | cons c rest ih =>
    obtain ⟨k, x⟩ := c
    simp only [wfFrom, Bool.and_eq_true, decide_eq_true_eq] at hm
    have hne : k ≠ a := by omega
    simp only [read, if_neg hne]
    exact ih hm.2 (by omega)

/-- Read after write, in the canonical form. -/
theorem read_write_self_of_wfFrom {m : Memory} {lo : Nat} (hm : wfFrom lo m = true) (a : Nat) (v : Byte) :
    (m.write a v).read a = v := by
  induction m generalizing lo with
  | nil =>
    unfold write
    split
    · rename_i h
      simp [h]
    · simp [read]
  | cons c rest ih =>
    obtain ⟨k, x⟩ := c
    have hw := hm
    simp only [wfFrom, Bool.and_eq_true, decide_eq_true_eq] at hm
    unfold write
    split
    · rename_i hak
      split
      · rename_i hv
        rw [hv, read_of_wfFrom (lo := k) _ hak]
        simp only [wfFrom, Bool.and_eq_true, decide_eq_true_eq]
        exact ⟨⟨le_refl k, hm.1.2⟩, hm.2⟩
      · simp [read]
    · split
      · rename_i hak
        subst hak
        split
        · rename_i hv
          rw [hv, read_of_wfFrom hm.2 (by omega)]
        · simp [read]
      · rename_i h1 h2
        simp only [read, if_neg (Ne.symm h2)]
        exact ih hm.2

theorem read_write_self {m : Memory} (hm : m.wf = true) (a : Nat) (v : Byte) : (m.write a v).read a = v :=
  read_write_self_of_wfFrom hm a v

/-- Read after a write of a byte other than what unlisted addresses read as needs no canonical form. -/
theorem read_write_self_of_ne (m : Memory) (a : Nat) {v : Byte} (hv : v ≠ unlisted) : (m.write a v).read a = v := by
  induction m with
  | nil => simp [write, hv, read]
  | cons c rest ih =>
    obtain ⟨k, x⟩ := c
    unfold write
    split
    · simp [read]
    · split
      · rename_i hak
        simp [read, hak]
      · rename_i h1 h2
        simp only [read, if_neg (Ne.symm h2)]
        exact ih

/-- A write keeps the canonical form. -/
theorem wfFrom_write {m : Memory} {lo : Nat} (hm : wfFrom lo m = true) {a : Nat} (ha : lo ≤ a) (v : Byte) :
    wfFrom lo (m.write a v) = true := by
  induction m generalizing lo with
  | nil =>
    unfold write
    split
    · rfl
    · rename_i hv
      simp [wfFrom, ha, hv]
  | cons c rest ih =>
    obtain ⟨k, x⟩ := c
    have hw := hm
    simp only [wfFrom, Bool.and_eq_true, decide_eq_true_eq] at hm
    unfold write
    split
    · rename_i hak
      split
      · exact hw
      · rename_i hv
        simp only [wfFrom, Bool.and_eq_true, decide_eq_true_eq]
        exact ⟨⟨ha, hv⟩, ⟨hak, hm.1.2⟩, hm.2⟩
    · split
      · rename_i hak
        subst hak
        split
        · exact wfFrom_mono (by omega) hm.2
        · rename_i hv
          simp only [wfFrom, Bool.and_eq_true, decide_eq_true_eq]
          exact ⟨⟨hm.1.1, hv⟩, hm.2⟩
      · simp only [wfFrom, Bool.and_eq_true, decide_eq_true_eq]
        exact ⟨hm.1, ih hm.2 (by omega)⟩

theorem wf_write {m : Memory} (hm : m.wf = true) (a : Nat) (v : Byte) : (m.write a v).wf = true :=
  wfFrom_write hm (Nat.zero_le a) v

/-- A write at an address that exists keeps every listed address one that exists. -/
theorem below_write {m : Memory} {space : Nat} (hm : m.below space = true) {a : Nat} (ha : a < space) (v : Byte) :
    (m.write a v).below space = true := by
  unfold below at hm ⊢
  induction m with
  | nil =>
    unfold write
    split
    · rfl
    · simp [ha]
  | cons c rest ih =>
    obtain ⟨k, x⟩ := c
    simp only [List.all_cons, Bool.and_eq_true, decide_eq_true_eq] at hm
    unfold write
    split
    · split <;> simp only [List.all_cons, Bool.and_eq_true, decide_eq_true_eq]
      · exact hm
      · exact ⟨ha, hm⟩
    · split
      · split
        · exact hm.2
        · simp only [List.all_cons, Bool.and_eq_true, decide_eq_true_eq]
          exact hm
      · simp only [List.all_cons, Bool.and_eq_true, decide_eq_true_eq]
        exact ⟨hm.1, ih hm.2⟩

/-- OR-ing a nonzero mask into a byte reads back as the OR, in any list. -/
theorem read_write_or_self (m : Memory) (a : Nat) {x v : Byte} (hv : v ≠ 0#8) : (m.write a (x ||| v)).read a = x ||| v := by
  apply read_write_self_of_ne
  intro h
  exact hv (BitVec.or_eq_zero_iff.mp h).2

end Sys2Proof.Machine.Memory
end

