-- ==== Sys2Proof/Laws/State.lean ====
section
/-! SUPPORT. One lemma per field per state update, true by rfl, so that no later proof unfolds an update. -/

namespace Sys2Proof.Machine

variable (s : State)

@[simp] theorem State.setFlags_params (f : ErrorFlags) : (s.setFlags f).params = s.params := rfl
@[simp] theorem State.setFlags_flags (f : ErrorFlags) : (s.setFlags f).flags = f := rfl
@[simp] theorem State.setFlags_result (f : ErrorFlags) : (s.setFlags f).result = s.result := rfl
@[simp] theorem State.setFlags_writer (f : ErrorFlags) : (s.setFlags f).writer = s.writer := rfl
@[simp] theorem State.setFlags_reader (f : ErrorFlags) : (s.setFlags f).reader = s.reader := rfl
@[simp] theorem State.setFlags_enc (f : ErrorFlags) : (s.setFlags f).enc = s.enc := rfl
@[simp] theorem State.setFlags_dec (f : ErrorFlags) : (s.setFlags f).dec = s.dec := rfl
@[simp] theorem State.setFlags_mem (f : ErrorFlags) : (s.setFlags f).mem = s.mem := rfl
@[simp] theorem State.setFlags_port (f : ErrorFlags) : (s.setFlags f).port = s.port := rfl
@[simp] theorem State.setFlags_hostQueue (f : ErrorFlags) : (s.setFlags f).hostQueue = s.hostQueue := rfl
@[simp] theorem State.setFlags_hostReads (f : ErrorFlags) : (s.setFlags f).hostReads = s.hostReads := rfl

@[simp] theorem State.setResult_params (r : BitVec 21) : (s.setResult r).params = s.params := rfl
@[simp] theorem State.setResult_flags (r : BitVec 21) : (s.setResult r).flags = s.flags := rfl
@[simp] theorem State.setResult_result (r : BitVec 21) : (s.setResult r).result = r := rfl
@[simp] theorem State.setResult_writer (r : BitVec 21) : (s.setResult r).writer = s.writer := rfl
@[simp] theorem State.setResult_reader (r : BitVec 21) : (s.setResult r).reader = s.reader := rfl
@[simp] theorem State.setResult_enc (r : BitVec 21) : (s.setResult r).enc = s.enc := rfl
@[simp] theorem State.setResult_dec (r : BitVec 21) : (s.setResult r).dec = s.dec := rfl
@[simp] theorem State.setResult_mem (r : BitVec 21) : (s.setResult r).mem = s.mem := rfl
@[simp] theorem State.setResult_port (r : BitVec 21) : (s.setResult r).port = s.port := rfl
@[simp] theorem State.setResult_hostQueue (r : BitVec 21) : (s.setResult r).hostQueue = s.hostQueue := rfl
@[simp] theorem State.setResult_hostReads (r : BitVec 21) : (s.setResult r).hostReads = s.hostReads := rfl

@[simp] theorem State.setWriter_params (w : WriterCursor) : (s.setWriter w).params = s.params := rfl
@[simp] theorem State.setWriter_flags (w : WriterCursor) : (s.setWriter w).flags = s.flags := rfl
@[simp] theorem State.setWriter_result (w : WriterCursor) : (s.setWriter w).result = s.result := rfl
@[simp] theorem State.setWriter_writer (w : WriterCursor) : (s.setWriter w).writer = w := rfl
@[simp] theorem State.setWriter_reader (w : WriterCursor) : (s.setWriter w).reader = s.reader := rfl
@[simp] theorem State.setWriter_enc (w : WriterCursor) : (s.setWriter w).enc = s.enc := rfl
@[simp] theorem State.setWriter_dec (w : WriterCursor) : (s.setWriter w).dec = s.dec := rfl
@[simp] theorem State.setWriter_mem (w : WriterCursor) : (s.setWriter w).mem = s.mem := rfl
@[simp] theorem State.setWriter_port (w : WriterCursor) : (s.setWriter w).port = s.port := rfl
@[simp] theorem State.setWriter_hostQueue (w : WriterCursor) : (s.setWriter w).hostQueue = s.hostQueue := rfl
@[simp] theorem State.setWriter_hostReads (w : WriterCursor) : (s.setWriter w).hostReads = s.hostReads := rfl

@[simp] theorem State.setReader_params (r : ReaderCursor) : (s.setReader r).params = s.params := rfl
@[simp] theorem State.setReader_flags (r : ReaderCursor) : (s.setReader r).flags = s.flags := rfl
@[simp] theorem State.setReader_result (r : ReaderCursor) : (s.setReader r).result = s.result := rfl
@[simp] theorem State.setReader_writer (r : ReaderCursor) : (s.setReader r).writer = s.writer := rfl
@[simp] theorem State.setReader_reader (r : ReaderCursor) : (s.setReader r).reader = r := rfl
@[simp] theorem State.setReader_enc (r : ReaderCursor) : (s.setReader r).enc = s.enc := rfl
@[simp] theorem State.setReader_dec (r : ReaderCursor) : (s.setReader r).dec = s.dec := rfl
@[simp] theorem State.setReader_mem (r : ReaderCursor) : (s.setReader r).mem = s.mem := rfl
@[simp] theorem State.setReader_port (r : ReaderCursor) : (s.setReader r).port = s.port := rfl
@[simp] theorem State.setReader_hostQueue (r : ReaderCursor) : (s.setReader r).hostQueue = s.hostQueue := rfl
@[simp] theorem State.setReader_hostReads (r : ReaderCursor) : (s.setReader r).hostReads = s.hostReads := rfl

@[simp] theorem State.setEnc_params (e : EncoderRegs) : (s.setEnc e).params = s.params := rfl
@[simp] theorem State.setEnc_flags (e : EncoderRegs) : (s.setEnc e).flags = s.flags := rfl
@[simp] theorem State.setEnc_result (e : EncoderRegs) : (s.setEnc e).result = s.result := rfl
@[simp] theorem State.setEnc_writer (e : EncoderRegs) : (s.setEnc e).writer = s.writer := rfl
@[simp] theorem State.setEnc_reader (e : EncoderRegs) : (s.setEnc e).reader = s.reader := rfl
@[simp] theorem State.setEnc_enc (e : EncoderRegs) : (s.setEnc e).enc = e := rfl
@[simp] theorem State.setEnc_dec (e : EncoderRegs) : (s.setEnc e).dec = s.dec := rfl
@[simp] theorem State.setEnc_mem (e : EncoderRegs) : (s.setEnc e).mem = s.mem := rfl
@[simp] theorem State.setEnc_port (e : EncoderRegs) : (s.setEnc e).port = s.port := rfl
@[simp] theorem State.setEnc_hostQueue (e : EncoderRegs) : (s.setEnc e).hostQueue = s.hostQueue := rfl
@[simp] theorem State.setEnc_hostReads (e : EncoderRegs) : (s.setEnc e).hostReads = s.hostReads := rfl

@[simp] theorem State.setDec_params (d : DecoderRegs) : (s.setDec d).params = s.params := rfl
@[simp] theorem State.setDec_flags (d : DecoderRegs) : (s.setDec d).flags = s.flags := rfl
@[simp] theorem State.setDec_result (d : DecoderRegs) : (s.setDec d).result = s.result := rfl
@[simp] theorem State.setDec_writer (d : DecoderRegs) : (s.setDec d).writer = s.writer := rfl
@[simp] theorem State.setDec_reader (d : DecoderRegs) : (s.setDec d).reader = s.reader := rfl
@[simp] theorem State.setDec_enc (d : DecoderRegs) : (s.setDec d).enc = s.enc := rfl
@[simp] theorem State.setDec_dec (d : DecoderRegs) : (s.setDec d).dec = d := rfl
@[simp] theorem State.setDec_mem (d : DecoderRegs) : (s.setDec d).mem = s.mem := rfl
@[simp] theorem State.setDec_port (d : DecoderRegs) : (s.setDec d).port = s.port := rfl
@[simp] theorem State.setDec_hostQueue (d : DecoderRegs) : (s.setDec d).hostQueue = s.hostQueue := rfl
@[simp] theorem State.setDec_hostReads (d : DecoderRegs) : (s.setDec d).hostReads = s.hostReads := rfl

@[simp] theorem State.setMem_params (m : Memory) : (s.setMem m).params = s.params := rfl
@[simp] theorem State.setMem_flags (m : Memory) : (s.setMem m).flags = s.flags := rfl
@[simp] theorem State.setMem_result (m : Memory) : (s.setMem m).result = s.result := rfl
@[simp] theorem State.setMem_writer (m : Memory) : (s.setMem m).writer = s.writer := rfl
@[simp] theorem State.setMem_reader (m : Memory) : (s.setMem m).reader = s.reader := rfl
@[simp] theorem State.setMem_enc (m : Memory) : (s.setMem m).enc = s.enc := rfl
@[simp] theorem State.setMem_dec (m : Memory) : (s.setMem m).dec = s.dec := rfl
@[simp] theorem State.setMem_mem (m : Memory) : (s.setMem m).mem = m := rfl
@[simp] theorem State.setMem_port (m : Memory) : (s.setMem m).port = s.port := rfl
@[simp] theorem State.setMem_hostQueue (m : Memory) : (s.setMem m).hostQueue = s.hostQueue := rfl
@[simp] theorem State.setMem_hostReads (m : Memory) : (s.setMem m).hostReads = s.hostReads := rfl

@[simp] theorem State.logPort_params (a : PortAccess) : (s.logPort a).params = s.params := rfl
@[simp] theorem State.logPort_flags (a : PortAccess) : (s.logPort a).flags = s.flags := rfl
@[simp] theorem State.logPort_result (a : PortAccess) : (s.logPort a).result = s.result := rfl
@[simp] theorem State.logPort_writer (a : PortAccess) : (s.logPort a).writer = s.writer := rfl
@[simp] theorem State.logPort_reader (a : PortAccess) : (s.logPort a).reader = s.reader := rfl
@[simp] theorem State.logPort_enc (a : PortAccess) : (s.logPort a).enc = s.enc := rfl
@[simp] theorem State.logPort_dec (a : PortAccess) : (s.logPort a).dec = s.dec := rfl
@[simp] theorem State.logPort_mem (a : PortAccess) : (s.logPort a).mem = s.mem := rfl
@[simp] theorem State.logPort_port (a : PortAccess) : (s.logPort a).port = s.port ++ [a] := rfl
@[simp] theorem State.logPort_hostQueue (a : PortAccess) : (s.logPort a).hostQueue = s.hostQueue := rfl
@[simp] theorem State.logPort_hostReads (a : PortAccess) : (s.logPort a).hostReads = s.hostReads := rfl

@[simp] theorem State.setQueue_params (q : List HostOp) : (s.setQueue q).params = s.params := rfl
@[simp] theorem State.setQueue_flags (q : List HostOp) : (s.setQueue q).flags = s.flags := rfl
@[simp] theorem State.setQueue_result (q : List HostOp) : (s.setQueue q).result = s.result := rfl
@[simp] theorem State.setQueue_writer (q : List HostOp) : (s.setQueue q).writer = s.writer := rfl
@[simp] theorem State.setQueue_reader (q : List HostOp) : (s.setQueue q).reader = s.reader := rfl
@[simp] theorem State.setQueue_enc (q : List HostOp) : (s.setQueue q).enc = s.enc := rfl
@[simp] theorem State.setQueue_dec (q : List HostOp) : (s.setQueue q).dec = s.dec := rfl
@[simp] theorem State.setQueue_mem (q : List HostOp) : (s.setQueue q).mem = s.mem := rfl
@[simp] theorem State.setQueue_port (q : List HostOp) : (s.setQueue q).port = s.port := rfl
@[simp] theorem State.setQueue_hostQueue (q : List HostOp) : (s.setQueue q).hostQueue = q := rfl
@[simp] theorem State.setQueue_hostReads (q : List HostOp) : (s.setQueue q).hostReads = s.hostReads := rfl

@[simp] theorem State.logRead_params (v : Word) : (s.logRead v).params = s.params := rfl
@[simp] theorem State.logRead_flags (v : Word) : (s.logRead v).flags = s.flags := rfl
@[simp] theorem State.logRead_result (v : Word) : (s.logRead v).result = s.result := rfl
@[simp] theorem State.logRead_writer (v : Word) : (s.logRead v).writer = s.writer := rfl
@[simp] theorem State.logRead_reader (v : Word) : (s.logRead v).reader = s.reader := rfl
@[simp] theorem State.logRead_enc (v : Word) : (s.logRead v).enc = s.enc := rfl
@[simp] theorem State.logRead_dec (v : Word) : (s.logRead v).dec = s.dec := rfl
@[simp] theorem State.logRead_mem (v : Word) : (s.logRead v).mem = s.mem := rfl
@[simp] theorem State.logRead_port (v : Word) : (s.logRead v).port = s.port := rfl
@[simp] theorem State.logRead_hostQueue (v : Word) : (s.logRead v).hostQueue = s.hostQueue := rfl
@[simp] theorem State.logRead_hostReads (v : Word) : (s.logRead v).hostReads = s.hostReads ++ [v] := rfl

@[simp] theorem raise_params (e : Err) : (raise e s).params = s.params := rfl
@[simp] theorem raise_flags (e : Err) : (raise e s).flags = s.flags.set e := rfl
@[simp] theorem raise_result (e : Err) : (raise e s).result = s.result := rfl
@[simp] theorem raise_writer (e : Err) : (raise e s).writer = s.writer := rfl
@[simp] theorem raise_reader (e : Err) : (raise e s).reader = s.reader := rfl
@[simp] theorem raise_enc (e : Err) : (raise e s).enc = s.enc := rfl
@[simp] theorem raise_dec (e : Err) : (raise e s).dec = s.dec := rfl
@[simp] theorem raise_mem (e : Err) : (raise e s).mem = s.mem := rfl
@[simp] theorem raise_port (e : Err) : (raise e s).port = s.port := rfl
@[simp] theorem raise_hostQueue (e : Err) : (raise e s).hostQueue = s.hostQueue := rfl
@[simp] theorem raise_hostReads (e : Err) : (raise e s).hostReads = s.hostReads := rfl

@[simp] theorem clearErrors_params (v : Word) : (clearErrors v s).params = s.params := rfl
@[simp] theorem clearErrors_flags (v : Word) : (clearErrors v s).flags = s.flags.clearWritten v := rfl
@[simp] theorem clearErrors_result (v : Word) : (clearErrors v s).result = s.result := rfl
@[simp] theorem clearErrors_writer (v : Word) : (clearErrors v s).writer = s.writer := rfl
@[simp] theorem clearErrors_reader (v : Word) : (clearErrors v s).reader = s.reader := rfl
@[simp] theorem clearErrors_enc (v : Word) : (clearErrors v s).enc = s.enc := rfl
@[simp] theorem clearErrors_dec (v : Word) : (clearErrors v s).dec = s.dec := rfl
@[simp] theorem clearErrors_mem (v : Word) : (clearErrors v s).mem = s.mem := rfl
@[simp] theorem clearErrors_port (v : Word) : (clearErrors v s).port = s.port := rfl
@[simp] theorem clearErrors_hostQueue (v : Word) : (clearErrors v s).hostQueue = s.hostQueue := rfl
@[simp] theorem clearErrors_hostReads (v : Word) : (clearErrors v s).hostReads = s.hostReads := rfl

@[simp] theorem resetRegisters_params : (resetRegisters s).params = s.params := rfl
@[simp] theorem resetRegisters_mem : (resetRegisters s).mem = s.mem := rfl
@[simp] theorem resetRegisters_port : (resetRegisters s).port = s.port := rfl
@[simp] theorem resetRegisters_hostQueue : (resetRegisters s).hostQueue = s.hostQueue := rfl
@[simp] theorem resetRegisters_hostReads : (resetRegisters s).hostReads = s.hostReads := rfl
@[simp] theorem resetRegisters_flags : (resetRegisters s).flags = ErrorFlags.clear := rfl
@[simp] theorem resetRegisters_result : (resetRegisters s).result = 0#21 := rfl
@[simp] theorem resetRegisters_writer : (resetRegisters s).writer = { addr := 0#32, len := 0#32, off := 0#3 } := rfl
@[simp] theorem resetRegisters_reader : (resetRegisters s).reader = { addr := 0#32, len := 0#32, acc := 0#16, cnt := 0#5 } := rfl
@[simp] theorem resetRegisters_enc : (resetRegisters s).enc = { prev := seed, bits := 0#32 } := rfl
@[simp] theorem resetRegisters_dec : (resetRegisters s).dec = { prev := seed, rem := 0#32 } := rfl

@[simp] theorem accountSymbol_params (c : Byte) (n : Nat) : (accountSymbol c n s).params = s.params := rfl
@[simp] theorem accountSymbol_flags (c : Byte) (n : Nat) : (accountSymbol c n s).flags = s.flags := rfl
@[simp] theorem accountSymbol_result (c : Byte) (n : Nat) : (accountSymbol c n s).result = s.result := rfl
@[simp] theorem accountSymbol_writer (c : Byte) (n : Nat) : (accountSymbol c n s).writer = s.writer := rfl
@[simp] theorem accountSymbol_reader (c : Byte) (n : Nat) : (accountSymbol c n s).reader = s.reader := rfl
@[simp] theorem accountSymbol_enc (c : Byte) (n : Nat) : (accountSymbol c n s).enc = { prev := translate s.params.xlat c, bits := s.enc.bits + BitVec.ofNat 32 n } := rfl
@[simp] theorem accountSymbol_dec (c : Byte) (n : Nat) : (accountSymbol c n s).dec = s.dec := rfl
@[simp] theorem accountSymbol_mem (c : Byte) (n : Nat) : (accountSymbol c n s).mem = s.mem := rfl
@[simp] theorem accountSymbol_port (c : Byte) (n : Nat) : (accountSymbol c n s).port = s.port := rfl
@[simp] theorem accountSymbol_hostQueue (c : Byte) (n : Nat) : (accountSymbol c n s).hostQueue = s.hostQueue := rfl
@[simp] theorem accountSymbol_hostReads (c : Byte) (n : Nat) : (accountSymbol c n s).hostReads = s.hostReads := rfl

@[simp] theorem applyDelta_params (d : Byte) : (applyDelta d s).params = s.params := rfl
@[simp] theorem applyDelta_flags (d : Byte) : (applyDelta d s).flags = s.flags := rfl
@[simp] theorem applyDelta_result (d : Byte) : (applyDelta d s).result = s.result := rfl
@[simp] theorem applyDelta_writer (d : Byte) : (applyDelta d s).writer = s.writer := rfl
@[simp] theorem applyDelta_reader (d : Byte) : (applyDelta d s).reader = s.reader := rfl
@[simp] theorem applyDelta_enc (d : Byte) : (applyDelta d s).enc = s.enc := rfl
@[simp] theorem applyDelta_dec (d : Byte) : (applyDelta d s).dec = { s.dec with prev := s.dec.prev ^^^ d } := rfl
@[simp] theorem applyDelta_mem (d : Byte) : (applyDelta d s).mem = s.mem := rfl
@[simp] theorem applyDelta_port (d : Byte) : (applyDelta d s).port = s.port := rfl
@[simp] theorem applyDelta_hostQueue (d : Byte) : (applyDelta d s).hostQueue = s.hostQueue := rfl
@[simp] theorem applyDelta_hostReads (d : Byte) : (applyDelta d s).hostReads = s.hostReads := rfl

/-! The four error bits: setting one, and what each reads as after. -/

@[simp] theorem ErrorFlags.get_set_self (f : ErrorFlags) (e : Err) : (f.set e).get e = true := by cases e <;> rfl

theorem ErrorFlags.get_set_of_ne (f : ErrorFlags) {e e' : Err} (h : e' ≠ e) : (f.set e).get e' = f.get e' := by
  cases e <;> cases e' <;> first | rfl | exact absurd rfl h

@[simp] theorem ErrorFlags.set_set (f : ErrorFlags) (e : Err) : (f.set e).set e = f.set e := by cases e <;> rfl

theorem ErrorFlags.get_of_get_set (f : ErrorFlags) (e e' : Err) (h : f.get e' = true) : (f.set e).get e' = true := by
  cases e <;> cases e' <;> first | rfl | exact h

theorem ErrorFlags.ext_get {f g : ErrorFlags} (h : ∀ e, f.get e = g.get e) : f = g := by
  have h0 := h .ill
  have h1 := h .wovf
  have h2 := h .runder
  have h3 := h .dend
  cases f
  cases g
  simp_all [ErrorFlags.get]

end Sys2Proof.Machine
end

