-- ==== Sys2Proof/Laws/Ops.lean ====
section
/-! SUPPORT. What each shared operation can do, said once: "if it answers next t, then …", and what it leaves alone. -/

namespace Sys2Proof.Machine

/-! ## Sequencing -/

@[simp] theorem chain_next {α β : Type} (a : α) (f : α → Host.Outcome β Fault Refusal) : chain (.next a) f = f a := rfl
@[simp] theorem chain_fault {α β : Type} (r : Fault) (f : α → Host.Outcome β Fault Refusal) : chain (.fault r) f = .fault r := rfl
@[simp] theorem chain_refused {α β : Type} (r : Refusal) (f : α → Host.Outcome β Fault Refusal) :
    chain (.refused r) f = .refused r := rfl

theorem chain_eq_next {α β : Type} {x : Host.Outcome α Fault Refusal} {f : α → Host.Outcome β Fault Refusal} {b : β}
    (h : chain x f = .next b) : ∃ a, x = .next a ∧ f a = .next b := by
  cases x with
  | next a => exact ⟨a, rfl, h⟩
  | fault r => cases h
  | refused r => cases h

theorem chain_eq_fault {α β : Type} {x : Host.Outcome α Fault Refusal} {f : α → Host.Outcome β Fault Refusal} {r : Fault}
    (h : chain x f = .fault r) : x = .fault r ∨ ∃ a, x = .next a ∧ f a = .fault r := by
  cases x with
  | next a => exact .inr ⟨a, rfl, h⟩
  | fault q => exact .inl (by simpa using h)
  | refused q => cases h

theorem chain_eq_refused {α β : Type} {x : Host.Outcome α Fault Refusal} {f : α → Host.Outcome β Fault Refusal} {r : Refusal}
    (h : chain x f = .refused r) : x = .refused r ∨ ∃ a, x = .next a ∧ f a = .refused r := by
  cases x with
  | next a => exact .inr ⟨a, rfl, h⟩
  | fault q => cases h
  | refused q => exact .inl (by simpa using h)

/-! ## The memory port -/

theorem accessByte_eq_next {v : View} {a : Nat} {s t u : State} (h : accessByte v a s t = .next u) :
    u = t ∧ s.params.viewCoversDevice v = false ∧ s.params.memAdmit a = true := by
  unfold accessByte at h
  split at h
  · cases h
  · rename_i hd
    split at h
    · rename_i ha
      exact ⟨by simpa using h.symm, by simpa using hd, ha⟩
    · cases h

theorem accessByte_next {v : View} {a : Nat} {s t : State} (hd : s.params.viewCoversDevice v = false)
    (ha : s.params.memAdmit a = true) : accessByte v a s t = .next t := by
  simp [accessByte, hd, ha]

theorem accessByte_refused {v : View} {a : Nat} {s t : State} (hd : s.params.viewCoversDevice v = true) :
    accessByte v a s t = .refused .viewCoversDevice := by
  simp [accessByte, hd]

theorem accessByte_fault {v : View} {a : Nat} {s t : State} (hd : s.params.viewCoversDevice v = false)
    (ha : s.params.memAdmit a = false) : accessByte v a s t = .fault (.memNotAdmitted a) := by
  simp [accessByte, hd, ha]

/-- The state after MemOr with a nonzero mask. -/
def State.afterOr (s : State) (a : Nat) (m : Byte) : State :=
  (s.setMem (s.mem.write a (s.mem.read a ||| m))).logPort (.orByte a m)

theorem orByte_eq_next {v : View} {a : Nat} {m : Byte} {s t : State} (h : orByte v a m s = .next t) :
    (m = 0#8 ∧ t = s) ∨ (m ≠ 0#8 ∧ t = s.afterOr a m) := by
  unfold orByte at h
  split at h
  · rename_i hm
    exact .inl ⟨hm, by simpa using h.symm⟩
  · rename_i hm
    exact .inr ⟨hm, (accessByte_eq_next h).1⟩

/-- Two states that agree on everything but buffer memory and the port's record. -/
structure SameButMem (s t : State) : Prop where
  params    : t.params = s.params
  flags     : t.flags = s.flags
  result    : t.result = s.result
  writer    : t.writer = s.writer
  reader    : t.reader = s.reader
  enc       : t.enc = s.enc
  dec       : t.dec = s.dec
  hostQueue : t.hostQueue = s.hostQueue
  hostReads : t.hostReads = s.hostReads

theorem SameButMem.refl (s : State) : SameButMem s s := ⟨rfl, rfl, rfl, rfl, rfl, rfl, rfl, rfl, rfl⟩

theorem SameButMem.trans {s t u : State} (h : SameButMem s t) (k : SameButMem t u) : SameButMem s u :=
  ⟨k.params.trans h.params, k.flags.trans h.flags, k.result.trans h.result, k.writer.trans h.writer,
   k.reader.trans h.reader, k.enc.trans h.enc, k.dec.trans h.dec, k.hostQueue.trans h.hostQueue,
   k.hostReads.trans h.hostReads⟩

theorem SameButMem.afterOr (s : State) (a : Nat) (m : Byte) : SameButMem s (s.afterOr a m) :=
  ⟨rfl, rfl, rfl, rfl, rfl, rfl, rfl, rfl, rfl⟩

/-- MemOr with a mask of 0 makes no access (R120). -/
@[simp] theorem orByte_zero (v : View) (a : Nat) (s : State) : orByte v a 0#8 s = .next s := rfl

/-- MemOr with a nonzero mask is one access of the port. -/
theorem orByte_of_ne {v : View} {a : Nat} {m : Byte} {s : State} (hm : m ≠ 0#8) :
    orByte v a m s = accessByte v a s (s.afterOr a m) := if_neg hm

/-- MemOr changes only memory and the port's record. -/
theorem orByte_frame {v : View} {a : Nat} {m : Byte} {s t : State} (h : orByte v a m s = .next t) : SameButMem s t := by
  rcases orByte_eq_next h with ⟨-, rfl⟩ | ⟨-, rfl⟩
  · exact SameButMem.refl _
  · exact SameButMem.afterOr s a m

/-- MemOr at `a`: the byte there is OR-ed with the mask, every other byte is as before. -/
theorem orByte_read {v : View} {a : Nat} {m : Byte} {s t : State} (h : orByte v a m s = .next t) (b : Nat) :
    t.mem.read b = if b = a then s.mem.read b ||| m else s.mem.read b := by
  rcases orByte_eq_next h with ⟨rfl, rfl⟩ | ⟨hm, rfl⟩
  · simp
  · split
    · rename_i hb
      subst hb
      exact Memory.read_write_or_self s.mem b hm
    · rename_i hb
      exact Memory.read_write_of_ne s.mem _ hb

theorem orByte_wf {v : View} {a : Nat} {m : Byte} {s t : State} (h : orByte v a m s = .next t) (hw : s.mem.wf = true) :
    t.mem.wf = true := by
  rcases orByte_eq_next h with ⟨-, rfl⟩ | ⟨-, rfl⟩
  · exact hw
  · exact Memory.wf_write hw a _

theorem orByte_below {v : View} {a space : Nat} {m : Byte} {s t : State} (h : orByte v a m s = .next t) (ha : a < space)
    (hw : s.mem.below space = true) : t.mem.below space = true := by
  rcases orByte_eq_next h with ⟨-, rfl⟩ | ⟨-, rfl⟩
  · exact hw
  · exact Memory.below_write hw ha _

theorem space_pos (p : Params) : 0 < p.space := Nat.two_pow_pos p.aw

/-! ## BitWriter -/

theorem orBytes_frame {v : View} {f : BitVec 24} {count i : Nat} {s t : State} (h : orBytes v f count i s = .next t) :
    SameButMem s t := by
  induction count generalizing i s with
  | zero => cases h; exact SameButMem.refl _
  | succ count ih =>
    obtain ⟨u, hu, ht⟩ := chain_eq_next h
    exact (orByte_frame hu).trans (ih ht)

theorem orBytes_wf {v : View} {f : BitVec 24} {count i : Nat} {s t : State} (h : orBytes v f count i s = .next t)
    (hw : s.mem.wf = true) : t.mem.wf = true := by
  induction count generalizing i s with
  | zero => cases h; exact hw
  | succ count ih =>
    obtain ⟨u, hu, ht⟩ := chain_eq_next h
    exact ih ht (orByte_wf hu hw)

theorem orBytes_below {v : View} {f : BitVec 24} {count i : Nat} {s t : State} (h : orBytes v f count i s = .next t)
    (hw : s.mem.below s.params.space = true) : t.mem.below s.params.space = true := by
  induction count generalizing i s with
  | zero => cases h; exact hw
  | succ count ih =>
    obtain ⟨u, hu, ht⟩ := chain_eq_next h
    have hp := (orByte_frame hu).params
    have := orByte_below hu (Nat.mod_lt _ (space_pos s.params)) hw
    rw [← hp] at this ⊢
    exact ih ht this

/-- A byte that no covered byte of the field falls on is as before. -/
theorem orBytes_read_of_ne {v : View} {f : BitVec 24} {count i : Nat} {s t : State} (h : orBytes v f count i s = .next t) {b : Nat}
    (hb : ∀ j, i ≤ j → j < i + count → b ≠ (v.start + j) % s.params.space) : t.mem.read b = s.mem.read b := by
  induction count generalizing i s with
  | zero => cases h; rfl
  | succ count ih =>
    obtain ⟨u, hu, ht⟩ := chain_eq_next h
    have hp := (orByte_frame hu).params
    rw [ih ht (fun j h1 h2 => by rw [hp]; exact hb j (by omega) (by omega)), orByte_read hu b,
      if_neg (hb i (le_refl i) (by omega))]

/-- A BitWrite that goes on does one of three things: nothing (`n = 0`), WOVF and nothing else, or the OR of the field's bytes and the
cursor `n` bits further on (R120, R121). -/
theorem bitWrite_eq_next {v : BitVec 16} {n : Nat} {s : State} {e : WriteEnd} {t : State} (h : bitWrite v n s = .next (e, t)) :
    (n = 0 ∧ e = .ok ∧ t = s) ∨
    (n ≠ 0 ∧ s.writer.fits n = false ∧ e = .fail ∧ t = raise .wovf s) ∨
    (n ≠ 0 ∧ s.writer.fits n = true ∧ e = .ok ∧ ∃ u,
      orBytes s.writerView (placedField v n s.writer.off) (ceil8 (s.writer.off.toNat + n)) 0 s = .next u ∧
      t = u.setWriter (s.writer.advance s.params n)) := by
  unfold bitWrite at h
  split at h
  · rename_i hn
    cases h
    exact .inl ⟨hn, rfl, rfl⟩
  · rename_i hn
    split at h
    · rename_i hf
      obtain ⟨u, hu, ht⟩ := chain_eq_next h
      have hw := (orBytes_frame hu).writer
      cases ht
      exact .inr (.inr ⟨hn, hf, rfl, u, hu, rfl⟩)
    · rename_i hf
      cases h
      exact .inr (.inl ⟨hn, by simpa using hf, rfl, rfl⟩)

theorem writeField_eq_next {v : BitVec 16} {n : Nat} {s t : State} (h : writeField v n s = .next t) :
    ∃ e, bitWrite v n s = .next (e, t) := by
  obtain ⟨r, hr, ht⟩ := chain_eq_next h
  cases ht
  exact ⟨r.1, hr⟩

theorem wrapAddr_lt (p : Params) (v : Nat) : (wrapAddr p v).toNat < p.space := by
  unfold wrapAddr
  rw [BitVec.toNat_ofNat]
  exact lt_of_le_of_lt (Nat.mod_le _ _) (Nat.mod_lt _ (space_pos p))

theorem space_le (p : Params) : p.space ≤ 2 ^ 32 :=
  Nat.pow_le_pow_right (by decide) (by unfold Params.aw; omega)

@[simp] theorem wrapAddr_toNat (p : Params) (v : Nat) : (wrapAddr p v).toNat = v % p.space := by
  unfold wrapAddr
  rw [BitVec.toNat_ofNat, Nat.mod_eq_of_lt (lt_of_lt_of_le (Nat.mod_lt _ (space_pos p)) (space_le p))]

/-! ## BitReader -/

/-- The state after one pulled byte (R140). -/
def State.afterPull (s : State) : State :=
  (s.setReader
    { addr := wrapAddr s.params (s.reader.addr.toNat + 1)
      len := s.reader.len - 1#32
      acc := s.reader.acc ||| (s.mem.read (s.reader.addr.toNat % s.params.space)).setWidth 16 <<< s.reader.cnt.toNat
      cnt := s.reader.cnt + 8#5 }).logPort (.read (s.reader.addr.toNat % s.params.space))

theorem pullByte_eq_next {s t : State} (h : pullByte s = .next t) : t = s.afterPull := (accessByte_eq_next h).1

/-- A pull is one access of the port. -/
theorem pullByte_eq (s : State) :
    pullByte s = accessByte s.readerView (s.reader.addr.toNat % s.params.space) s s.afterPull := rfl

theorem rentLoop_succ (n fuel : Nat) (s : State) : rentLoop n (fuel + 1) s =
    if s.reader.cnt.toNat < n ∧ s.reader.len ≠ 0#32 then chain (pullByte s) (rentLoop n fuel) else .next s := rfl

/-- Whatever holds of the state and is kept by a pulled byte holds after Rent's loop. -/
theorem rentLoop_induct {P : State → Prop} {n fuel : Nat} {s t : State} (h : rentLoop n fuel s = .next t) (h0 : P s)
    (hs : ∀ u, P u → u.reader.cnt.toNat < n → u.reader.len ≠ 0#32 → P u.afterPull) : P t := by
  induction fuel generalizing s with
  | zero => cases h; exact h0
  | succ fuel ih =>
    rw [rentLoop_succ] at h
    split at h
    · rename_i hc
      obtain ⟨u, hu, ht⟩ := chain_eq_next h
      rw [pullByte_eq_next hu] at ht
      exact ih ht (hs s h0 hc.1 hc.2)
    · cases h; exact h0

/-- Rent changes only the reader cursor and the port's record. -/
theorem rent_frame {n : Nat} {s t : State} (h : rent n s = .next t) :
    t = { s with reader := t.reader, port := t.port } :=
  rentLoop_induct (P := fun u => u = { s with reader := u.reader, port := u.port }) h rfl
    (fun u hu _ _ => by rw [hu]; rfl)

/-- Rent keeps R_ADDR an address that exists and R_CNT in 0..16 (R144). -/
theorem rent_bounds {n : Nat} {s t : State} (h : rent n s = .next t) (hn : n ≤ rentMax)
    (ha : s.reader.addr.toNat < s.params.space) (hc : s.reader.cnt.toNat ≤ regW) :
    t.reader.addr.toNat < s.params.space ∧ t.reader.cnt.toNat ≤ regW := by
  have key := rentLoop_induct (P := fun u => u.params = s.params ∧ u.reader.addr.toNat < s.params.space ∧ u.reader.cnt.toNat ≤ regW) h
    ⟨rfl, ha, hc⟩ (fun u hu h1 _ => by
      refine ⟨hu.1, ?_, ?_⟩
      · show (wrapAddr u.params _).toNat < _
        rw [hu.1]
        exact wrapAddr_lt _ _
      · show (u.reader.cnt + 8#5).toNat ≤ regW
        simp only [rentMax, regW] at *
        rw [BitVec.toNat_add]
        have : u.reader.cnt.toNat + (8#5).toNat = u.reader.cnt.toNat + 8 := rfl
        omega)
  exact key.2

/-- Advance changes only R_ACC, R_CNT and the RUNDER bit (R141). -/
theorem advance_frame (n : Nat) (s : State) :
    advance n s = { s with
      flags := if s.reader.cnt.toNat < n then s.flags.set .runder else s.flags
      reader := { s.reader with
        acc := s.reader.acc >>> n
        cnt := if s.reader.cnt.toNat < n then 0#5 else s.reader.cnt - BitVec.ofNat 5 n } } := by
  unfold advance
  split <;> rfl

/-- "decreases valid-bit-count by n", saturating at 0 (R141). -/
theorem advance_cnt (n : Nat) (s : State) : (advance n s).reader.cnt.toNat = s.reader.cnt.toNat - n := by
  rw [advance_frame]
  show (if _ then _ else _ : BitVec 5).toNat = _
  split
  · rename_i h
    have : s.reader.cnt.toNat - n = 0 := by omega
    simp [this]
  · rename_i h
    have h2 := s.reader.cnt.isLt
    rw [BitVec.toNat_sub, BitVec.toNat_ofNat, Nat.mod_eq_of_lt (by omega : n < 2 ^ 5)]
    omega

/-! ## DecodeStep -/

/-- The symbol step after Rent changes only R_ACC, R_CNT, D_PREV and the RUNDER bit (R190). -/
theorem consumeCode_frame (s : State) :
    consumeCode s = { s with
      flags := (consumeCode s).flags
      reader := { s.reader with acc := (consumeCode s).reader.acc, cnt := (consumeCode s).reader.cnt }
      dec := { s.dec with prev := (consumeCode s).dec.prev } } := by
  unfold consumeCode
  split <;> rw [advance_frame] <;> rfl

/-- The short and the long code consume 6 and 9 bits, down to 0 (R190). -/
theorem consumeCode_cnt_le (s : State) : (consumeCode s).reader.cnt.toNat ≤ s.reader.cnt.toNat := by
  unfold consumeCode
  split
  · rw [applyDelta_reader, advance_cnt]; omega
  · rw [applyDelta_reader, advance_cnt]; omega

/-- DecodeStep changes only the reader cursor, D_PREV, the RUNDER bit and the port's record; "DecodeStep does not touch D_REM" (R190). -/
theorem decodeStep_frame {s t : State} (h : decodeStep s = .next t) :
    t = { s with flags := t.flags, reader := t.reader, dec := { s.dec with prev := t.dec.prev }, port := t.port } := by
  obtain ⟨u, hu, ht⟩ := chain_eq_next h
  cases ht
  rw [consumeCode_frame, rent_frame hu]

theorem decodeStep_bounds {s t : State} (h : decodeStep s = .next t) (ha : s.reader.addr.toNat < s.params.space)
    (hc : s.reader.cnt.toNat ≤ regW) : t.reader.addr.toNat < s.params.space ∧ t.reader.cnt.toNat ≤ regW := by
  obtain ⟨u, hu, ht⟩ := chain_eq_next h
  cases ht
  have hb := rent_bounds hu (le_refl _) ha hc
  refine ⟨?_, le_trans (consumeCode_cnt_le u) hb.2⟩
  rw [consumeCode_frame]
  exact hb.1

end Sys2Proof.Machine
end

