-- ==== Sys2Proof/Laws/PerInstr.lean ====
section
/-! SUPPORT. The family SelectsOwnRow: a command's word carries its own opcode and its own row's fixed bits (30_encoding.md R84, R89). -/

namespace Sys2Proof.Laws.SelectsOwnRow

/-- The encoder's word has the opcode's OP value, its N and IMM fields, and the fixed bits of its row. -/
def Statement (i : Instr) : Prop :=
  opField (encode i) = i.opcode.byte ∧ nField (encode i) = i.nBits ∧ immField (encode i) = i.immBits ∧
  encode i &&& i.opcode.mask = i.opcode.matchBits

/-- The OP, N and IMM fields of a word put together as R89 does. -/
theorem fields_of_word (m : BitVec 16) (n : BitVec 5) (o : Byte) :
    opField (m.setWidth 32 <<< 16 ||| n.setWidth 32 <<< 8 ||| o.setWidth 32) = o ∧
    nField (m.setWidth 32 <<< 16 ||| n.setWidth 32 <<< 8 ||| o.setWidth 32) = n ∧
    immField (m.setWidth 32 <<< 16 ||| n.setWidth 32 <<< 8 ||| o.setWidth 32) = m := by
  unfold opField nField immField
  refine ⟨?_, ?_, ?_⟩ <;> apply BitVec.eq_of_getLsbD_eq <;> intro i hi <;>
    simp only [BitVec.getLsbD_extractLsb', BitVec.getLsbD_or, BitVec.getLsbD_shiftLeft, BitVec.getLsbD_setWidth, hi]
  · have h1 : i < 16 := by omega
    simp [show i < 32 by omega, h1, hi]
  · have h1 : 8 + i < 16 := by omega
    simp [show 8 + i < 32 by omega, h1]
    omega
  · simp [show 16 + i < 32 by omega, BitVec.getLsbD_of_ge o (16 + i) (by omega),
      BitVec.getLsbD_of_ge n (16 + i - 8) (by omega)]
    omega

/-- Masking a word masks its three fields. -/
theorem masked_word (m : BitVec 16) (n : BitVec 5) (o : Byte) (k : Word) :
    (m.setWidth 32 <<< 16 ||| n.setWidth 32 <<< 8 ||| o.setWidth 32) &&& k =
      (m &&& immField k).setWidth 32 <<< 16 ||| (n &&& nField k).setWidth 32 <<< 8 ||| (o &&& opField k).setWidth 32 := by
  unfold opField nField immField
  apply BitVec.eq_of_getLsbD_eq
  intro i hi
  simp only [BitVec.getLsbD_extractLsb', BitVec.getLsbD_or, BitVec.getLsbD_and, BitVec.getLsbD_shiftLeft,
    BitVec.getLsbD_setWidth, hi]
  interval_cases i <;> simp

/-- A byte operand leaves IMM[15:8] zero. -/
theorem byte_high_zero (b : Byte) : b.setWidth 16 &&& 0xFF00#16 = 0#16 := by
  apply BitVec.eq_of_getLsbD_eq
  intro i hi
  interval_cases i <;> simp

/-- A bit operand leaves IMM[15:1] zero. -/
theorem bit_high_zero (b : Bool) : (BitVec.ofBool b).setWidth 16 &&& 0xFFFE#16 = 0#16 := by cases b <;> rfl

/-- Every row fixes the eight OP bits to its opcode's value, and every other fixed bit to 0 (R84). -/
theorem opcode_bits_fixed (op : Opcode) : (op.byte &&& opField op.mask).setWidth 32 = op.matchBits := by cases op <;> rfl

/-- What is left to show of a command: its row's IMM and N masks, and its own fields under them. -/
theorem of_masked_fields {i : Instr} (op : Opcode) (im : BitVec 16) (nm : BitVec 5) (ho : i.opcode = op)
    (hi : immField op.mask = im) (hn : nField op.mask = nm)
    (hm : i.immBits &&& im = 0#16) (hc : i.nBits &&& nm = 0#5) : Statement i := by
  refine ⟨(fields_of_word _ _ _).1, (fields_of_word _ _ _).2.1, (fields_of_word _ _ _).2.2, ?_⟩
  unfold encode
  rw [ho, masked_word, hi, hm, hn, hc, opcode_bits_fixed]
  simp

/-- The N field of a command without a count is 0. -/
theorem zero_count (nm : BitVec 5) : 0#5 &&& nm = 0#5 := BitVec.zero_and

theorem nop : Statement .nop := of_masked_fields .nop 0xFFFF#16 0x1F#5 rfl rfl rfl rfl rfl
theorem xlat (b : Byte) : Statement (.xlat b) :=
  of_masked_fields .xlat 0xFF00#16 0x1F#5 rfl rfl rfl (byte_high_zero b) (zero_count _)
theorem wbit (bit : Bool) : Statement (.wbit bit) :=
  of_masked_fields .wbit 0xFFFE#16 0x1F#5 rfl rfl rfl (bit_high_zero bit) (zero_count _)
theorem wbyte (b : Byte) : Statement (.wbyte b) :=
  of_masked_fields .wbyte 0xFF00#16 0x1F#5 rfl rfl rfl (byte_high_zero b) (zero_count _)
theorem wfield (n : BitVec 5) (v : BitVec 16) : Statement (.wfield n v) :=
  of_masked_fields .wfield 0#16 0#5 rfl rfl rfl BitVec.and_zero BitVec.and_zero
theorem rent (n : BitVec 5) : Statement (.rent n) :=
  of_masked_fields .rent 0xFFFF#16 0#5 rfl rfl rfl BitVec.zero_and BitVec.and_zero
theorem radv (n : BitVec 5) : Statement (.radv n) :=
  of_masked_fields .radv 0xFFFF#16 0#5 rfl rfl rfl BitVec.zero_and BitVec.and_zero
theorem encInit : Statement .encInit := of_masked_fields .encInit 0xFFFF#16 0x1F#5 rfl rfl rfl rfl rfl
theorem encSym (c : Byte) : Statement (.encSym c) :=
  of_masked_fields .encSym 0xFF00#16 0x1F#5 rfl rfl rfl (byte_high_zero c) (zero_count _)
theorem measSym (c : Byte) : Statement (.measSym c) :=
  of_masked_fields .measSym 0xFF00#16 0x1F#5 rfl rfl rfl (byte_high_zero c) (zero_count _)
theorem decInit : Statement .decInit := of_masked_fields .decInit 0xFFFF#16 0x1F#5 rfl rfl rfl rfl rfl
theorem decNext : Statement .decNext := of_masked_fields .decNext 0xFFFF#16 0x1F#5 rfl rfl rfl rfl rfl

end Sys2Proof.Laws.SelectsOwnRow
end

