-- ==== Sys2Proof/Tests/Slice0.lean ====
section
/-! SUPPORT. The model's own tests. Expected values are the spec's: the examples of the command rules and the tables of 95_test_vectors.md,
each named at its test. After them, one witness for the hypotheses of every statement that has any. -/

namespace Sys2Proof.Tests

open Sys2Proof.Machine

/-! ## Well-formedness refuses ill-formed terms (30_encoding.md R88) -/

theorem test_wellFormed_refuses_wfield_17 : (Instr.wfield 17#5 0#16).wellFormed = false := by decide
theorem test_wellFormed_refuses_rent_10 : (Instr.rent 10#5).wellFormed = false := by decide
theorem test_wellFormed_refuses_radv_17 : (Instr.radv 17#5).wellFormed = false := by decide
theorem test_wellFormed_takes_the_limits :
    (Instr.wfield 16#5 0xFFFF#16).wellFormed = true ∧ (Instr.rent 9#5).wellFormed = true ∧ (Instr.radv 16#5).wellFormed = true := by
  decide

/-! ## Decoding: each word written out from the bit pattern of spec/opcode_table.json, IMM, RSV, N, OP -/

theorem test_decode_nop : decode 0b0000000000000000_000_00000_00000000#32 = .ok .nop := by rfl
theorem test_decode_xlat : decode 0b0000000000100000_000_00000_00000001#32 = .ok (.xlat 0x20#8) := by rfl
theorem test_decode_wbit : decode 0b0000000000000001_000_00000_00010000#32 = .ok (.wbit true) := by rfl
theorem test_decode_wbyte : decode 0b0000000010100101_000_00000_00010001#32 = .ok (.wbyte 0xA5#8) := by rfl
theorem test_decode_wfield : decode 0b0000000101111101_000_01001_00010010#32 = .ok (.wfield 9#5 0x17D#16) := by rfl
theorem test_decode_rent : decode 0b0000000000000000_000_01001_00100000#32 = .ok (.rent 9#5) := by rfl
theorem test_decode_radv : decode 0b0000000000000000_000_00110_00100001#32 = .ok (.radv 6#5) := by rfl
theorem test_decode_encInit : decode 0b0000000000000000_000_00000_00110000#32 = .ok .encInit := by rfl
theorem test_decode_encSym : decode 0b0000000001000001_000_00000_00110001#32 = .ok (.encSym 0x41#8) := by rfl
theorem test_decode_measSym : decode 0b0000000001000001_000_00000_00110010#32 = .ok (.measSym 0x41#8) := by rfl
theorem test_decode_decInit : decode 0b0000000000000000_000_00000_01000000#32 = .ok .decInit := by rfl
theorem test_decode_decNext : decode 0b0000000000000000_000_00000_01000001#32 = .ok .decNext := by rfl

/-- The illegal words of 95_test_vectors.md section 2.1. -/
theorem test_decode_refuses_illegal_words :
    [0x00000002#32, 0x00000042#32, 0x000000FF#32, 0x00010000#32, 0x00002000#32, 0x00020010#32, 0x00000110#32, 0x00001112#32,
     0x00002012#32, 0x00000A20#32, 0x00001120#32, 0x00001121#32, 0x00010030#32, 0x00000131#32, 0x01200001#32, 0x00000140#32,
     0x01000041#32].all (fun w => (decode w).toOption.isNone) = true := by decide

theorem test_decodeTableWord : decodeTableWord 32 0x017D0912 = some (.wfield 9#5 0x17D#16) := by rfl

/-! ## Small states -/

/-- The state an outcome goes on to. -/
def nextOf {α : Type} : Host.Outcome α Fault Refusal → Option α
  | .next s => some s
  | .fault _ => none
  | .refused _ => none

/-- Reset, with the writer at 0x100. -/
def writerAt (len : Word) (off : BitVec 3) : State := { State.reset with writer := { addr := 0x100#32, len := len, off := off } }

/-- Reset, with the reader at 0x200 and bytes from there on. -/
def readerAt (bytes : Memory) (len : Word) (acc : BitVec 16) (cnt : BitVec 5) (rem : Word) : State :=
  { State.reset with
    mem := bytes, reader := { addr := 0x200#32, len := len, acc := acc, cnt := cnt }, dec := { prev := 0x41#8, rem := rem } }

/-! ## One step of each command, from 95_test_vectors.md sections 2.3 to 2.7 -/

theorem test_nop : nextOf (exec .nop (writerAt 4#32 0#3)) = some (writerAt 4#32 0#3) := by decide
theorem test_xlat_space : (nextOf (exec (.xlat 0x20#8) State.reset)).map (readReg .result) = some 0x0000007F#32 := by decide
theorem test_xlat_absent :
    (nextOf (exec (.xlat 0x7F#8) { State.reset with params := { Params.standard with xlat := false } })).map (readReg .result) =
      some 0x0000007F#32 := by decide
theorem test_wbit_end_of_byte :
    (nextOf (exec (.wbit true) (writerAt 1#32 7#3))).map (fun t => (t.mem, t.writer)) =
      some ([(0x100, 0x80#8)], { addr := 0x101#32, len := 0#32, off := 0#3 }) := by decide
theorem test_wbit_empty_view :
    (nextOf (exec (.wbit true) (writerAt 0#32 7#3))).map (fun t => (readReg .status t, t.mem, t.writer.off)) =
      some (0x102#32, [], 7#3) := by decide
theorem test_wbyte_split :
    (nextOf (exec (.wbyte 0xA5#8) (writerAt 2#32 3#3))).map (fun t => (t.mem, t.writer)) =
      some ([(0x100, 0x28#8), (0x101, 0x05#8)], { addr := 0x101#32, len := 1#32, off := 3#3 }) := by decide
theorem test_wbyte_ors :
    (nextOf (exec (.wbyte 0x0F#8) { writerAt 4#32 0#3 with mem := [(0x100, 0xF0#8)] })).map (fun t => t.mem) =
      some [(0x100, 0xFF#8)] := by decide
theorem test_wfield_three_bytes :
    (nextOf (exec (.wfield 16#5 0xFFFF#16) (writerAt 3#32 7#3))).map (fun t => (t.port, t.writer)) =
      some ([.orByte 0x100 0x80#8, .orByte 0x101 0xFF#8, .orByte 0x102 0x7F#8], { addr := 0x102#32, len := 1#32, off := 7#3 }) := by
  decide
theorem test_wfield_wraps :
    (nextOf (exec (.wfield 16#5 0xABCD#16) { State.reset with writer := { addr := 0xFFFFFFFF#32, len := 2#32, off := 0#3 } })).map
      (fun t => (t.mem, t.writer.addr)) = some ([(0x00000000, 0xAB#8), (0xFFFFFFFF, 0xCD#8)], 0x00000001#32) := by decide
theorem test_rent_two_bytes :
    (nextOf (exec (.rent 9#5) (readerAt [(0x200, 0xA5#8), (0x201, 0x3C#8)] 2#32 0#16 0#5 0#32))).map
      (fun t => (t.reader, readReg .result t)) =
      some ({ addr := 0x202#32, len := 0#32, acc := 0x3CA5#16, cnt := 16#5 }, 0x00103CA5#32) := by decide
theorem test_rent_one_byte_is_enough :
    (nextOf (exec (.rent 9#5) (readerAt [(0x200, 0xFF#8), (0x201, 0xFF#8)] 2#32 1#16 1#5 0#32))).map
      (fun t => (t.reader.len, readReg .result t, t.port)) = some (1#32, 0x000901FF#32, [.read 0x200]) := by decide
theorem test_radv : (nextOf (exec (.radv 6#5) (readerAt [] 0#32 0x3CA5#16 16#5 0#32))).map (fun t => (t.reader.acc, t.reader.cnt)) =
    some (0x00F2#16, 10#5) := by decide
theorem test_radv_underrun :
    (nextOf (exec (.radv 5#5) (readerAt [] 0#32 5#16 3#5 0#32))).map (fun t => (t.reader.acc, t.reader.cnt, readReg .status t)) =
      some (0#16, 0#5, 0x104#32) := by decide
theorem test_encInit :
    (nextOf (exec .encInit { State.reset with enc := { prev := 0x7F#8, bits := 33#32 } })).map (fun t => (t.enc, readReg .eBytes t)) =
      some ({ prev := 0x41#8, bits := 0#32 }, 0#32) := by decide
theorem test_encSym_space :
    (nextOf (exec (.encSym 0x20#8) (writerAt 8#32 0#3))).map (fun t => (t.mem, t.writer, t.enc)) =
      some ([(0x100, 0x7D#8)], { addr := 0x101#32, len := 7#32, off := 1#3 }, { prev := 0x7F#8, bits := 9#32 }) := by decide
theorem test_encSym_wovf :
    nextOf (exec (.encSym 0x20#8) (writerAt 1#32 0#3)) = some (raise .wovf (writerAt 1#32 0#3)) := by decide
theorem test_measSym_wraps :
    (nextOf (exec (.measSym 0x41#8) { State.reset with enc := { prev := 0x41#8, bits := 0xFFFFFFFC#32 } })).map
      (fun t => (t.enc.bits, readReg .eBytes t)) = some (2#32, 1#32) := by decide
theorem test_decInit_two_long_codes :
    (nextOf (exec .decInit (readerAt [(0x200, 0x83#8), (0x201, 0xFE#8), (0x202, 0x03#8)] 3#32 0xFFFF#16 3#5 2#32))).map
      (fun t => (t.reader, t.dec, readReg .dOut t)) =
      some ({ addr := 0x202#32, len := 1#32, acc := 0x007F#16, cnt := 7#5 }, { prev := 0x00#8, rem := 2#32 }, 0x00#32) := by decide
theorem test_decInit_short_when_eight_bits :
    (nextOf (exec .decInit (readerAt [(0x200, 0x01#8)] 1#32 0#16 0#5 1#32))).map (fun t => (t.reader.cnt, t.dec.prev, readReg .status t)) =
      some (2#5, 0x41#8, 0x000#32) := by decide
theorem test_decNext_truncated :
    (nextOf (exec .decNext { readerAt [] 0#32 0#16 1#5 4#32 with dec := { prev := 0x65#8, rem := 4#32 } })).map
      (fun t => (t.reader.cnt, t.dec, readReg .status t)) = some (0#5, { prev := 0x65#8, rem := 3#32 }, 0x004#32) := by decide
theorem test_decNext_past_end : (nextOf (exec .decNext State.reset)).map (readReg .status) = some 0x108#32 := by decide

/-! ## Host accesses, from section 2.2 -/

theorem test_host_writes_keep_legal_values :
    (nextOf (runAccesses [wr Params.standard .wOff 0xF#32, wr Params.standard .rCnt 0x1F#32, wr Params.standard .rAcc 0x12345#32,
        wr Params.standard .ePrev 0x141#32, wr Params.standard .id 0x12345678#32] State.reset)).map
      (fun t => (readReg .wOff t, readReg .rCnt t, readReg .rAcc t, readReg .ePrev t, readReg .id t)) =
      some (0x7#32, 0x10#32, 0x2345#32, 0x41#32, 0x43414C01#32) := by decide
theorem test_status_write_clears :
    (nextOf (hostAccess (wr Params.standard .status 0xFFFFFFFF#32)
      { State.reset with flags := { ill := true, wovf := true, runder := true, dend := true } })).map (readReg .status) =
      some 0x100#32 := by decide
theorem test_config : readReg .config State.reset = 0x00102001#32 := by decide
theorem test_first_command_after_reset_runs :
    (nextOf (step (State.reset.withFetchWord 32 0x00200001))).map (readReg .result) = some 0x7F#32 := by decide
theorem test_illegal_command_sets_ill :
    (nextOf (step (State.reset.withFetchWord 32 0x000000FF))).map (readReg .status) = some 0x101#32 := by decide
theorem test_device_view_is_refused :
    exec (.wbyte 1#8) { writerAt 2#32 0#3 with params := { Params.standard with regions := [⟨0x101, 0x101, .device⟩] } } =
      .refused .viewCoversDevice := by rfl
theorem test_unadmitted_access_is_stuck :
    exec (.wbyte 1#8) { writerAt 2#32 0#3 with params := { Params.standard with regions := [⟨0x100, 0x100, .notAdmitted⟩] } } =
      .fault (.memNotAdmitted 0x100) := by rfl
theorem test_asm : (Instr.wfield 9#5 0x17D#16).asm = "WFIELD 9, 381" := by rfl

/-- "AA" measures 2 bytes (section 1.1), at stream level. -/
theorem test_stream_AA : streamWidth true [0x41#8, 0x41#8] = 12 ∧ streamBytes true [0x41#8, 0x41#8] = 2 := by decide

/-! ## Witnesses: a concrete state and operands that meet all hypotheses of each statement -/

/-- In the default configuration every view is usable. -/
theorem usable_standard (v : View) : usableView Params.standard v := ⟨rfl, fun _ _ => rfl⟩

theorem witness_EncodedCommandDecodesToItself : (Instr.wfield 16#5 0xFFFF#16).wellFormed = true := by decide
theorem witness_DecodedWordEncodesToItself : decode 0xFFFF1012#32 = .ok (.wfield 16#5 0xFFFF#16) := by rfl
theorem witness_IllegalWordRaisesOnlyIll_legal : specLegal 0xFFFF1012#32 := by unfold specLegal; decide
theorem witness_IllegalWordRaisesOnlyIll_illegal : ¬ specLegal 0xFFFF1112#32 := by unfold specLegal; decide
theorem witness_StepRunsTheDecodedCommand_command :
    (State.reset.withFetchWord 32 0x00410031).hostQueue = [.regWrite (State.reset.params.base + 8) .word 0x00410031#32] ∧
    decode 0x00410031#32 = .ok (.encSym 0x41#8) := by decide
theorem witness_StepRunsTheDecodedCommand_idle : State.reset.hostQueue = [] := rfl
theorem witness_QueuedAccessesRunInOrder :
    State.reset.hostQueue = [] ∧ ∃ t, runAccesses [.memStore 5 1#8, .regRead 0 .word] State.reset = .next t := ⟨rfl, _, rfl⟩
theorem witness_RegisterReadHasNoSideEffect :
    ∀ off ∈ [0x00, 0x04, 0x08, 0x0C, 0x10, 0x14, 0x18, 0x1C, 0x20, 0x24, 0x28, 0x2C, 0x30, 0x34, 0x38, 0x3C, 0x40, 0x44, 0x48, 0x7C],
      off < 128 ∧ off % 4 = 0 := by decide
theorem witness_RegisterWriteStoresLegalValue :
    ∀ off ∈ [0x00, 0x04, 0x0C, 0x10, 0x14, 0x18, 0x1C, 0x20, 0x24, 0x28, 0x2C, 0x30, 0x34, 0x38, 0x3C, 0x40, 0x44, 0x48, 0x7C],
      off < 128 ∧ off % 4 = 0 ∧ off ≠ 0x08 := by decide
theorem witness_UnalignedOrNarrowAccessIsRefused_narrow :
    127 < Params.standard.base + 128 ∧ Params.standard.base < 127 + AccessSize.byte.bytes ∧ AccessSize.byte ≠ .word := by decide
theorem witness_UnalignedOrNarrowAccessIsRefused_unaligned :
    126 < Params.standard.base + 128 ∧ Params.standard.base < 126 + AccessSize.word.bytes ∧ 126 % 4 ≠ 0 := by decide
theorem witness_ResetSetsEveryRegister : HostOp.resetDuring 0#32 ∈ [HostOp.reset, HostOp.resetDuring 0#32] := by decide
theorem witness_HostStoreIsSeenByNextLoad :
    State.reset.Inv ∧ ∃ t, hostAccess (.memStore 0xFFFFFFFF 0x5A#8) State.reset = .next t := ⟨by decide, _, rfl⟩
theorem witness_TranslateIsSelfInverse : (33#8 : Byte) ≠ 32#8 ∧ (33#8 : Byte) ≠ 127#8 ∧ (33#8 : Byte) ≠ 34#8 ∧ (33#8 : Byte) ≠ 126#8 := by
  decide
theorem witness_FittingWriteOrsItsField :
    writeForm (.wfield 16#5 0xFFFF#16) = some (0xFFFF#16, 16) ∧ (Instr.wfield 16#5 0xFFFF#16).wellFormed = true ∧ 0 < 16 ∧
    fieldFits 16 (writerAt 3#32 7#3) ∧ usableView (writerAt 3#32 7#3).params (writerAt 3#32 7#3).writerView :=
  ⟨rfl, by decide, by decide, by unfold fieldFits; decide, usable_standard _⟩
theorem witness_FittingWriteOrsItsField_bit :
    writeForm (.wbit true) = some (1#16, 1) ∧ 0 < 1 ∧ fieldFits 1 (writerAt 1#32 7#3) :=
  ⟨rfl, by decide, by unfold fieldFits; decide⟩
theorem witness_WriteOutsideViewRaisesOnlyWovf :
    writeForm (.wbyte 0xFF#8) = some (0xFF#16, 8) ∧ (Instr.wbyte 0xFF#8).wellFormed = true ∧ 0 < 8 ∧ ¬ fieldFits 8 (writerAt 1#32 1#3) :=
  ⟨rfl, by decide, by decide, by unfold fieldFits; decide⟩
theorem witness_WriteEqualsRecursiveSplit_primitive :
    (writerAt 1#32 7#3).Inv ∧ 0 < 1 ∧ 1 ≤ 16 ∧ fieldFits 1 (writerAt 1#32 7#3) ∧
    ∃ t, bitWrite 1#16 1 (writerAt 1#32 7#3) = .next (.ok, t) := ⟨by decide, by decide, by decide, by decide, _, rfl⟩
theorem witness_WriteEqualsRecursiveSplit_encSym :
    (writerAt 2#32 7#3).Inv ∧ writtenField (.encSym 0x20#8) (writerAt 2#32 7#3) = some (0x7D#16, 9) ∧
    fieldFits 9 (writerAt 2#32 7#3) ∧ ∃ t, exec (.encSym 0x20#8) (writerAt 2#32 7#3) = .next t :=
  ⟨by decide, by decide, by decide, _, rfl⟩
theorem witness_WriteEqualsRecursiveSplit :
    (writerAt 3#32 7#3).Inv ∧ writtenField (.wfield 16#5 0xFFFF#16) (writerAt 3#32 7#3) = some (0xFFFF#16, 16) ∧
    (Instr.wfield 16#5 0xFFFF#16).wellFormed = true ∧ 0 < 16 ∧
    fieldFits 16 (writerAt 3#32 7#3) ∧ ∃ t, exec (.wfield 16#5 0xFFFF#16) (writerAt 3#32 7#3) = .next t :=
  ⟨by decide, rfl, by decide, by decide, by unfold fieldFits; decide, _, rfl⟩
theorem witness_ConsecutiveWritesLeaveNoGap :
    (writerAt 4#32 5#3).Inv ∧ (∀ f ∈ [((9#5, 0x17D#16) : BitVec 5 × BitVec 16), (16#5, 1#16)], f.1.toNat ≤ 16) ∧
    (writerAt 4#32 5#3).flags.wovf = false ∧
    ∃ t, runCommands ([((9#5, 0x17D#16) : BitVec 5 × BitVec 16), (16#5, 1#16)].map (fun f => Instr.wfield f.1 f.2)) (writerAt 4#32 5#3) =
      .next t ∧ t.flags.wovf = false :=
  ⟨by decide, by simp, rfl, _, rfl, rfl⟩
theorem witness_NoCommandClearsMemoryBits :
    ∃ t, exec (.wbyte 0x0F#8) { writerAt 4#32 0#3 with mem := [(0x100, 0xF0#8)] } = .next t ∧
      ((Memory.read [(0x100, 0xF0#8)] 0x100).getLsbD 7) = true := ⟨_, rfl, rfl⟩
theorem witness_RentPullsOnlyWhatItNeeds :
    (9#5 : BitVec 5).toNat ≤ 9 ∧ usableView (readerAt [] 2#32 0#16 0#5 0#32).params (readerAt [] 2#32 0#16 0#5 0#32).readerView :=
  ⟨by decide, usable_standard _⟩
theorem witness_RadvDiscardsOldestBits : (16#5 : BitVec 5).toNat ≤ 16 := by decide
theorem witness_RentNeverOverflowsAccumulator :
    (readerAt [(0x200, 0xFF#8)] 2#32 0xFF#16 8#5 0#32).ReaderInv ∧ (9#5 : BitVec 5).toNat ≤ 9 ∧
    ∃ t, exec (.rent 9#5) (readerAt [(0x200, 0xFF#8)] 2#32 0xFF#16 8#5 0#32) = .next t := ⟨by decide, by decide, _, rfl⟩
theorem witness_CommandsKeepReaderInvariant :
    State.reset.ReaderInv ∧ ∃ t, exec (.rent 9#5) State.reset = .next t := ⟨by decide, _, rfl⟩
/-- Reset with one byte to read at 0x200, which the platform does not admit. -/
def stuckReader : State :=
  { readerAt [] 1#32 0#16 0#5 0#32 with params := { Params.standard with regions := [⟨0x200, 0x200, .notAdmitted⟩] } }

theorem witness_UnadmittedPullLeavesRentStuck :
    (1#5 : BitVec 5).toNat ≤ 9 ∧ stuckReader.reader.cnt.toNat < (1#5 : BitVec 5).toNat ∧ stuckReader.reader.len ≠ 0#32 ∧
    stuckReader.params.viewCoversDevice stuckReader.readerView = false ∧
    stuckReader.params.memAdmit (stuckReader.reader.addr.toNat % stuckReader.params.space) = false :=
  ⟨by decide, by decide, by decide, rfl, rfl⟩
theorem witness_EncSymWritesTheCode_fits :
    fieldFits (specWidth (translate true 0x20#8 ^^^ 0x41#8)) (writerAt 2#32 7#3) ∧
    usableView (writerAt 2#32 7#3).params (writerAt 2#32 7#3).writerView :=
  ⟨by unfold fieldFits; decide, usable_standard _⟩
theorem witness_EncSymWritesTheCode_overflows :
    ¬ fieldFits (specWidth (translate true 0x20#8 ^^^ 0x41#8)) (writerAt 1#32 0#3) := by unfold fieldFits; decide
theorem witness_MeasureAgreesWithEncode :
    (writerAt 2#32 0#3).params = State.reset.params ∧ (writerAt 2#32 0#3).enc = State.reset.enc ∧
    (writerAt 2#32 0#3).flags.wovf = false ∧
    (∃ t, runCommands ([0x48#8, 0x69#8].map Instr.encSym) (writerAt 2#32 0#3) = .next t ∧ t.flags.wovf = false) ∧
    ∃ u, runCommands ([0x48#8, 0x69#8].map Instr.measSym) State.reset = .next u :=
  ⟨rfl, rfl, rfl, ⟨_, rfl, rfl⟩, _, rfl⟩
theorem witness_EncoderOutputIsPure :
    (writerAt 2#32 0#3).params = (raise .ill (writerAt 2#32 0#3)).params ∧ (writerAt 2#32 0#3).enc = (raise .ill (writerAt 2#32 0#3)).enc ∧
    (writerAt 2#32 0#3).writer = (raise .ill (writerAt 2#32 0#3)).writer ∧ ∃ t, exec (.encSym 0x20#8) (writerAt 2#32 0#3) = .next t :=
  ⟨rfl, rfl, rfl, _, rfl⟩
theorem witness_DecodeCommands_usable_view :
    usableView (readerAt [(0x200, 0x41#8)] 2#32 0#16 0#5 1#32).params (readerAt [(0x200, 0x41#8)] 2#32 0#16 0#5 1#32).readerView :=
  usable_standard _
/-- The three cases of DEC.NEXT at their boundary values of D_REM. -/
theorem witness_DecNextAdvancesTheSequence_cases :
    (readerAt [] 2#32 0#16 0#5 0#32).dec.rem.toNat = 0 ∧ (readerAt [] 2#32 0#16 0#5 1#32).dec.rem.toNat = 1 ∧
    (readerAt [] 2#32 0#16 0#5 2#32).dec.rem.toNat = 2 := by decide
theorem witness_SequenceEndsAfterExactlyItsCount :
    2 ≤ (readerAt [] 2#32 0#16 0#5 2#32).dec.rem.toNat ∧
    ∃ t, runCommands (.decInit :: List.replicate 2 .decNext) (readerAt [] 2#32 0#16 0#5 2#32) = .next t := ⟨by decide, _, rfl⟩
theorem witness_RestoreBringsBackTheDecoder :
    (readerAt [] 4#32 0x20#16 7#5 7#32).Inv ∧ State.reset.params = (readerAt [] 4#32 0x20#16 7#5 7#32).params := ⟨by decide, rfl⟩
theorem witness_DecodingDependsOnlyOnSixRegisters :
    (readerAt [] 2#32 0#16 0#5 2#32).params = (raise .ill (readerAt [] 2#32 0#16 0#5 2#32)).params ∧
    (readerAt [] 2#32 0#16 0#5 2#32).mem = (raise .ill (readerAt [] 2#32 0#16 0#5 2#32)).mem ∧
    (readerAt [] 2#32 0#16 0#5 2#32).reader = (raise .ill (readerAt [] 2#32 0#16 0#5 2#32)).reader ∧
    (readerAt [] 2#32 0#16 0#5 2#32).dec = (raise .ill (readerAt [] 2#32 0#16 0#5 2#32)).dec ∧
    ∃ t, runCommands (List.replicate 2 .decNext) (readerAt [] 2#32 0#16 0#5 2#32) = .next t := ⟨rfl, rfl, rfl, rfl, _, rfl⟩
/-- Byte 0x202 differs, and DEC.INIT pulls only 0x200 and 0x201. -/
theorem witness_UnpulledBytesAreNotSeen :
    (readerAt [(0x200, 0x3E#8), (0x202, 0x11#8)] 3#32 0#16 0#5 1#32).params = (readerAt [(0x200, 0x3E#8)] 3#32 0#16 0#5 1#32).params ∧
    (readerAt [(0x200, 0x3E#8), (0x202, 0x11#8)] 3#32 0#16 0#5 1#32).reader = (readerAt [(0x200, 0x3E#8)] 3#32 0#16 0#5 1#32).reader ∧
    (readerAt [(0x200, 0x3E#8), (0x202, 0x11#8)] 3#32 0#16 0#5 1#32).dec = (readerAt [(0x200, 0x3E#8)] 3#32 0#16 0#5 1#32).dec ∧
    ∃ t, exec .decInit (readerAt [(0x200, 0x3E#8), (0x202, 0x11#8)] 3#32 0#16 0#5 1#32) = .next t ∧
      ∀ a, PortAccess.read a ∈ t.port.drop (readerAt [(0x200, 0x3E#8), (0x202, 0x11#8)] 3#32 0#16 0#5 1#32).port.length →
        Memory.read [(0x200, 0x3E#8), (0x202, 0x11#8)] a = Memory.read [(0x200, 0x3E#8)] a :=
  ⟨rfl, rfl, rfl, _, rfl, by
    intro a h
    have h2 : PortAccess.read a ∈ [PortAccess.read 0x200, PortAccess.read 0x201] := h
    simp only [List.mem_cons, List.not_mem_nil, or_false, PortAccess.read.injEq] at h2
    rcases h2 with rfl | rfl <;> decide⟩
theorem witness_ErrorsAreStickyAndAtMostOne :
    (Instr.decNext).wellFormed = true ∧ ∃ t, exec .decNext State.reset = .next t ∧ t.flags.get .dend = true ∧
      State.reset.flags.get .dend = false := ⟨rfl, _, rfl, rfl, rfl⟩
theorem witness_RaisingIllWovfOrDendChangesNothingElse_ill :
    Err.ill ≠ .runder ∧ ∃ t, executeCommand 0xFFFF1112#32 State.reset = .next t ∧ State.reset.flags.get .ill = false ∧
      t.flags.get .ill = true := ⟨by decide, _, rfl, rfl, rfl⟩
theorem witness_RaisingIllWovfOrDendChangesNothingElse_wovf :
    Err.wovf ≠ .runder ∧ ∃ t, executeCommand 0x00010010#32 State.reset = .next t ∧ State.reset.flags.get .wovf = false ∧
      t.flags.get .wovf = true := ⟨by decide, _, rfl, rfl, rfl⟩
theorem witness_RaisingIllWovfOrDendChangesNothingElse_dend :
    Err.dend ≠ .runder ∧ ∃ t, executeCommand 0x00000041#32 State.reset = .next t ∧ State.reset.flags.get .dend = false ∧
      t.flags.get .dend = true := ⟨by decide, _, rfl, rfl, rfl⟩
theorem witness_OnlyXlatAndRentWriteResult :
    (∃ t, executeCommand 0x00000041#32 State.reset = .next t) ∧ (∀ b, decode 0x00000041#32 ≠ .ok (.xlat b)) ∧
    ∀ n, decode 0x00000041#32 ≠ .ok (.rent n) :=
  ⟨⟨_, rfl⟩, fun _ h => Instr.noConfusion (Except.ok.inj (test_decode_decNext.symm.trans h)),
   fun _ h => Instr.noConfusion (Except.ok.inj (test_decode_decNext.symm.trans h))⟩
theorem witness_AccessStatements : ∃ t, exec (.wbyte 0xA5#8) (writerAt 2#32 3#3) = .next t ∧
    t.port = [.orByte 0x100 0x28#8, .orByte 0x101 0x05#8] := ⟨_, rfl, rfl⟩
theorem witness_AccessCountsAreBounded_two : writeForm .decInit = none ∧
    ∃ t, exec .decInit (readerAt [] 2#32 0#16 0#5 1#32) = .next t ∧ t.port = [.read 0x200, .read 0x201] := ⟨rfl, _, rfl, rfl⟩
theorem witness_WriteOutsideViewRaisesOnlyWovf_wide : 0 < 16 ∧ 16 ≤ 16 ∧ ¬ fieldFits 16 (writerAt 2#32 1#3) :=
  ⟨by decide, by decide, by unfold fieldFits; decide⟩
theorem witness_CommandsStopOnlyOnMemory_fault :
    ∃ s f, exec (.rent 1#5) s = .fault f :=
  ⟨{ readerAt [] 1#32 0#16 0#5 0#32 with params := { Params.standard with regions := [⟨0x200, 0x200, .notAdmitted⟩] } }, _, rfl⟩
theorem witness_CommandsStopOnlyOnMemory_refused :
    ∃ s r, exec (.rent 1#5) s = .refused r :=
  ⟨{ readerAt [] 1#32 0#16 0#5 0#32 with params := { Params.standard with regions := [⟨0x200, 0x200, .device⟩] } }, _, rfl⟩
theorem witness_EveryCommandCompletesOnUsableViews :
    usableView State.reset.params State.reset.readerView ∧ usableView State.reset.params State.reset.writerView :=
  ⟨usable_standard _, usable_standard _⟩
theorem witness_CanonicalMemoriesReadingAlikeAreEqual : Memory.wf [(0x100, 0x80#8), (0x101, 1#8)] = true := by decide
theorem witness_StepKeepsInvariant :
    ({ State.reset with hostQueue := [.memStore 0xFFFFFFFF 1#8] } : State).Inv ∧
    ∃ t, step { State.reset with hostQueue := [.memStore 0xFFFFFFFF 1#8] } = .next t := ⟨by decide, _, rfl⟩
theorem witness_MeasureReturnsStreamLength : streamWidth State.reset.params.xlat [0x48#8, 0x69#8] < 2 ^ 32 := by decide
theorem witness_EncodeStatements :
    streamWidth State.reset.params.xlat [0x48#8, 0x69#8] < 2 ^ 32 ∧
    streamBytes State.reset.params.xlat [0x48#8, 0x69#8] ≤ (2#32 : Word).toNat ∧
    streamBytes State.reset.params.xlat [0x48#8, 0x69#8] ≤ State.reset.params.space ∧
    usableView State.reset.params { start := (0x100#32 : Word).toNat, len := (2#32 : Word).toNat } ∧
    ∀ i, i < streamBytes State.reset.params.xlat [0x48#8, 0x69#8] →
      State.reset.mem.read (((0x100#32 : Word).toNat + i) % State.reset.params.space) = 0#8 :=
  ⟨by decide, by decide, by decide, usable_standard _, fun _ _ => rfl⟩
/-- "Hi" is the stream D2 10 (section 2.6): it ends with a long code in the last byte of a view of exactly two bytes. -/
theorem witness_DecodeRecoversTheString :
    [0x48#8, 0x69#8].length < 2 ^ 32 ∧
    streamBytes ({ State.reset with mem := [(0x100, 0xD2#8), (0x101, 0x10#8)] } : State).params.xlat [0x48#8, 0x69#8] ≤
      (2#32 : Word).toNat ∧
    usableView ({ State.reset with mem := [(0x100, 0xD2#8), (0x101, 0x10#8)] } : State).params
      { start := (0x100#32 : Word).toNat, len := (2#32 : Word).toNat } ∧
    HoldsStream ({ State.reset with mem := [(0x100, 0xD2#8), (0x101, 0x10#8)] } : State).params.xlat [0x48#8, 0x69#8]
      ({ State.reset with mem := [(0x100, 0xD2#8), (0x101, 0x10#8)] } : State).mem State.reset.params.space (0x100#32 : Word).toNat :=
  ⟨by decide, by decide, usable_standard _, by
    intro k hk
    have h : k < 15 := hk
    interval_cases k <;> rfl⟩

theorem witness_EncodeThenDecodeRoundTrips :
    [0x48#8, 0x69#8].length < 2 ^ 32 ∧
    streamBytes State.reset.params.xlat [0x48#8, 0x69#8] ≤ (2#32 : Word).toNat ∧
    streamBytes State.reset.params.xlat [0x48#8, 0x69#8] ≤ State.reset.params.space ∧
    usableView State.reset.params { start := (0x100#32 : Word).toNat, len := (2#32 : Word).toNat } ∧
    (∀ i, i < streamBytes State.reset.params.xlat [0x48#8, 0x69#8] →
      State.reset.mem.read (((0x100#32 : Word).toNat + i) % State.reset.params.space) = 0#8) ∧
    streamBytes State.reset.params.xlat [0x48#8, 0x69#8] ≤ (5#32 : Word).toNat ∧
    usableView State.reset.params { start := (0x100#32 : Word).toNat, len := (5#32 : Word).toNat } :=
  ⟨by decide, by decide, by decide, usable_standard _, fun _ _ => rfl, by decide, usable_standard _⟩
theorem witness_MeasureAndEncodeReturnTheSameSize :
    streamWidth State.reset.params.xlat [0x48#8, 0x69#8] < 2 ^ 32 ∧
    ∃ m t, measure [0x48#8, 0x69#8] State.reset = .next (m, t) ∧ m.toNat ≤ (2#32 : Word).toNat ∧ m.toNat ≤ State.reset.params.space ∧
      usableView State.reset.params { start := (0x100#32 : Word).toNat, len := (2#32 : Word).toNat } ∧
      ∀ i, i < m.toNat → State.reset.mem.read (((0x100#32 : Word).toNat + i) % State.reset.params.space) = 0#8 :=
  ⟨by decide, _, _, rfl, by decide, by decide, usable_standard _, fun _ _ => rfl⟩
/-- "AA" measures 2 bytes, which is not less than 2 (46_host_sequences.md R216). -/
theorem witness_WrapperNeverStoresMore_raw :
    ∃ f t, wrapString [0x41#8, 0x41#8] 0x100#32 State.reset = .next (f, t) ∧ f = { artifact := .raw [0x41#8, 0x41#8], count := 2 } ∧
      f.length = 2 ∧ streamWidth State.reset.params.xlat [0x41#8, 0x41#8] < 2 ^ 32 := ⟨_, _, rfl, rfl, rfl, by decide⟩
/-- "AAAA" takes 24 bits, 3 bytes, and 3 is less than 4; its length is still 4. -/
theorem witness_WrapperNeverStoresMore_compressed :
    ∃ f t, wrapString [0x41#8, 0x41#8, 0x41#8, 0x41#8] 0x100#32 State.reset = .next (f, t) ∧
      f = { artifact := .compressed [0x00#8, 0x00#8, 0x00#8], count := 4 } ∧ f.size = 3 ∧ f.length = 4 := ⟨_, _, rfl, rfl, rfl, rfl⟩
theorem witness_StoredFormReadsBackTheString :
    State.reset.Inv ∧
    streamWidth State.reset.params.xlat [0x41#8, 0x41#8, 0x41#8, 0x41#8] < 2 ^ 32 ∧
    streamBytes State.reset.params.xlat [0x41#8, 0x41#8, 0x41#8, 0x41#8] ≤ State.reset.params.space ∧
    usableView State.reset.params
      { start := (0x100#32 : Word).toNat, len := streamBytes State.reset.params.xlat [0x41#8, 0x41#8, 0x41#8, 0x41#8] } ∧
    ∃ f t, wrapString [0x41#8, 0x41#8, 0x41#8, 0x41#8] 0x100#32 State.reset = .next (f, t) :=
  ⟨by decide, by decide, by decide, usable_standard _, _, _, rfl⟩

/-- The given state on a platform with one range that is not plain storage. -/
def withRegion (s : State) (lo hi : Nat) (kind : RegionKind) : State :=
  { s with params := { Params.standard with regions := [⟨lo, hi, kind⟩] } }

/-- An ENC.SYM whose first byte is admitted and whose second is not. -/
theorem witness_UnadmittedAccessLeavesCommandStuck_encSym :
    (Instr.encSym 0x20#8).wellFormed = true ∧
    (withRegion (writerAt 2#32 3#3) 0x101 0x101 .notAdmitted).params.viewCoversDevice
      (accessView (.encSym 0x20#8) (withRegion (writerAt 2#32 3#3) 0x101 0x101 .notAdmitted)) = false ∧
    plannedAccesses (.encSym 0x20#8) (withRegion (writerAt 2#32 3#3) 0x101 0x101 .notAdmitted) =
      [.orByte 0x100 0xE8#8, .orByte 0x101 0x03#8] ∧
    (plannedAccesses (.encSym 0x20#8) (withRegion (writerAt 2#32 3#3) 0x101 0x101 .notAdmitted)).find?
      (fun b => !(withRegion (writerAt 2#32 3#3) 0x101 0x101 .notAdmitted).params.memAdmit b.addr) = some (.orByte 0x101 0x03#8) := by
  decide
/-- A DEC.INIT whose second byte is not admitted, and one all of whose bytes are. -/
theorem witness_UnadmittedAccessLeavesCommandStuck_decInit :
    (plannedAccesses .decInit (withRegion (readerAt [] 2#32 0#16 16#5 1#32) 0x201 0x201 .notAdmitted)).find?
      (fun b => !(withRegion (readerAt [] 2#32 0#16 16#5 1#32) 0x201 0x201 .notAdmitted).params.memAdmit b.addr) = some (.read 0x201) ∧
    ∀ b ∈ plannedAccesses .decInit (withRegion (readerAt [] 2#32 0#16 16#5 1#32) 0x202 0x202 .notAdmitted),
      (withRegion (readerAt [] 2#32 0#16 16#5 1#32) 0x202 0x202 .notAdmitted).params.memAdmit b.addr = true := by
  decide
/-- Only the view's last byte is device memory, which a DEC.NEXT would not reach. -/
theorem witness_DeviceViewIsRefused :
    Instr.decNext.wellFormed = true ∧
    plannedAccesses .decNext (withRegion (readerAt [] 3#32 0#16 0#5 2#32) 0x202 0x202 .device) = [.read 0x200, .read 0x201] ∧
    (withRegion (readerAt [] 3#32 0#16 0#5 2#32) 0x202 0x202 .device).params.viewCoversDevice
      (accessView .decNext (withRegion (readerAt [] 3#32 0#16 0#5 2#32) 0x202 0x202 .device)) = true := by
  decide
/-- One device byte in each other kind of view: the commands that go through it are to make an access. -/
theorem witness_DeviceViewIsRefused_others :
    ∀ i ∈ [Instr.wbit true, .wbyte 1#8, .wfield 16#5 1#16, .encSym 0x20#8],
      plannedAccesses i (withRegion (writerAt 3#32 0#3) 0x102 0x102 .device) ≠ [] ∧
      (withRegion (writerAt 3#32 0#3) 0x102 0x102 .device).params.viewCoversDevice
        (accessView i (withRegion (writerAt 3#32 0#3) 0x102 0x102 .device)) = true := by
  decide

end Sys2Proof.Tests
end

section
/-! SUPPORT. What every command keeps, from what the shared operations keep, and the two invariants of 10_state.md. -/

namespace Sys2Proof.Machine

/-! ## The writer's operation, its frame -/

/-- A BitWrite changes only memory, the port's record, the writer cursor and the WOVF bit (R120, R121). -/
theorem bitWrite_frame {v : BitVec 16} {n : Nat} {s : State} {e : WriteEnd} {t : State} (h : bitWrite v n s = .next (e, t)) :
    t = { s with flags := t.flags, writer := t.writer, mem := t.mem, port := t.port } := by
  rcases bitWrite_eq_next h with ⟨-, -, rfl⟩ | ⟨-, -, -, rfl⟩ | ⟨-, -, -, u, hu, rfl⟩
  · rfl
  · rfl
  · obtain ⟨hp, -, hr, -, hrd, he, hd, hq, hh⟩ := orBytes_frame hu
    simp only [State.setWriter, ← hp, ← hr, ← hrd, ← he, ← hd, ← hq, ← hh]

/-- ENC.SYM is a BitWrite, followed by the account of the symbol unless the BitWrite failed (R172). -/
theorem execEncSym_eq_next {c : Byte} {s t : State} (h : execEncSym c s = .next t) :
    ∃ e u, bitWrite (code (symbolDelta c s)).1 (code (symbolDelta c s)).2 s = .next (e, u) ∧
      (t = u ∨ t = accountSymbol c (code (symbolDelta c s)).2 u) := by
  obtain ⟨⟨e, u⟩, hu, ht⟩ := chain_eq_next h
  cases e with
  | ok => cases ht; exact ⟨.ok, u, hu, .inr rfl⟩
  | fail => cases ht; exact ⟨.fail, u, hu, .inl rfl⟩

/-! ## A property kept by the shared operations is kept by every command -/

/-- `P` is kept by each operation that the commands are made of, and does not depend on STATUS, RESULT, the encoder registers or the
decoder's own registers. -/
structure KeptByOperations (P : State → Prop) : Prop where
  registers : ∀ {s : State} (f : ErrorFlags) (r : BitVec 21) (e : EncoderRegs) (d : DecoderRegs), P s →
    P { s with flags := f, result := r, enc := e, dec := d }
  bitWrite : ∀ {v : BitVec 16} {n : Nat} {s t : State} {e : WriteEnd}, P s → bitWrite v n s = .next (e, t) → P t
  rent : ∀ {n : Nat} {s t : State}, n ≤ rentMax → P s → rent n s = .next t → P t
  advance : ∀ (n : Nat) {s : State}, P s → P (advance n s)
  emptied : ∀ {s : State}, P s → P (s.setReader { s.reader with acc := 0#16, cnt := 0#5 })

namespace KeptByOperations

variable {P : State → Prop} (hP : KeptByOperations P) {s t : State}
include hP

theorem raise (e : Err) (h : P s) : P (raise e s) := hP.registers (s.flags.set e) s.result s.enc s.dec h

theorem setDec (d : DecoderRegs) (h : P s) : P (s.setDec d) := hP.registers s.flags s.result s.enc d h

theorem setEnc (e : EncoderRegs) (h : P s) : P (s.setEnc e) := hP.registers s.flags s.result e s.dec h

theorem setResult (r : BitVec 21) (h : P s) : P (s.setResult r) := hP.registers s.flags r s.enc s.dec h

theorem writeField {v : BitVec 16} {n : Nat} (h : P s) (ht : writeField v n s = .next t) : P t := by
  obtain ⟨e, he⟩ := writeField_eq_next ht
  exact hP.bitWrite h he

theorem consumeCode (h : P s) : P (consumeCode s) := by
  unfold Machine.consumeCode
  split
  · exact hP.setDec _ (hP.advance 9 h)
  · exact hP.setDec _ (hP.advance 6 h)

theorem decodeStep (h : P s) (ht : decodeStep s = .next t) : P t := by
  obtain ⟨u, hu, hut⟩ := chain_eq_next ht
  cases hut
  exact hP.consumeCode (hP.rent (le_refl rentMax) h hu)

theorem execWfield {n : BitVec 5} {v : BitVec 16} (h : P s) (ht : execWfield n v s = .next t) : P t := by
  unfold Machine.execWfield at ht
  split at ht
  · exact hP.writeField h ht
  · cases ht; exact hP.raise .ill h

theorem execRent {n : BitVec 5} (h : P s) (ht : execRent n s = .next t) : P t := by
  unfold Machine.execRent at ht
  split at ht
  · rename_i hn
    obtain ⟨u, hu, hut⟩ := chain_eq_next ht
    cases hut
    exact hP.setResult _ (hP.rent hn h hu)
  · cases ht; exact hP.raise .ill h

theorem execRadv {n : BitVec 5} (h : P s) (ht : execRadv n s = .next t) : P t := by
  unfold Machine.execRadv at ht
  split at ht
  · cases ht; exact hP.advance _ h
  · cases ht; exact hP.raise .ill h

theorem execEncSym {c : Byte} (h : P s) (ht : execEncSym c s = .next t) : P t := by
  obtain ⟨e, u, hu, rfl | rfl⟩ := execEncSym_eq_next ht
  · exact hP.bitWrite h hu
  · exact hP.setEnc _ (hP.bitWrite h hu)

theorem execDecInit (h : P s) (ht : execDecInit s = .next t) : P t := by
  have hseed : P (seedDecoder s) := hP.setDec _ (hP.emptied h)
  unfold Machine.execDecInit at ht
  split at ht
  · cases ht; exact hseed
  · exact hP.decodeStep hseed ht

theorem execDecNext (h : P s) (ht : execDecNext s = .next t) : P t := by
  unfold Machine.execDecNext at ht
  split at ht
  · cases ht; exact hP.raise .dend h
  · simp only at ht
    split at ht
    · cases ht; exact hP.setDec _ h
    · exact hP.decodeStep (hP.setDec _ h) ht

/-- Every command keeps what the shared operations keep. -/
theorem exec {i : Instr} (h : P s) (ht : exec i s = .next t) : P t := by
  cases i with
  | nop => cases ht; exact h
  | xlat b => cases ht; exact hP.setResult _ h
  | wbit bit => exact hP.writeField h ht
  | wbyte b => exact hP.writeField h ht
  | wfield n v => exact hP.execWfield h ht
  | rent n => exact hP.execRent h ht
  | radv n => exact hP.execRadv h ht
  | encInit => cases ht; exact hP.setEnc _ h
  | encSym c => exact hP.execEncSym h ht
  | measSym c => cases ht; exact hP.setEnc _ h
  | decInit => exact hP.execDecInit h ht
  | decNext => exact hP.execDecNext h ht

/-- Every command word, legal or not, keeps what the shared operations keep (R85, R111). -/
theorem executeCommand {w : Word} (h : P s) (ht : executeCommand w s = .next t) : P t := by
  unfold Machine.executeCommand at ht
  split at ht
  · cases ht; exact hP.raise .ill h
  · exact hP.exec h ht

end KeptByOperations

/-! ## The reader invariant (R43) -/

/-- A byte pulled while R_CNT is at most 8 lands just above the valid bits (R140). -/
theorem State.ReaderInv.afterPull {s : State} (h : s.ReaderInv) (hc : s.reader.cnt.toNat ≤ 8) : s.afterPull.ReaderInv := by
  obtain ⟨-, hz⟩ := h
  have hcnt : s.afterPull.reader.cnt.toNat = s.reader.cnt.toNat + 8 := by
    show (s.reader.cnt + 8#5).toNat = _
    rw [BitVec.toNat_add]
    exact Nat.mod_eq_of_lt (by simpa using by omega)
  refine ⟨by rw [hcnt]; unfold regW; omega, fun k hk hle => ?_⟩
  rw [hcnt] at hle
  show (s.reader.acc ||| BitVec.setWidth 16 _ <<< s.reader.cnt.toNat).getLsbD k = false
  rw [BitVec.getLsbD_or, hz k hk (by omega), BitVec.getLsbD_shiftLeft, BitVec.getLsbD_setWidth,
    BitVec.getLsbD_of_ge _ _ (by omega : 8 ≤ k - s.reader.cnt.toNat)]
  simp

/-- Advance shifts the zeros above R_CNT down with the valid bits (R141). -/
theorem State.ReaderInv.advance {s : State} (n : Nat) (h : s.ReaderInv) : (advance n s).ReaderInv := by
  obtain ⟨hc, hz⟩ := h
  refine ⟨by rw [advance_cnt]; omega, fun k hk hle => ?_⟩
  rw [advance_cnt] at hle
  have hacc : (Machine.advance n s).reader.acc = s.reader.acc >>> n := by rw [advance_frame]
  rw [hacc, BitVec.getLsbD_ushiftRight]
  by_cases hin : n + k < 16
  · exact hz (n + k) hin (by omega)
  · exact BitVec.getLsbD_of_ge _ _ (by omega)

theorem keptByOperations_readerInv : KeptByOperations State.ReaderInv where
  registers := fun _ _ _ _ h => h
  bitWrite := fun h ht => by rw [bitWrite_frame ht]; exact h
  rent := fun hn h ht => rentLoop_induct ht h (fun _ hu hlt _ => hu.afterPull (by unfold rentMax at hn; omega))
  advance := fun n _ h => h.advance n
  emptied := fun _ => ⟨Nat.zero_le _, fun k _ _ => BitVec.getLsbD_zero⟩

/-- Settles O25: R43's invariant is kept by each shared operation, so by each command. -/
theorem commandsKeepReaderInvariant : Obligations.CommandsKeepReaderInvariant :=
  fun _ _ _ h ht => keptByOperations_readerInv.exec h ht

/-! ## The invariant of every step -/

theorem State.Inv.bitWrite {v : BitVec 16} {n : Nat} {s t : State} {e : WriteEnd} (h : s.Inv)
    (ht : bitWrite v n s = .next (e, t)) : t.Inv := by
  rcases bitWrite_eq_next ht with ⟨-, -, rfl⟩ | ⟨-, -, -, rfl⟩ | ⟨-, -, -, u, hu, rfl⟩
  · exact h
  · exact h
  · obtain ⟨-, hra, hrc, hwf, hbelow⟩ := h
    have hp := (orBytes_frame hu).params
    have hr := (orBytes_frame hu).reader
    have hw : u.mem.wf = true := orBytes_wf hu hwf
    refine ⟨?_, ?_, ?_, hw, ?_⟩
    · rw [State.setWriter_params, hp]; exact wrapAddr_lt _ _
    · simpa [hp, hr] using hra
    · simpa [hr] using hrc
    · simpa [hp] using orBytes_below hu hbelow

theorem State.Inv.rent {n : Nat} {s t : State} (hn : n ≤ rentMax) (h : s.Inv) (ht : rent n s = .next t) : t.Inv := by
  obtain ⟨hwa, hra, hrc, hwf, hbelow⟩ := h
  obtain ⟨hra', hrc'⟩ := rent_bounds ht hn hra hrc
  rw [rent_frame ht]
  exact ⟨hwa, hra', hrc', hwf, hbelow⟩

theorem State.Inv.advance {s : State} (n : Nat) (h : s.Inv) : (advance n s).Inv := by
  obtain ⟨hwa, hra, hrc, hwf, hbelow⟩ := h
  have hc : (Machine.advance n s).reader.cnt.toNat ≤ regW := by rw [advance_cnt]; omega
  rw [advance_frame] at hc ⊢
  exact ⟨hwa, hra, hc, hwf, hbelow⟩

theorem keptByOperations_inv : KeptByOperations State.Inv where
  registers := fun _ _ _ _ h => h
  bitWrite := fun h ht => h.bitWrite ht
  rent := fun hn h ht => h.rent hn ht
  advance := fun n _ h => h.advance n
  emptied := fun ⟨hwa, hra, _, hmem⟩ => ⟨hwa, hra, Nat.zero_le _, hmem⟩

theorem legalCount_le (v : Word) : (legalCount v).toNat ≤ regW := by
  unfold legalCount
  rw [BitVec.toNat_ofNat]
  exact le_trans (Nat.mod_le _ _) (min_le_right _ _)

/-- Every register's legal-value rule keeps the invariant (R29, R32, R35). -/
theorem State.Inv.writeReg {s : State} (r : Reg) (v : Word) (h : s.Inv) : (writeReg r v s).Inv := by
  obtain ⟨hwa, hra, hrc, hmem⟩ := h
  cases r with
  | wAddr => exact ⟨wrapAddr_lt _ _, hra, hrc, hmem⟩
  | rAddr => exact ⟨hwa, wrapAddr_lt _ _, hrc, hmem⟩
  | rCnt => exact ⟨hwa, hra, legalCount_le v, hmem⟩
  | id | config | cmd | status | result | wLen | wOff | rLen | rAcc | ePrev | eBits | eBytes | dPrev | dRem | dOut =>
    exact ⟨hwa, hra, hrc, hmem⟩

theorem State.Inv.writeOffset {off : Nat} {v : Word} {s t : State} (h : s.Inv) (ht : writeOffset off v s = .next t) : t.Inv := by
  unfold Machine.writeOffset at ht
  split at ht
  · cases ht; exact h
  · split at ht
    · exact keptByOperations_inv.executeCommand h ht
    · cases ht; exact h.writeReg _ _

theorem hostByteAccess_eq_next {a : Nat} {s t u : State} (h : hostByteAccess a s t = .next u) :
    u = t ∧ a < s.params.space ∧ s.params.isDevice a = false ∧ s.params.memAdmit a = true := by
  unfold hostByteAccess at h
  split at h
  · cases h
  · split at h
    · cases h
    · split at h
      · cases h
        exact ⟨rfl, by omega, by simpa using ‹¬ s.params.isDevice a = true›, ‹_›⟩
      · cases h

theorem State.Inv.resetRegisters {s : State} (h : s.Inv) : (resetRegisters s).Inv := by
  obtain ⟨-, -, -, hmem⟩ := h
  exact ⟨space_pos s.params, space_pos s.params, Nat.zero_le _, hmem⟩

/-- A register access that goes on either lies outside the window and changes nothing, or is an aligned word (R23). -/
theorem hostAccess_regWrite_eq_next {addr : Nat} {size : AccessSize} {v : Word} {s t : State}
    (h : hostAccess (.regWrite addr size v) s = .next t) : t = s ∨ writeOffset (addr - s.params.base) v s = .next t := by
  unfold hostAccess at h
  simp only at h
  split at h
  · split at h
    · exact .inr h
    · cases h
  · cases h; exact .inl rfl

theorem hostAccess_regRead_eq_next {addr : Nat} {size : AccessSize} {s t : State}
    (h : hostAccess (.regRead addr size) s = .next t) : t = s ∨ t = s.logRead (readOffset (addr - s.params.base) s) := by
  unfold hostAccess at h
  simp only at h
  split at h
  · split at h
    · cases h; exact .inr rfl
    · cases h
  · cases h; exact .inl rfl

/-- Whatever the host does next keeps the invariant. -/
theorem State.Inv.hostAccess {op : HostOp} {s t : State} (h : s.Inv) (ht : hostAccess op s = .next t) : t.Inv := by
  cases op with
  | regRead addr size =>
    obtain rfl | rfl := hostAccess_regRead_eq_next ht
    · exact h
    · exact h
  | regWrite addr size v =>
    obtain rfl | hw := hostAccess_regWrite_eq_next ht
    · exact h
    · exact h.writeOffset hw
  | memLoad a =>
    obtain ⟨rfl, -⟩ := hostByteAccess_eq_next ht
    exact h
  | memStore a b =>
    obtain ⟨rfl, ha, -⟩ := hostByteAccess_eq_next ht
    obtain ⟨hwa, hra, hrc, hwf, hbelow⟩ := h
    exact ⟨hwa, hra, hrc, Memory.wf_write hwf a b, Memory.below_write hbelow ha b⟩
  | reset => cases ht; exact h.resetRegisters
  | resetDuring w => cases ht; exact h.resetRegisters

/-- Settles O50: an idle step changes nothing, and every other step is one host access. -/
theorem stepKeepsInvariant : Obligations.StepKeepsInvariant := by
  intro s t h ht
  unfold step at ht
  split at ht
  · cases ht; exact h
  · rename_i op rest _
    have hq : (s.setQueue rest).Inv := h
    exact hq.hostAccess ht

/-- Settles O51, by evaluation at the fixed reset state. -/
theorem resetSatisfiesInvariant : Obligations.ResetSatisfiesInvariant := ⟨by decide, by decide, rfl⟩

end Sys2Proof.Machine
end

section
/-! SUPPORT. The host's aligned words at the register window (10_state.md R22, R23). -/

namespace Sys2Proof.Machine

theorem touchesWindow_eq_true {p : Params} {addr : Nat} {size : AccessSize} :
    touchesWindow p addr size = true ↔ addr < p.base + windowBytes ∧ p.base < addr + size.bytes := by
  simp only [touchesWindow, Bool.and_eq_true, decide_eq_true_eq]

theorem alignedWord_eq_true {addr : Nat} {size : AccessSize} : alignedWord addr size = true ↔ size = .word ∧ addr % 4 = 0 := by
  simp [alignedWord]

theorem touchesWindow_word (p : Params) {off : Nat} (h : off < windowBytes) : touchesWindow p (p.base + off) .word = true :=
  touchesWindow_eq_true.mpr ⟨by omega, show p.base < p.base + off + 4 by omega⟩

/-- P_BASE is a multiple of 4 (log 3), so a word at an offset that is one is aligned. -/
theorem alignedWord_base (p : Params) {off : Nat} (h : off % 4 = 0) : alignedWord (p.base + off) .word = true :=
  alignedWord_eq_true.mpr ⟨rfl, by unfold Params.base; omega⟩

/-- A host write of an aligned word of the window (R23). -/
theorem hostAccess_regWrite_word (s : State) {off : Nat} (v : Word) (hlt : off < windowBytes) (ha : off % 4 = 0) :
    hostAccess (.regWrite (s.params.base + off) .word v) s = writeOffset off v s := by
  simp only [hostAccess, touchesWindow_word _ hlt, alignedWord_base _ ha, if_true, Nat.add_sub_cancel_left]

/-- A host write of CMD issues the command (R26). -/
theorem writeOffset_cmd (w : Word) (s : State) : writeOffset 8 w s = executeCommand w s := rfl

theorem executeCommand_of_decode {w : Word} {i : Instr} (h : decode w = .ok i) (s : State) : executeCommand w s = exec i s := by
  rw [executeCommand, h]

/-- Settles O5: the access is an aligned word of the window, at the offset of CMD. -/
theorem stepRunsTheDecodedCommand : Obligations.StepRunsTheDecodedCommand := by
  refine ⟨fun s w i rest hq hd => ?_, fun s hq => by rw [step, hq]⟩
  calc step s = hostAccess (.regWrite (s.params.base + 8) .word w) (s.setQueue rest) := by rw [step, hq]
    _ = writeOffset 8 w (s.setQueue rest) := hostAccess_regWrite_word (s.setQueue rest) w (by decide) (by decide)
    _ = executeCommand w (s.setQueue rest) := writeOffset_cmd w _
    _ = exec i { s with hostQueue := rest } := executeCommand_of_decode hd _

/-- Settles O9: the access counts as one to the window and is not an aligned word. -/
theorem unalignedOrNarrowAccessIsRefused : Obligations.UnalignedOrNarrowAccessIsRefused := by
  intro s addr size v hlo hhi hbad
  have hw : touchesWindow s.params addr size = true := touchesWindow_eq_true.mpr ⟨hlo, hhi⟩
  have ha : ¬ alignedWord addr size = true := by
    rw [alignedWord_eq_true]
    rintro ⟨hs, hm⟩
    exact hbad.elim (absurd hs) (absurd hm)
  constructor
  · rw [hostAccess, if_pos hw, if_neg ha]
  · rw [hostAccess, if_pos hw, if_neg ha]

end Sys2Proof.Machine
end

section
/-! SUPPORT. Which error bits a command sets (10_state.md R27, 60_exceptions.md R230, R236). -/

namespace Sys2Proof.Machine

/-- From `s` to `t` no error bit has changed, or one of `es` has been set. -/
def RaisesAtMostOneOf (es : List Err) (s t : State) : Prop := t.flags = s.flags ∨ ∃ e ∈ es, t.flags = s.flags.set e

theorem RaisesAtMostOneOf.mono {es fs : List Err} {s t : State} (h : RaisesAtMostOneOf es s t) (hs : es ⊆ fs) :
    RaisesAtMostOneOf fs s t :=
  h.imp_right fun ⟨e, he, ht⟩ => ⟨e, hs he, ht⟩

theorem RaisesAtMostOneOf.congr {es : List Err} {s s' t t' : State} (h : RaisesAtMostOneOf es s t) (hs : s'.flags = s.flags)
    (ht : t'.flags = t.flags) : RaisesAtMostOneOf es s' t' := by
  unfold RaisesAtMostOneOf
  rw [hs, ht]
  exact h

theorem bitWrite_raises {v : BitVec 16} {n : Nat} {s : State} {e : WriteEnd} {t : State} (h : bitWrite v n s = .next (e, t)) :
    RaisesAtMostOneOf [.wovf] s t := by
  rcases bitWrite_eq_next h with ⟨-, -, rfl⟩ | ⟨-, -, -, rfl⟩ | ⟨-, -, -, u, hu, rfl⟩
  · exact .inl rfl
  · exact .inr ⟨.wovf, by decide, rfl⟩
  · exact .inl (orBytes_frame hu).flags

theorem writeField_raises {v : BitVec 16} {n : Nat} {s t : State} (h : writeField v n s = .next t) :
    RaisesAtMostOneOf [.wovf] s t := by
  obtain ⟨e, he⟩ := writeField_eq_next h
  exact bitWrite_raises he

theorem advance_raises (n : Nat) (s : State) : RaisesAtMostOneOf [.runder] s (advance n s) := by
  rw [advance_frame]
  by_cases hc : s.reader.cnt.toNat < n
  · exact .inr ⟨.runder, by decide, if_pos hc⟩
  · exact .inl (if_neg hc)

theorem consumeCode_raises (s : State) : RaisesAtMostOneOf [.runder] s (consumeCode s) := by
  unfold consumeCode
  split
  · exact advance_raises 9 s
  · exact advance_raises 6 s

theorem decodeStep_raises {s t : State} (h : decodeStep s = .next t) : RaisesAtMostOneOf [.runder] s t := by
  obtain ⟨u, hu, ht⟩ := chain_eq_next h
  cases ht
  have hflags : u.flags = s.flags := by rw [rent_frame hu]
  exact (consumeCode_raises u).congr hflags.symm rfl

theorem execDecInit_raises {s t : State} (h : execDecInit s = .next t) : RaisesAtMostOneOf [.runder] s t := by
  unfold execDecInit at h
  split at h
  · cases h; exact .inl rfl
  · exact decodeStep_raises (s := seedDecoder s) h

theorem execDecNext_raises {s t : State} (h : execDecNext s = .next t) : RaisesAtMostOneOf [.dend, .runder] s t := by
  unfold execDecNext at h
  split at h
  · cases h; exact .inr ⟨.dend, by decide, rfl⟩
  · simp only at h
    split at h
    · cases h; exact .inl rfl
    · have hd := decodeStep_raises h
      exact RaisesAtMostOneOf.mono (s := s) hd (by decide)

/-- A legal command changes no error bit or sets one of those R236 lists for it. -/
theorem exec_raises {i : Instr} {s t : State} (hwf : i.wellFormed = true) (h : exec i s = .next t) :
    RaisesAtMostOneOf (mayRaise i) s t := by
  cases i with
  | nop => cases h; exact .inl rfl
  | xlat b => cases h; exact .inl rfl
  | wbit bit => exact writeField_raises h
  | wbyte b => exact writeField_raises h
  | wfield n v =>
    have hn : countOperand n ≤ wfieldMax := of_decide_eq_true hwf
    rw [exec, execWfield, if_pos hn] at h
    exact writeField_raises h
  | rent n =>
    have hn : countOperand n ≤ rentMax := of_decide_eq_true hwf
    rw [exec, execRent, if_pos hn] at h
    obtain ⟨u, hu, ht⟩ := chain_eq_next h
    cases ht
    exact .inl (by rw [State.setResult_flags, rent_frame hu])
  | radv n =>
    have hn : countOperand n ≤ radvMax := of_decide_eq_true hwf
    rw [exec, execRadv, if_pos hn] at h
    cases h
    exact advance_raises _ s
  | encInit => cases h; exact .inl rfl
  | encSym c =>
    obtain ⟨e, u, hu, ht⟩ := execEncSym_eq_next h
    have hflags : t.flags = u.flags := by rcases ht with rfl | rfl <;> rfl
    exact (bitWrite_raises hu).congr rfl hflags
  | measSym c => cases h; exact .inl rfl
  | decInit => exact execDecInit_raises h
  | decNext => exact execDecNext_raises h

/-- Setting one error's bit makes no other bit read as set. -/
theorem ErrorFlags.eq_of_get_set {f : ErrorFlags} {e e' : Err} (h : (f.set e).get e' = true) (hf : f.get e' = false) : e' = e := by
  by_contra hne
  rw [get_set_of_ne f hne, hf] at h
  cases h

/-- Settles O41: the new flags are the old ones, or the old ones with one bit of `mayRaise` set. -/
theorem errorsAreStickyAndAtMostOne : Obligations.ErrorsAreStickyAndAtMostOne := by
  intro i s t hwf ht
  obtain hsame | ⟨e₀, hmem, hset⟩ := exec_raises hwf ht
  · rw [hsame]
    have hno : ∀ {e}, s.flags.get e = true → s.flags.get e = false → False := fun h1 h2 => by rw [h1] at h2; cases h2
    exact ⟨fun _ h => h, fun _ h1 h2 => (hno h1 h2).elim, fun _ _ h1 h2 _ _ => (hno h1 h2).elim⟩
  · rw [hset]
    refine ⟨fun e => ErrorFlags.get_of_get_set _ e₀ e, fun e h1 h2 => ?_, fun e e' h1 h2 h3 h4 => ?_⟩
    · rw [ErrorFlags.eq_of_get_set h1 h2]
      exact hmem
    · rw [ErrorFlags.eq_of_get_set h1 h2, ErrorFlags.eq_of_get_set h3 h4]

end Sys2Proof.Machine
end

section
/-! SUPPORT. What a decoding command depends on: the parameters, the six decoder registers and the bytes it reads (10_state.md R44,
R45; 20_memory.md R77; 45_decoder.md R197). -/

namespace Sys2Proof.Machine

/-- The same parameters and the same six decoder registers (R44). -/
structure SameDecoder (s u : State) : Prop where
  params : u.params = s.params
  reader : u.reader = s.reader
  dec    : u.dec = s.dec

theorem SameDecoder.setDec {s u : State} (h : SameDecoder s u) (d : DecoderRegs) : SameDecoder (s.setDec d) (u.setDec d) :=
  ⟨h.params, h.reader, rfl⟩

theorem SameDecoder.raise {s u : State} (h : SameDecoder s u) (e : Err) : SameDecoder (raise e s) (raise e u) :=
  ⟨h.params, h.reader, h.dec⟩

theorem SameDecoder.advance {s u : State} (h : SameDecoder s u) (n : Nat) : SameDecoder (advance n s) (advance n u) := by
  rw [advance_frame n s, advance_frame n u]
  exact ⟨h.params, by rw [h.reader], h.dec⟩

theorem SameDecoder.applyDelta {s u : State} (h : SameDecoder s u) (d : Byte) : SameDecoder (applyDelta d s) (applyDelta d u) :=
  ⟨h.params, h.reader, by rw [applyDelta_dec, applyDelta_dec, h.dec]⟩

theorem SameDecoder.consumeCode {s u : State} (h : SameDecoder s u) : SameDecoder (consumeCode s) (consumeCode u) := by
  unfold Machine.consumeCode
  rw [h.reader]
  split
  · exact (h.advance 9).applyDelta _
  · exact (h.advance 6).applyDelta _

theorem SameDecoder.seedDecoder {s u : State} (h : SameDecoder s u) : SameDecoder (seedDecoder s) (seedDecoder u) :=
  ⟨h.params, by simp [Machine.seedDecoder, h.reader], by simp [Machine.seedDecoder, h.dec]⟩

theorem SameDecoder.dOut {s u : State} (h : SameDecoder s u) : readReg .dOut u = readReg .dOut s := by
  show (u.dOut).setWidth 32 = (s.dOut).setWidth 32
  rw [State.dOut, State.dOut, h.params, h.dec]

/-- `f` keeps memory, and it does the same, with the same accesses, from every state with the same parameters and decoder registers whose
memory agrees on the bytes that `f` reads. -/
def DependsOnlyOnReads (f : State → Result) : Prop :=
  ∀ s t, f s = .next t → t.mem = s.mem ∧ ∃ l, t.port = s.port ++ l ∧
    ∀ u, SameDecoder s u → (∀ a, .read a ∈ l → s.mem.read a = u.mem.read a) →
      ∃ w, f u = .next w ∧ SameDecoder t w ∧ w.port = u.port ++ l

namespace DependsOnlyOnReads

/-- An update that makes no access and computes the decoder registers from themselves. -/
theorem update {g : State → State} (hmem : ∀ s, (g s).mem = s.mem) (hport : ∀ s, (g s).port = s.port)
    (hg : ∀ {s u}, SameDecoder s u → SameDecoder (g s) (g u)) : DependsOnlyOnReads (fun s => .next (g s)) := by
  intro s t ht
  cases ht
  exact ⟨hmem s, [], by simp [hport], fun u hu _ => ⟨g u, rfl, hg hu, by simp [hport]⟩⟩

/-- The second operation starts from equal decoder registers and from memory that agrees on what it reads. -/
theorem chain {f g : State → Result} (hf : DependsOnlyOnReads f) (hg : DependsOnlyOnReads g) :
    DependsOnlyOnReads (fun s => chain (f s) g) := by
  intro s t ht
  obtain ⟨m, hm, hmt⟩ := chain_eq_next ht
  obtain ⟨hmem, l, hl, hrep⟩ := hf s m hm
  obtain ⟨hmem', l', hl', hrep'⟩ := hg m t hmt
  refine ⟨hmem'.trans hmem, l ++ l', by rw [hl', hl, List.append_assoc], fun u hu hread => ?_⟩
  obtain ⟨v, hv, hsame, hvl⟩ := hrep u hu (fun a ha => hread a (List.mem_append_left _ ha))
  have hvmem : v.mem = u.mem := (hf u v hv).1
  obtain ⟨w, hw, hsame', hwl⟩ := hrep' v hsame (fun a ha => by
    rw [hmem, hvmem]
    exact hread a (List.mem_append_right _ ha))
  exact ⟨w, by simp only [hv, chain_next, hw], hsame', by rw [hwl, hvl, List.append_assoc]⟩

/-- A choice by the decoder registers. -/
theorem ite {c : State → Prop} [DecidablePred c] {f g : State → Result} (hc : ∀ {s u}, SameDecoder s u → (c u ↔ c s))
    (hf : DependsOnlyOnReads f) (hg : DependsOnlyOnReads g) : DependsOnlyOnReads (fun s => if c s then f s else g s) := by
  intro s t ht
  by_cases h : c s
  · obtain ⟨hmem, l, hl, hrep⟩ := hf s t (by simpa only [if_pos h] using ht)
    exact ⟨hmem, l, hl, fun u hu hread => by simpa only [if_pos ((hc hu).mpr h)] using hrep u hu hread⟩
  · obtain ⟨hmem, l, hl, hrep⟩ := hg s t (by simpa only [if_neg h] using ht)
    exact ⟨hmem, l, hl, fun u hu hread => by simpa only [if_neg (fun k => h ((hc hu).mp k))] using hrep u hu hread⟩

/-- The one access of a decoding command: it reads the byte at R_ADDR (R140). -/
theorem pullByte : DependsOnlyOnReads pullByte := by
  intro s t ht
  obtain ⟨rfl, hdev, hadm⟩ := accessByte_eq_next ht
  refine ⟨rfl, [.read (s.reader.addr.toNat % s.params.space)], rfl, fun u hu hread => ?_⟩
  have hbyte := hread _ (List.mem_singleton_self _)
  refine ⟨u.afterPull, ?_, ⟨hu.params, ?_, hu.dec⟩, ?_⟩
  · rw [pullByte_eq]
    refine accessByte_next ?_ ?_
    · rw [State.readerView, hu.params, hu.reader]; exact hdev
    · rw [hu.params, hu.reader]; exact hadm
  · simp [State.afterPull, hu.params, hu.reader, hbyte]
  · simp [State.afterPull, hu.params, hu.reader]

theorem stay : DependsOnlyOnReads .next := update (g := id) (fun _ => rfl) (fun _ => rfl) id

theorem rentLoop (n fuel : Nat) : DependsOnlyOnReads (rentLoop n fuel) := by
  induction fuel with
  | zero => exact stay
  | succ fuel ih => exact ite (fun h => by rw [h.reader]) (pullByte.chain ih) stay

theorem decodeStep : DependsOnlyOnReads decodeStep :=
  (rentLoop 9 9).chain (update (fun s => by rw [consumeCode_frame]) (fun s => by rw [consumeCode_frame]) SameDecoder.consumeCode)

theorem execRent (n : BitVec 5) : DependsOnlyOnReads (execRent n) :=
  ite (fun _ => Iff.rfl)
    ((rentLoop _ _).chain (update (fun _ => rfl) (fun _ => rfl) (fun h => ⟨h.params, h.reader, h.dec⟩)))
    (update (fun _ => rfl) (fun _ => rfl) (fun h => h.raise .ill))

theorem execDecInit : DependsOnlyOnReads execDecInit := by
  have hseed : DependsOnlyOnReads (fun s => .next (seedDecoder s)) := update (fun _ => rfl) (fun _ => rfl) SameDecoder.seedDecoder
  exact ite (fun h => by rw [h.dec]) hseed (hseed.chain decodeStep)

theorem execDecNext : DependsOnlyOnReads execDecNext := by
  have hcount : DependsOnlyOnReads (fun s => .next (s.setDec { s.dec with rem := s.dec.rem - 1#32 })) :=
    update (fun _ => rfl) (fun _ => rfl) (fun h => by rw [h.dec]; exact h.setDec _)
  exact ite (fun h => by rw [h.dec]) (update (fun _ => rfl) (fun _ => rfl) (fun h => h.raise .dend))
    (ite (c := fun s => s.dec.rem - 1#32 = 0#32) (fun h => by rw [h.dec]) hcount (hcount.chain decodeStep))

theorem exec {i : Instr} (hi : i = .decInit ∨ i = .decNext ∨ ∃ n, i = .rent n) : DependsOnlyOnReads (exec i) := by
  obtain rfl | rfl | ⟨n, rfl⟩ := hi
  · exact execDecInit
  · exact execDecNext
  · exact execRent n

theorem runCommands_decNext (n : Nat) : DependsOnlyOnReads (runCommands (List.replicate n .decNext)) := by
  induction n with
  | zero => exact stay
  | succ n ih => exact execDecNext.chain ih

end DependsOnlyOnReads

/-- Settles O39: the two memories are equal, so they agree on whatever the DEC.NEXTs read. -/
theorem decodingDependsOnlyOnSixRegisters : Obligations.DecodingDependsOnlyOnSixRegisters := by
  intro n s u t hparams hmem hreader hdec ht
  obtain ⟨-, l, hl, hrep⟩ := DependsOnlyOnReads.runCommands_decNext n s t ht
  obtain ⟨w, hw, hsame, hwl⟩ := hrep u ⟨hparams.symm, hreader.symm, hdec.symm⟩ (fun a _ => by rw [hmem])
  exact ⟨w, l, hw, hsame.reader, hsame.dec, hsame.dOut, hl, hwl⟩

/-- Settles O40: the bytes on which the two memories agree are all that the command reads. -/
theorem unpulledBytesAreNotSeen : Obligations.UnpulledBytesAreNotSeen := by
  intro i s u t hi hparams hreader hdec ht hread
  obtain ⟨-, l, hl, hrep⟩ := DependsOnlyOnReads.exec hi s t ht
  have hdrop : t.port.drop s.port.length = l := by rw [hl, List.drop_left]
  rw [hdrop] at hread ⊢
  obtain ⟨w, hw, hsame, hwl⟩ := hrep u ⟨hparams.symm, hreader.symm, hdec.symm⟩ hread
  exact ⟨w, hw, hsame.reader, hsame.dec, by rw [hwl, List.drop_left]⟩

end Sys2Proof.Machine
end

section
/-! SUPPORT. Buffer memory as the host and the commands leave it: a canonical list is fixed by what it reads as, the host's store and load,
and the bits that a command cannot clear (20_memory.md R60, R66, R72). -/

namespace Sys2Proof.Machine

/-! ## The canonical form -/

theorem Memory.wfFrom_cons {lo k : Nat} {b : Byte} {m : Memory} :
    Memory.wfFrom lo ((k, b) :: m) = true ↔ lo ≤ k ∧ b ≠ Memory.unlisted ∧ Memory.wfFrom (k + 1) m = true := by
  simp only [wfFrom, Bool.and_eq_true, decide_eq_true_eq, and_assoc]

@[simp] theorem Memory.read_cons_self (k : Nat) (b : Byte) (m : Memory) : Memory.read ((k, b) :: m) k = b := if_pos rfl

theorem Memory.read_cons_of_ne {k a : Nat} (h : k ≠ a) (b : Byte) (m : Memory) : Memory.read ((k, b) :: m) a = m.read a :=
  if_neg h

/-- A canonical list that reads as unlisted everywhere has no entry. -/
theorem Memory.eq_nil_of_read {m : Memory} {lo : Nat} (hm : m.wfFrom lo = true) (h : ∀ a, m.read a = unlisted) : m = [] := by
  cases m with
  | nil => rfl
  | cons c rest =>
    obtain ⟨k, b⟩ := c
    obtain ⟨-, hb, -⟩ := wfFrom_cons.mp hm
    exact absurd (by simpa using h k) hb

/-- The first address of a canonical list is the least one that does not read as unlisted. -/
theorem Memory.first_le_of_read {k k' : Nat} {b b' : Byte} {m m' : Memory} {lo : Nat} (hm : wfFrom lo ((k, b) :: m) = true)
    (hm' : wfFrom lo ((k', b') :: m') = true) (h : ∀ a, read ((k, b) :: m) a = read ((k', b') :: m') a) : k' ≤ k := by
  obtain ⟨-, hb, -⟩ := wfFrom_cons.mp hm
  obtain ⟨-, hb', hrest'⟩ := wfFrom_cons.mp hm'
  by_contra hlt
  have hlow : wfFrom k' ((k', b') :: m') = true := wfFrom_cons.mpr ⟨le_refl _, hb', hrest'⟩
  have hk : b = unlisted := by
    calc b = read ((k', b') :: m') k := by rw [← h k, read_cons_self]
      _ = unlisted := read_of_wfFrom hlow (by omega)
  exact hb hk

theorem Memory.eq_of_read {m m' : Memory} {lo : Nat} (hm : m.wfFrom lo = true) (hm' : m'.wfFrom lo = true)
    (h : ∀ a, m.read a = m'.read a) : m = m' := by
  induction m generalizing m' lo with
  | nil => exact (eq_nil_of_read hm' fun a => (h a).symm).symm
  | cons c rest ih =>
    obtain ⟨k, b⟩ := c
    cases m' with
    | nil => exact eq_nil_of_read hm h
    | cons c' rest' =>
      obtain ⟨k', b'⟩ := c'
      obtain rfl : k = k' :=
        le_antisymm (first_le_of_read hm' hm fun a => (h a).symm) (first_le_of_read hm hm' h)
      obtain rfl : b = b' := by simpa using h k
      obtain ⟨-, -, hrest⟩ := wfFrom_cons.mp hm
      obtain ⟨-, -, hrest'⟩ := wfFrom_cons.mp hm'
      have htail : ∀ a, read rest a = read rest' a := fun a => by
        by_cases ha : a < k + 1
        · rw [read_of_wfFrom hrest ha, read_of_wfFrom hrest' ha]
        · have hne : k ≠ a := by omega
          rw [← read_cons_of_ne hne b rest, h a, read_cons_of_ne hne]
      rw [ih hrest hrest' htail]

/-- Settles O49, by induction on the two lists: both start at the least address that does not read as unlisted. -/
theorem canonicalMemoriesReadingAlikeAreEqual : Obligations.CanonicalMemoriesReadingAlikeAreEqual :=
  fun _ _ hm hm' h => Memory.eq_of_read hm hm' h

/-! ## The host's bytes -/

theorem hostByteAccess_next {a : Nat} {s t : State} (ha : a < s.params.space) (hd : s.params.isDevice a = false)
    (hadm : s.params.memAdmit a = true) : hostByteAccess a s t = .next t := by
  simp [hostByteAccess, Nat.not_le.mpr ha, hd, hadm]

/-- Settles O12: the load makes the same admission test as the store, and the memory is canonical, so it reads back the byte. -/
theorem hostStoreIsSeenByNextLoad : Obligations.HostStoreIsSeenByNextLoad := by
  rintro s t a b ⟨-, -, -, hwf, -⟩ ht
  obtain ⟨rfl, ha, hd, hadm⟩ := hostByteAccess_eq_next ht
  refine ⟨?_, fun c hc => Memory.read_write_of_ne s.mem b hc, rfl⟩
  rw [hostAccess, hostByteAccess_next (s := s.setMem (s.mem.write a b)) ha hd hadm, State.setMem_mem,
    Memory.read_write_self hwf, ← BitVec.ofNat_toNat]
  rfl

/-! ## No bit is cleared -/

/-- Every bit that is 1 in `m` is 1 in `m'`. -/
def Memory.BitsKept (m m' : Memory) : Prop := ∀ a j, (m.read a).getLsbD j = true → (m'.read a).getLsbD j = true

theorem orByte_bitsKept {v : View} {a : Nat} {x : Byte} {s t : State} (h : orByte v a x s = .next t) : s.mem.BitsKept t.mem := by
  intro b j hj
  rw [orByte_read h b]
  split
  · rw [BitVec.getLsbD_or, hj, Bool.true_or]
  · exact hj

theorem orBytes_bitsKept {v : View} {f : BitVec 24} {count i : Nat} {s t : State} (h : orBytes v f count i s = .next t) :
    s.mem.BitsKept t.mem := by
  induction count generalizing i s with
  | zero => cases h; exact fun _ _ hj => hj
  | succ count ih =>
    obtain ⟨u, hu, ht⟩ := chain_eq_next h
    exact fun b j hj => ih ht b j (orByte_bitsKept hu b j hj)

theorem bitWrite_bitsKept {v : BitVec 16} {n : Nat} {s t : State} {e : WriteEnd} (h : bitWrite v n s = .next (e, t)) :
    s.mem.BitsKept t.mem := by
  rcases bitWrite_eq_next h with ⟨-, -, rfl⟩ | ⟨-, -, -, rfl⟩ | ⟨-, -, -, u, hu, rfl⟩
  · exact fun _ _ hj => hj
  · exact fun _ _ hj => hj
  · exact orBytes_bitsKept (t := u) hu

/-- Only a BitWrite changes memory, and it only ORs (R66). -/
theorem keptByOperations_bitsKept (m : Memory) : KeptByOperations (fun s => m.BitsKept s.mem) where
  registers := fun _ _ _ _ h => h
  bitWrite := fun h ht a j hj => bitWrite_bitsKept ht a j (h a j hj)
  rent := fun _ h ht => by rw [rent_frame ht]; exact h
  advance := fun n _ h => by rw [advance_frame]; exact h
  emptied := fun h => h

/-- Settles O21: each shared operation keeps the bits that the memory before the command had set. -/
theorem noCommandClearsMemoryBits : Obligations.NoCommandClearsMemoryBits :=
  fun _ s _ ht => (keptByOperations_bitsKept s.mem).exec (fun _ _ hj => hj) ht

/-! ## The test for device memory in a view -/

/-- The distance from `b` up to `a` on a circle of `n` addresses. -/
theorem circle_distance {a b n : Nat} (ha : a < n) (hb : b < n) : (a + n - b) % n = if b ≤ a then a - b else a + n - b := by
  split
  · rename_i h
    rw [show a + n - b = a - b + n by omega, Nat.add_mod_right, Nat.mod_eq_of_lt (by omega)]
  · exact Nat.mod_eq_of_lt (by omega)

theorem View.covers_iff {space a : Nat} (v : View) (h : 0 < space) : v.covers space a = true ↔
    a < space ∧ (if v.start % space ≤ a then a - v.start % space else a + space - v.start % space) < v.len := by
  simp only [covers, Bool.and_eq_true, decide_eq_true_eq]
  exact and_congr_right fun ha => by rw [circle_distance ha (Nat.mod_lt _ h)]

/-- A view covers exactly the addresses of its bytes, modulo the space (20_memory.md R68). -/
theorem View.covers_iff_exists {space a : Nat} (v : View) (h : 0 < space) :
    v.covers space a = true ↔ ∃ i < v.len, a = (v.start + i) % space := by
  have hb : v.start % space < space := Nat.mod_lt _ h
  rw [v.covers_iff h]
  constructor
  · rintro ⟨ha, hdist⟩
    refine ⟨_, hdist, ?_⟩
    rw [← Nat.mod_add_mod]
    split
    · rw [show v.start % space + (a - v.start % space) = a by omega, Nat.mod_eq_of_lt ha]
    · rw [show v.start % space + (a + space - v.start % space) = a + space by omega, Nat.add_mod_right, Nat.mod_eq_of_lt ha]
  · rintro ⟨i, hi, rfl⟩
    have hmod : i % space < space := Nat.mod_lt _ h
    have hle : i % space ≤ i := Nat.mod_le _ _
    rw [Nat.add_mod_eq_ite]
    split <;> exact ⟨by omega, by split <;> omega⟩

theorem View.covers_add (v : View) {space i : Nat} (h : 0 < space) (hi : i < v.len) :
    v.covers space ((v.start + i) % space) = true := (v.covers_iff_exists h).mpr ⟨i, hi, rfl⟩

/-- A view of at least one byte covers the address it starts at. -/
theorem View.covers_start {space : Nat} (v : View) (h : 0 < space) (hl : 0 < v.len) : v.covers space (v.start % space) = true :=
  v.covers_add h hl

theorem region_holds_iff {r : Region} {a : Nat} : r.holds a = true ↔ r.lo ≤ a ∧ a ≤ r.hi := by
  simp only [Region.holds, Bool.and_eq_true, decide_eq_true_eq]

theorem View.meets_iff {space : Nat} (v : View) (r : Region) (h : 0 < space) :
    v.meets space r = true ↔ ∃ a, v.covers space a = true ∧ r.holds a = true := by
  simp only [meets, Bool.or_eq_true, Bool.and_eq_true, decide_eq_true_eq]
  constructor
  · rintro (⟨hlo, hcov⟩ | ⟨hlen, hin⟩)
    · exact ⟨r.lo, hcov, region_holds_iff.mpr ⟨le_refl _, hlo⟩⟩
    · exact ⟨_, v.covers_start h hlen, hin⟩
  · rintro ⟨a, hcov, hin⟩
    obtain ⟨ha, hdist⟩ := (v.covers_iff h).mp hcov
    obtain ⟨hlo, hhi⟩ := region_holds_iff.mp hin
    by_cases hstart : r.holds (v.start % space) = true
    · exact .inr ⟨by omega, hstart⟩
    · rw [region_holds_iff] at hstart
      exact .inl ⟨by omega, (v.covers_iff h).mpr ⟨by omega, by split at hdist <;> split <;> omega⟩⟩

theorem viewCoversDevice_iff {p : Params} {v : View} :
    p.viewCoversDevice v = true ↔ ∃ a, v.covers p.space a = true ∧ p.isDevice a = true := by
  simp only [Params.viewCoversDevice, Params.isDevice, List.any_eq_true, Bool.and_eq_true, View.meets_iff v _ (space_pos p)]
  constructor
  · rintro ⟨r, hr, hk, a, hcov, hin⟩
    exact ⟨a, hcov, r, hr, hk, hin⟩
  · rintro ⟨a, hcov, r, hr, hk, hin⟩
    exact ⟨r, hr, hk, a, hcov, hin⟩

/-- Settles O48: a view meets a region exactly if it holds the region's first address or the region holds the view's. -/
theorem deviceViewTestIsExact : Obligations.DeviceViewTestIsExact := fun _ _ => viewCoversDevice_iff

end Sys2Proof.Machine
end

section
/-! SUPPORT. A run of the machine is the host's accesses in order (20_memory.md R72, 40_control.md R110): no access looks at the list of
those still to come, or changes it (log 1). -/

namespace Sys2Proof.Machine

/-- `f` does the same with any other list of host accesses to come, and keeps that list. -/
def IgnoresQueue (f : State → Result) : Prop := ∀ q s t, f s = .next t → f (s.setQueue q) = .next (t.setQueue q)

theorem advance_setQueue (n : Nat) (q : List HostOp) (s : State) : advance n (s.setQueue q) = (advance n s).setQueue q := by
  rw [advance_frame, advance_frame]
  rfl

theorem consumeCode_setQueue (q : List HostOp) (s : State) : consumeCode (s.setQueue q) = (consumeCode s).setQueue q := by
  unfold consumeCode
  rw [State.setQueue_reader, advance_setQueue, advance_setQueue]
  split <;> rfl

theorem writeReg_setQueue (r : Reg) (v : Word) (q : List HostOp) (s : State) :
    writeReg r v (s.setQueue q) = (writeReg r v s).setQueue q := by
  cases r <;> rfl

theorem readOffset_setQueue (off : Nat) (q : List HostOp) (s : State) : readOffset off (s.setQueue q) = readOffset off s := by
  unfold readOffset
  split
  · rfl
  · rename_i r _
    cases r <;> rfl

namespace IgnoresQueue

theorem keeps {f : State → Result} (hf : IgnoresQueue f) {s t : State} (h : f s = .next t) : t.hostQueue = s.hostQueue := by
  have hsame : f s = .next (t.setQueue s.hostQueue) := hf s.hostQueue s t h
  rw [h] at hsame
  injection hsame with heq
  rw [heq, State.setQueue_hostQueue]

theorem update {g : State → State} (hg : ∀ q s, g (s.setQueue q) = (g s).setQueue q) : IgnoresQueue (fun s => .next (g s)) := by
  intro q s t ht
  cases ht
  simp only [hg]

theorem chain {f g : State → Result} (hf : IgnoresQueue f) (hg : IgnoresQueue g) : IgnoresQueue (fun s => chain (f s) g) := by
  intro q s t ht
  obtain ⟨u, hu, hut⟩ := chain_eq_next ht
  simp only [hf q s u hu, chain_next, hg q u t hut]

/-- A choice by something other than the list. -/
theorem ite {c : State → Prop} [DecidablePred c] {f g : State → Result} (hc : ∀ q s, c (s.setQueue q) ↔ c s)
    (hf : IgnoresQueue f) (hg : IgnoresQueue g) : IgnoresQueue (fun s => if c s then f s else g s) := by
  intro q s t ht
  by_cases h : c s
  · simpa only [if_pos ((hc q s).mpr h)] using hf q s t (by simpa only [if_pos h] using ht)
  · simpa only [if_neg (fun k => h ((hc q s).mp k))] using hg q s t (by simpa only [if_neg h] using ht)

theorem refused (r : Refusal) : IgnoresQueue (fun _ => .refused r) := fun _ _ _ h => by cases h

theorem fault (r : Fault) : IgnoresQueue (fun _ => .fault r) := fun _ _ _ h => by cases h

theorem stay : IgnoresQueue .next := update (g := id) fun _ _ => rfl

/-- One access of the port. -/
theorem accessByte {v : State → View} {a : State → Nat} {g : State → State} (hv : ∀ q s, v (s.setQueue q) = v s)
    (ha : ∀ q s, a (s.setQueue q) = a s) (hg : ∀ q s, g (s.setQueue q) = (g s).setQueue q) :
    IgnoresQueue (fun s => accessByte (v s) (a s) s (g s)) := by
  intro q s t ht
  obtain ⟨rfl, hdev, hadm⟩ := accessByte_eq_next ht
  simp only [hv, ha, hg]
  exact accessByte_next hdev hadm

theorem orByte {a : State → Nat} (ha : ∀ q s, a (s.setQueue q) = a s) (v : View) (m : Byte) :
    IgnoresQueue (fun s => orByte v (a s) m s) :=
  ite (c := fun _ => m = 0#8) (fun _ _ => Iff.rfl) stay
    (accessByte (fun _ _ => rfl) ha (fun q s => by rw [ha]; rfl))

theorem orBytes (v : View) (f : BitVec 24) (count i : Nat) : IgnoresQueue (orBytes v f count i) := by
  induction count generalizing i with
  | zero => exact stay
  | succ count ih => exact (orByte (a := fun s => (v.start + i) % s.params.space) (fun _ _ => rfl) v _).chain (ih (i + 1))

/-- A BitWrite, whose answer is a pair. -/
theorem bitWrite {v : BitVec 16} {n : Nat} {s t : State} {e : WriteEnd} (q : List HostOp) (h : bitWrite v n s = .next (e, t)) :
    Machine.bitWrite v n (s.setQueue q) = .next (e, t.setQueue q) := by
  rcases bitWrite_eq_next h with ⟨rfl, rfl, rfl⟩ | ⟨hn, hf, rfl, rfl⟩ | ⟨hn, hf, rfl, u, hu, rfl⟩
  · rfl
  · rw [Machine.bitWrite, if_neg hn, State.setQueue_writer, hf]
    rfl
  · have hu' := orBytes _ _ _ _ q s u hu
    rw [Machine.bitWrite, if_neg hn, State.setQueue_writer, if_pos hf]
    exact congrArg (fun x => Machine.chain x _) hu'

theorem writeField (v : BitVec 16) (n : Nat) : IgnoresQueue (writeField v n) := by
  intro q s t ht
  obtain ⟨e, he⟩ := writeField_eq_next ht
  rw [Machine.writeField, bitWrite q he]
  rfl

theorem execEncSym (c : Byte) : IgnoresQueue (execEncSym c) := by
  intro q s t ht
  obtain ⟨⟨e, u⟩, hu, ht⟩ := chain_eq_next ht
  have hu' : Machine.bitWrite (code (symbolDelta c (s.setQueue q))).1 (code (symbolDelta c (s.setQueue q))).2 (s.setQueue q) =
      .next (e, u.setQueue q) := bitWrite q hu
  rw [Machine.execEncSym, hu']
  cases e <;> cases ht <;> rfl

theorem pullByte : IgnoresQueue pullByte :=
  accessByte (g := State.afterPull) (fun _ _ => rfl) (fun _ _ => rfl) (fun _ _ => rfl)

theorem rentLoop (n fuel : Nat) : IgnoresQueue (rentLoop n fuel) := by
  induction fuel with
  | zero => exact stay
  | succ fuel ih => exact ite (fun _ _ => Iff.rfl) (pullByte.chain ih) stay

theorem decodeStep : IgnoresQueue decodeStep := (rentLoop 9 9).chain (update consumeCode_setQueue)

theorem execWfield (n : BitVec 5) (v : BitVec 16) : IgnoresQueue (execWfield n v) :=
  ite (fun _ _ => Iff.rfl) (writeField v _) (update fun _ _ => rfl)

theorem execRent (n : BitVec 5) : IgnoresQueue (execRent n) :=
  ite (fun _ _ => Iff.rfl) ((rentLoop _ _).chain (update fun _ _ => rfl)) (update fun _ _ => rfl)

theorem execRadv (n : BitVec 5) : IgnoresQueue (execRadv n) :=
  ite (fun _ _ => Iff.rfl) (update (advance_setQueue _)) (update fun _ _ => rfl)

theorem execDecInit : IgnoresQueue execDecInit := by
  have hseed : IgnoresQueue (fun s => .next (seedDecoder s)) := update fun _ _ => rfl
  exact ite (fun _ _ => Iff.rfl) hseed (hseed.chain decodeStep)

theorem execDecNext : IgnoresQueue execDecNext := by
  have hcount : IgnoresQueue (fun s => .next (s.setDec { s.dec with rem := s.dec.rem - 1#32 })) := update fun _ _ => rfl
  exact ite (fun _ _ => Iff.rfl) (update fun _ _ => rfl)
    (ite (c := fun s => s.dec.rem - 1#32 = 0#32) (fun _ _ => Iff.rfl) hcount (hcount.chain decodeStep))

theorem exec (i : Instr) : IgnoresQueue (exec i) := by
  cases i with
  | nop => exact stay
  | xlat b => exact update fun _ _ => rfl
  | wbit bit => exact writeField _ _
  | wbyte b => exact writeField _ _
  | wfield n v => exact execWfield n v
  | rent n => exact execRent n
  | radv n => exact execRadv n
  | encInit => exact update fun _ _ => rfl
  | encSym c => exact execEncSym c
  | measSym c => exact update fun _ _ => rfl
  | decInit => exact execDecInit
  | decNext => exact execDecNext

theorem executeCommand (w : Word) : IgnoresQueue (executeCommand w) := by
  unfold Machine.executeCommand
  cases decode w with
  | error _ => exact update fun _ _ => rfl
  | ok i => exact exec i

theorem writeOffset (off : Nat) (v : Word) : IgnoresQueue (writeOffset off v) := by
  unfold Machine.writeOffset
  cases Reg.atOffset off with
  | none => exact stay
  | some r => exact ite (fun _ _ => Iff.rfl) (executeCommand v) (update (writeReg_setQueue r v))

/-- A register access goes on with `f` at its offset if it is an aligned word of the window (R23). -/
theorem windowAccess {f : Nat → State → Result} (hf : ∀ off, IgnoresQueue (f off)) (addr : Nat) (size : AccessSize) :
    IgnoresQueue (fun s =>
      if touchesWindow s.params addr size then
        if alignedWord addr size then f (addr - s.params.base) s else .refused .hostAccessForm
      else .next s) := by
  have hat : IgnoresQueue (fun s => f (addr - s.params.base) s) := fun q s t ht => hf _ q s t ht
  exact ite (fun _ _ => Iff.rfl) (ite (c := fun _ => alignedWord addr size) (fun _ _ => Iff.rfl) hat (refused _)) stay

theorem hostByteAccess (a : Nat) {g : State → State} (hg : ∀ q s, g (s.setQueue q) = (g s).setQueue q) :
    IgnoresQueue (fun s => hostByteAccess a s (g s)) :=
  ite (fun _ _ => Iff.rfl) (fault _)
    (ite (fun _ _ => Iff.rfl) (refused _) (ite (fun _ _ => Iff.rfl) (update hg) (fault _)))

theorem hostAccess (op : HostOp) : IgnoresQueue (hostAccess op) := by
  cases op with
  | regRead addr size =>
    have hread : ∀ off, IgnoresQueue (fun s => .next (s.logRead (readOffset off s))) := fun off =>
      update fun q s => by rw [readOffset_setQueue]; rfl
    exact windowAccess hread addr size
  | regWrite addr size v => exact windowAccess (fun off => writeOffset off v) addr size
  | memLoad a => exact hostByteAccess a fun _ _ => rfl
  | memStore a b => exact hostByteAccess a fun _ _ => rfl
  | reset => exact update fun _ _ => rfl
  | resetDuring w => exact update fun _ _ => rfl

end IgnoresQueue

theorem core_run_of_step (k : Nat) {s t : State} (h : step s = .next t) : core.run (k + 1) s = core.run k t := by
  have hcore : core.step s = .next t := h
  simp only [Host.Core.run, hcore]

/-- Settles O6, by induction on the list: each step takes the oldest access off it and makes that access. -/
theorem queuedAccessesRunInOrder : Obligations.QueuedAccessesRunInOrder := by
  intro ops
  induction ops with
  | nil =>
    intro s t hq ht
    cases ht
    show Host.Outcome.next (s.setQueue []) = .next s
    rw [← hq]
    rfl
  | cons op rest ih =>
    intro s t hq ht
    obtain ⟨u, hu, hut⟩ := chain_eq_next ht
    have hstep : step (s.setQueue (op :: rest)) = .next (u.setQueue rest) := IgnoresQueue.hostAccess op rest s u hu
    have huq : u.hostQueue = [] := ((IgnoresQueue.hostAccess op).keeps hu).trans hq
    have hrun := ih u t huq hut
    exact (core_run_of_step rest.length hstep).trans hrun

end Sys2Proof.Machine
end

section
/-! SUPPORT. What a list of accesses comes to (20_memory.md R67, R70), and that a BitWrite and a Rent come to the accesses that their rules
ask for (41_bitwriter.md R120, R121; 42_bitreader.md R140). -/

namespace Sys2Proof.Machine

/-! ## What a list of accesses comes to -/

/-- The port's record after the accesses `l` through the view `v`, in order: none through a view that covers device memory is made (R67),
and the first that is not admitted leaves the command stuck (R70). -/
def portOutcome (p : Params) (v : View) (l : List PortAccess) (port : List PortAccess) : Host.Outcome (List PortAccess) Fault Refusal :=
  if l ≠ [] ∧ p.viewCoversDevice v = true then .refused .viewCoversDevice
  else
    match l.find? (fun b => !p.memAdmit b.addr) with
    | some b => .fault (.memNotAdmitted b.addr)
    | none => .next (port ++ l)

section PortOutcome

variable {p : Params} {v v' : View} {l port port' : List PortAccess}

@[simp] theorem portOutcome_nil (p : Params) (v : View) (port : List PortAccess) : portOutcome p v [] port = .next port := by
  simp [portOutcome]

/-- A view that covers device memory is refused at the first access. -/
theorem portOutcome_of_device (hl : l ≠ []) (hd : p.viewCoversDevice v = true) :
    portOutcome p v l port = .refused .viewCoversDevice := if_pos ⟨hl, hd⟩

theorem portOutcome_of_plain (h : l = [] ∨ p.viewCoversDevice v = false) :
    portOutcome p v l port =
      match l.find? (fun b => !p.memAdmit b.addr) with
      | some b => .fault (.memNotAdmitted b.addr)
      | none => .next (port ++ l) := by
  refine if_neg ?_
  rintro ⟨hl, hd⟩
  obtain h | h := h
  · exact hl h
  · rw [h] at hd
    cases hd

theorem portOutcome_of_find (h : l = [] ∨ p.viewCoversDevice v = false) {b : PortAccess}
    (hb : l.find? (fun b => !p.memAdmit b.addr) = some b) : portOutcome p v l port = .fault (.memNotAdmitted b.addr) := by
  rw [portOutcome_of_plain h, hb]

theorem portOutcome_of_admitted (h : l = [] ∨ p.viewCoversDevice v = false) (ha : ∀ b ∈ l, p.memAdmit b.addr = true) :
    portOutcome p v l port = .next (port ++ l) := by
  have hnone : l.find? (fun b => !p.memAdmit b.addr) = none := List.find?_eq_none.mpr fun b hb => by simp [ha b hb]
  rw [portOutcome_of_plain h, hnone]

/-- Of views without device memory it does not matter which the accesses go through. -/
theorem portOutcome_congr_view (h : p.viewCoversDevice v = false) (h' : p.viewCoversDevice v' = false) :
    portOutcome p v l port = portOutcome p v' l port := by
  rw [portOutcome_of_plain (.inr h), portOutcome_of_plain (.inr h')]

/-- The accesses go on one by one: the first is tried, then the rest. -/
theorem portOutcome_cons (b : PortAccess) : portOutcome p v (b :: l) port =
    if p.viewCoversDevice v then .refused .viewCoversDevice
    else if p.memAdmit b.addr then portOutcome p v l (port ++ [b]) else .fault (.memNotAdmitted b.addr) := by
  by_cases hd : p.viewCoversDevice v = true
  · rw [if_pos hd, portOutcome_of_device (List.cons_ne_nil b l) hd]
  · have hplain : p.viewCoversDevice v = false := by simpa using hd
    rw [if_neg hd, portOutcome_of_plain (.inr hplain), portOutcome_of_plain (.inr hplain)]
    by_cases ha : p.memAdmit b.addr = true
    · rw [if_pos ha, List.find?_cons_of_neg (by simp [ha]), List.append_assoc, List.singleton_append]
    · rw [if_neg ha, List.find?_cons_of_pos (by simpa using ha)]

theorem portOutcome_eq_next (h : portOutcome p v l port = .next port') : port' = port ++ l := by
  unfold portOutcome at h
  split at h
  · cases h
  · split at h
    · cases h
    · cases h; rfl

theorem portOutcome_eq_fault {f : Fault} (h : portOutcome p v l port = .fault f) :
    ∃ b ∈ l, f = .memNotAdmitted b.addr ∧ p.memAdmit b.addr = false := by
  unfold portOutcome at h
  split at h
  · cases h
  · split at h
    · rename_i b hb
      cases h
      exact ⟨b, List.mem_of_find?_eq_some hb, rfl, by simpa using List.find?_some hb⟩
    · cases h

theorem portOutcome_eq_refused {r : Refusal} (h : portOutcome p v l port = .refused r) :
    r = .viewCoversDevice ∧ p.viewCoversDevice v = true := by
  unfold portOutcome at h
  split at h
  · rename_i hd
    cases h
    exact ⟨rfl, hd.2⟩
  · split at h <;> cases h

end PortOutcome

/-! ## What a command comes to, as to its accesses -/

/-- The port's record of the state that `x` goes on to, or the way in which `x` stops. -/
def portOf (x : Result) : Host.Outcome (List PortAccess) Fault Refusal := chain x fun t => .next t.port

@[simp] theorem portOf_next (t : State) : portOf (.next t) = .next t.port := rfl

theorem portOf_eq_next {x : Result} {l : List PortAccess} (h : portOf x = .next l) : ∃ t, x = .next t ∧ t.port = l := by
  obtain ⟨t, hx, ht⟩ := chain_eq_next h
  cases ht
  exact ⟨t, hx, rfl⟩

theorem portOf_eq_fault {x : Result} {f : Fault} (h : portOf x = .fault f) : x = .fault f := by
  obtain hx | ⟨t, -, ht⟩ := chain_eq_fault h
  · exact hx
  · cases ht

theorem portOf_eq_refused {x : Result} {r : Refusal} (h : portOf x = .refused r) : x = .refused r := by
  obtain hx | ⟨t, -, ht⟩ := chain_eq_refused h
  · exact hx
  · cases ht

theorem chain_assoc {α β γ : Type} (x : Host.Outcome α Fault Refusal) (f : α → Host.Outcome β Fault Refusal)
    (g : β → Host.Outcome γ Fault Refusal) : chain (chain x f) g = chain x fun a => chain (f a) g := by
  cases x <;> rfl

/-- What follows without an access does not count. -/
theorem portOf_chain {α : Type} {x : Host.Outcome α Fault Refusal} {f : α → Result} {port : α → List PortAccess}
    (h : ∀ a, portOf (f a) = .next (port a)) : portOf (chain x f) = chain x fun a => .next (port a) := by
  rw [portOf, chain_assoc]
  exact congrArg (chain x) (funext h)

/-- One access, and what follows it. -/
theorem portOf_chain_accessByte (v : View) (a : Nat) (s t : State) (f : State → Result) :
    portOf (chain (accessByte v a s t) f) =
      if s.params.viewCoversDevice v then .refused .viewCoversDevice
      else if s.params.memAdmit a then portOf (f t) else .fault (.memNotAdmitted a) := by
  unfold accessByte
  split
  · rfl
  · split <;> rfl

/-! ## The writer's accesses -/

/-- The access of covered byte `i` of the placed field `f`, if its mask is not 0 (41_bitwriter.md R120). -/
def orAccess (space : Nat) (v : View) (f : BitVec 24) (i : Nat) : Option PortAccess :=
  if fieldByte f i = 0#8 then none else some (.orByte ((v.start + i) % space) (fieldByte f i))

theorem portOf_orBytes (v : View) (f : BitVec 24) (count i : Nat) (s : State) :
    portOf (orBytes v f count i s) =
      portOutcome s.params v ((List.range' i count).filterMap (orAccess s.params.space v f)) s.port := by
  induction count generalizing i s with
  | zero => simp [orBytes]
  | succ count ih =>
    rw [orBytes, List.range'_succ]
    by_cases hm : fieldByte f i = 0#8
    · have hnone : orAccess s.params.space v f i = none := if_pos hm
      rw [hm, orByte_zero, chain_next, ih, List.filterMap_cons_none hnone]
    · have hsome : orAccess s.params.space v f i = some (.orByte ((v.start + i) % s.params.space) (fieldByte f i)) := if_neg hm
      rw [orByte_of_ne hm, portOf_chain_accessByte, ih, List.filterMap_cons_some hsome, portOutcome_cons]
      rfl

/-- The placed field of R120, as a number. -/
theorem placedField_toNat (v : BitVec 16) {n : Nat} (hn : n ≤ 16) (off : BitVec 3) :
    (placedField v n off).toNat = v.toNat % 2 ^ n * 2 ^ off.toNat := by
  have hmask : (maskField v n).toNat = v.toNat % 2 ^ n := by
    have hpow : 2 ^ n ≤ 2 ^ 16 := Nat.pow_le_pow_right (by decide) hn
    rw [maskField, BitVec.toNat_and, BitVec.toNat_ofNat, Nat.mod_eq_of_lt (by omega), Nat.and_two_pow_sub_one_eq_mod]
  have hoff : 2 ^ off.toNat ≤ 2 ^ 7 := Nat.pow_le_pow_right (by decide) (by have := off.isLt; omega)
  have hlt : v.toNat % 2 ^ n * 2 ^ off.toNat < 2 ^ 24 :=
    calc v.toNat % 2 ^ n * 2 ^ off.toNat ≤ v.toNat * 2 ^ 7 := Nat.mul_le_mul (Nat.mod_le _ _) hoff
      _ < 2 ^ 24 := by have := v.isLt; omega
  rw [placedField, BitVec.toNat_shiftLeft, BitVec.toNat_setWidth, hmask, Nat.shiftLeft_eq]
  rw [Nat.mod_eq_of_lt (a := v.toNat % 2 ^ n) (by have := Nat.mod_le v.toNat (2 ^ n); have := v.isLt; omega), Nat.mod_eq_of_lt hlt]

/-- The machine's mask of a covered byte is the rules'. -/
theorem fieldByte_placedField (v : BitVec 16) {n : Nat} (hn : n ≤ 16) (off : BitVec 3) (i : Nat) :
    fieldByte (placedField v n off) i = fieldMask v n off.toNat i := by
  apply BitVec.eq_of_toNat_eq
  rw [fieldByte, fieldMask, BitVec.extractLsb'_toNat, placedField_toNat v hn, BitVec.toNat_ofNat, Nat.shiftRight_eq_div_pow]

theorem fieldAccesses_eq (v : BitVec 16) {n : Nat} (hn : n ≤ 16) (s : State) :
    fieldAccesses v n s = (List.range' 0 (ceil8 (s.writer.off.toNat + n))).filterMap
      (orAccess s.params.space s.writerView (placedField v n s.writer.off)) := by
  rw [fieldAccesses, List.range_eq_range']
  refine List.filterMap_congr fun i _ => ?_
  rw [orAccess, fieldByte_placedField v hn]
  rfl

theorem fieldAccesses_zero (v : BitVec 16) (s : State) : fieldAccesses v 0 s = [] := by
  simp [fieldAccesses, fieldMask, Nat.mod_one]

/-- A BitWrite, and what follows it without an access, makes the accesses of its field if that fits the view (R120, R121). -/
theorem portOf_chain_bitWrite (v : BitVec 16) {n : Nat} (hn : n ≤ 16) (s : State) {f : WriteEnd × State → Result}
    (hf : ∀ r, portOf (f r) = .next r.2.port) :
    portOf (chain (bitWrite v n s) f) =
      portOutcome s.params s.writerView (if fieldFits n s then fieldAccesses v n s else []) s.port := by
  rw [portOf_chain hf]
  by_cases h0 : n = 0
  · subst h0
    simp [bitWrite, fieldAccesses_zero]
  by_cases hfit : fieldFits n s
  · have hfits : s.writer.fits n = true := decide_eq_true hfit
    rw [bitWrite, if_neg h0, if_pos hfits, chain_assoc, if_pos hfit, fieldAccesses_eq v hn, ← portOf_orBytes]
    rfl
  · have hfits : ¬ s.writer.fits n = true := fun h => hfit (of_decide_eq_true h)
    rw [bitWrite, if_neg h0, if_neg hfits, if_neg hfit, portOutcome_nil]
    rfl

/-- The machine's code is the rules' (44_codec.md R171). -/
theorem code_eq (d : Byte) : code d = (specCode d, specWidth d) := by
  have hd := d.isLt
  unfold code specCode specWidth
  split
  · refine congrArg (·, 6) (BitVec.eq_of_toNat_eq ?_)
    simp only [BitVec.toNat_setWidth, BitVec.extractLsb'_toNat, BitVec.toNat_shiftLeft, BitVec.toNat_ofNat, Nat.shiftLeft_eq,
      Nat.shiftRight_zero]
    omega
  · refine congrArg (·, 9) (BitVec.eq_of_toNat_eq ?_)
    have hflag : d.toNat <<< 1 ||| 1 = 2 * d.toNat + 1 := by
      rw [← Nat.shiftLeft_add_eq_or_of_lt (by decide), Nat.shiftLeft_eq]
      omega
    have hshift : (d.toNat % 2 ^ 9) <<< 1 % 2 ^ 9 = d.toNat <<< 1 := by
      rw [Nat.mod_eq_of_lt (by omega), Nat.mod_eq_of_lt (by omega)]
    simp only [BitVec.toNat_setWidth, BitVec.toNat_or, BitVec.toNat_shiftLeft, BitVec.toNat_ofNat, hshift]
    exact congrArg (· % 2 ^ 16) hflag

/-- A WBIT, WBYTE, WFIELD or ENC.SYM makes the accesses of its field if that fits the view. -/
theorem portOf_writer {i : Instr} {s : State} {v : BitVec 16} {n : Nat} (hi : writtenField i s = some (v, n)) (hwf : i.wellFormed = true) :
    portOf (exec i s) = portOutcome s.params s.writerView (if fieldFits n s then fieldAccesses v n s else []) s.port := by
  cases i with
  | wbit bit =>
    cases hi
    have hbit : bitOperandField bit = if bit then 1#16 else 0#16 := by cases bit <;> rfl
    rw [← hbit]
    exact portOf_chain_bitWrite _ (by decide) s fun _ => rfl
  | wbyte b =>
    cases hi
    have hbyte : byteOperandField b = BitVec.ofNat 16 b.toNat := (BitVec.ofNat_toNat 16 b).symm
    rw [← hbyte]
    exact portOf_chain_bitWrite _ (by decide) s fun _ => rfl
  | wfield m w =>
    cases hi
    have hm : countOperand m ≤ wfieldMax := of_decide_eq_true hwf
    rw [exec, execWfield, if_pos hm]
    exact portOf_chain_bitWrite _ hm s fun _ => rfl
  | encSym c =>
    have hcode := code_eq (symbolDelta c s)
    have hf : (specCode (symbolDelta c s), specWidth (symbolDelta c s)) = (v, n) := Option.some.inj hi
    rw [hf] at hcode
    have hn : n ≤ 16 := by
      cases hf
      unfold specWidth
      split <;> decide
    rw [exec, execEncSym, hcode]
    exact portOf_chain_bitWrite v hn s fun ⟨e, t⟩ => by cases e <;> rfl
  | nop | xlat _ | rent _ | radv _ | encInit | measSym _ | decInit | decNext => cases hi

/-! ## The reader's accesses -/

section Pull

variable {n : Nat} {s : State}

theorem afterPull_len (hlen : s.reader.len ≠ 0#32) : s.afterPull.reader.len.toNat = s.reader.len.toNat - 1 := by
  show (s.reader.len - 1#32).toNat = s.reader.len.toNat - 1
  bv_omega

theorem afterPull_cnt (hc : s.reader.cnt.toNat ≤ 8) : s.afterPull.reader.cnt.toNat = s.reader.cnt.toNat + 8 := by
  show (s.reader.cnt + 8#5).toNat = _
  rw [BitVec.toNat_add]
  exact Nat.mod_eq_of_lt (by simpa using by omega)

theorem afterPull_addr : s.afterPull.reader.addr.toNat = (s.reader.addr.toNat + 1) % s.params.space := wrapAddr_toNat _ _

/-- What the view covers after a pull, it covered before (R140). -/
theorem covers_of_afterPull (hlen : s.reader.len ≠ 0#32) {a : Nat}
    (h : s.afterPull.readerView.covers s.params.space a = true) : s.readerView.covers s.params.space a = true := by
  obtain ⟨i, hi, rfl⟩ := (View.covers_iff_exists _ (space_pos _)).mp h
  have hi' : i < s.reader.len.toNat - 1 := by rw [← afterPull_len hlen]; exact hi
  refine (View.covers_iff_exists _ (space_pos _)).mpr ⟨i + 1, show i + 1 < s.reader.len.toNat by omega, ?_⟩
  show (s.afterPull.reader.addr.toNat + i) % _ = (s.reader.addr.toNat + (i + 1)) % _
  rw [afterPull_addr, Nat.mod_add_mod, Nat.add_assoc, Nat.add_comm 1 i]

/-- A pull brings no device memory into the view. -/
theorem plain_afterPull (hlen : s.reader.len ≠ 0#32) (h : s.params.viewCoversDevice s.readerView = false) :
    s.params.viewCoversDevice s.afterPull.readerView = false := by
  rw [← Bool.not_eq_true, viewCoversDevice_iff] at h ⊢
  rintro ⟨a, hcov, hdev⟩
  exact h ⟨a, covers_of_afterPull hlen hcov, hdev⟩

theorem pullAccesses_eq_nil (h : ¬(s.reader.cnt.toNat < n ∧ s.reader.len ≠ 0#32)) : pullAccesses n s = [] := by
  have hzero : pullsFor n s.reader = 0 := by
    unfold pullsFor
    by_cases hc : s.reader.cnt.toNat < n
    · rw [show s.reader.len = 0#32 by simpa [hc] using h]
      simp
    · omega
  rw [pullAccesses, hzero]
  rfl

/-- The accesses of Rent are the first pull's and those that are left after it. -/
theorem pullAccesses_eq_cons (hn : n ≤ rentMax) (hc : s.reader.cnt.toNat < n) (hlen : s.reader.len ≠ 0#32) :
    pullAccesses n s = .read (s.reader.addr.toNat % s.params.space) :: pullAccesses n s.afterPull := by
  have hpos : s.reader.len.toNat ≠ 0 := fun h => hlen (BitVec.eq_of_toNat_eq h)
  have hpulls : pullsFor n s.reader = pullsFor n s.afterPull.reader + 1 := by
    unfold rentMax at hn
    rw [pullsFor, pullsFor, afterPull_len hlen, afterPull_cnt (by omega)]
    omega
  rw [pullAccesses, pullAccesses, hpulls, List.range_succ_eq_map, List.map_cons, List.map_map]
  refine congrArg₂ _ rfl (List.map_congr_left fun i _ => ?_)
  show PortAccess.read ((s.reader.addr.toNat + (i + 1)) % _) = .read ((s.afterPull.reader.addr.toNat + i) % s.params.space)
  rw [afterPull_addr, Nat.mod_add_mod, Nat.add_assoc, Nat.add_comm 1 i]

end Pull

theorem portOf_rentLoop {n fuel : Nat} {s : State} (hn : n ≤ rentMax) (hfuel : n ≤ s.reader.cnt.toNat + 8 * fuel) :
    portOf (rentLoop n fuel s) = portOutcome s.params s.readerView (pullAccesses n s) s.port := by
  induction fuel generalizing s with
  | zero =>
    rw [pullAccesses_eq_nil (by omega), portOutcome_nil]
    rfl
  | succ fuel ih =>
    rw [rentLoop_succ]
    split
    · rename_i hpull
      obtain ⟨hc, hlen⟩ := hpull
      rw [pullByte_eq, portOf_chain_accessByte, pullAccesses_eq_cons hn hc hlen, portOutcome_cons]
      split
      · rfl
      · rename_i hdev
        have hplain : s.params.viewCoversDevice s.readerView = false := by simpa using hdev
        have hcnt := afterPull_cnt (s := s) (by unfold rentMax at hn; omega)
        rw [ih (by omega)]
        exact if_congr Iff.rfl (portOutcome_congr_view (plain_afterPull hlen hplain) hplain) rfl
    · rename_i hstop
      rw [pullAccesses_eq_nil hstop, portOutcome_nil]
      rfl

/-- A Rent, and what follows it without an access, makes the reads of Rent (R140). -/
theorem portOf_chain_rent {n : Nat} (hn : n ≤ rentMax) (s : State) {f : State → Result} (hf : ∀ t, portOf (f t) = .next t.port) :
    portOf (chain (rent n s) f) = portOutcome s.params s.readerView (pullAccesses n s) s.port :=
  (portOf_chain hf).trans (portOf_rentLoop hn (by omega))

theorem consumeCode_port (s : State) : (consumeCode s).port = s.port := by rw [consumeCode_frame]

theorem portOf_decodeStep (s : State) :
    portOf (decodeStep s) = portOutcome s.params s.readerView (pullAccesses 9 s) s.port :=
  portOf_chain_rent (le_refl rentMax) s fun t => by rw [portOf_next, consumeCode_port]

theorem plannedAccesses_decInit (s : State) :
    plannedAccesses .decInit s = if s.dec.rem = 0#32 then [] else pullAccesses 9 (seedDecoder s) := rfl

theorem plannedAccesses_decNext (s : State) :
    plannedAccesses .decNext s = if s.dec.rem.toNat ≤ 1 then [] else pullAccesses 9 s := rfl

theorem portOf_execDecInit (s : State) :
    portOf (execDecInit s) = portOutcome s.params s.readerView (plannedAccesses .decInit s) s.port := by
  rw [execDecInit, plannedAccesses_decInit]
  by_cases hrem : s.dec.rem = 0#32
  · rw [if_pos hrem, if_pos hrem, portOutcome_nil]
    rfl
  · rw [if_neg hrem, if_neg hrem]
    exact portOf_decodeStep (seedDecoder s)

theorem portOf_execDecNext (s : State) :
    portOf (execDecNext s) = portOutcome s.params s.readerView (plannedAccesses .decNext s) s.port := by
  rw [execDecNext, plannedAccesses_decNext]
  by_cases hend : s.dec.rem = 0#32
  · rw [if_pos hend, hend]
    simp
  · have hlast : s.dec.rem - 1#32 = 0#32 ↔ s.dec.rem.toNat ≤ 1 := by bv_omega
    rw [if_neg hend]
    simp only [State.setDec_dec, hlast]
    split
    · simp
    · exact portOf_decodeStep (s.setDec { s.dec with rem := s.dec.rem - 1#32 })

end Sys2Proof.Machine
end

section
/-! SUPPORT. Where every command stops, and the accesses that it makes (20_memory.md R62, R67, R70, R71): each command comes to
`portOutcome` of what its rule plans, and the statements are read off from that. -/

namespace Sys2Proof.Machine

/-! ## Every command -/

/-- What a command that writes a field plans, and the view it goes through. -/
theorem planned_of_writtenField {i : Instr} {s : State} {v : BitVec 16} {n : Nat} (hi : writtenField i s = some (v, n)) :
    plannedAccesses i s = (if fieldFits n s then fieldAccesses v n s else []) ∧ accessView i s = s.writerView := by
  cases i with
  | wbit _ | wbyte _ | wfield _ _ | encSym _ => exact ⟨by simp only [plannedAccesses, hi], rfl⟩
  | nop | xlat _ | rent _ | radv _ | encInit | measSym _ | decInit | decNext => cases hi

/-- A command makes the accesses its rule plans, in order, through its view, as far as they are admitted. -/
theorem portOf_exec {i : Instr} (s : State) (hwf : i.wellFormed = true) :
    portOf (exec i s) = portOutcome s.params (accessView i s) (plannedAccesses i s) s.port := by
  have hwriter : ∀ {v n}, writtenField i s = some (v, n) →
      portOf (exec i s) = portOutcome s.params (accessView i s) (plannedAccesses i s) s.port := fun hi => by
    obtain ⟨hplan, hview⟩ := planned_of_writtenField hi
    rw [hplan, hview]
    exact portOf_writer hi hwf
  cases i with
  | wbit _ | wbyte _ | wfield _ _ | encSym _ => exact hwriter rfl
  | rent n =>
    have hn : countOperand n ≤ rentMax := of_decide_eq_true hwf
    rw [exec, execRent, if_pos hn]
    exact portOf_chain_rent hn s fun _ => rfl
  | radv n =>
    have hn : countOperand n ≤ radvMax := of_decide_eq_true hwf
    rw [exec, execRadv, if_pos hn, portOf_next, advance_frame]
    exact (portOutcome_nil _ _ _).symm
  | decInit => exact portOf_execDecInit s
  | decNext => exact portOf_execDecNext s
  | nop | xlat _ | encInit | measSym _ => exact (portOutcome_nil _ _ _).symm

/-- A term that no word encodes raises ILL and does nothing else (log 7). -/
theorem exec_of_not_wellFormed {i : Instr} (s : State) (h : i.wellFormed = false) : exec i s = .next (raise .ill s) := by
  cases i with
  | wfield n v => exact if_neg (of_decide_eq_false h)
  | rent n => exact if_neg (of_decide_eq_false h)
  | radv n => exact if_neg (of_decide_eq_false h)
  | nop | xlat _ | wbit _ | wbyte _ | encInit | encSym _ | measSym _ | decInit | decNext => cases h

/-- The access lies inside the view it goes through, and ORs with a nonzero mask if it is a MemOr (R62, R71). -/
def InsideItsView (s : State) : PortAccess → Prop
  | .read a => s.readerView.covers s.params.space a = true
  | .orByte a m => s.writerView.covers s.params.space a = true ∧ m ≠ 0#8

theorem insideItsView_of_mem_pullAccesses {n : Nat} {s : State} {b : PortAccess} (h : b ∈ pullAccesses n s) : InsideItsView s b := by
  obtain ⟨i, hi, rfl⟩ := List.mem_map.mp h
  have hlt : i < s.reader.len.toNat := lt_of_lt_of_le (List.mem_range.mp hi) (min_le_left _ _)
  exact s.readerView.covers_add (space_pos _) hlt

theorem insideItsView_of_mem_fieldAccesses {v : BitVec 16} {n : Nat} {s : State} {b : PortAccess} (hfit : fieldFits n s)
    (h : b ∈ fieldAccesses v n s) : InsideItsView s b := by
  obtain ⟨i, hi, hb⟩ := List.mem_filterMap.mp h
  have hlt : i < s.writer.len.toNat := lt_of_lt_of_le (List.mem_range.mp hi) hfit
  split at hb
  · cases hb
  · rename_i hm
    cases hb
    exact ⟨s.writerView.covers_add (space_pos _) hlt, hm⟩

theorem insideItsView_of_mem_planned {i : Instr} {s : State} {b : PortAccess} (h : b ∈ plannedAccesses i s) : InsideItsView s b := by
  have hwriter : ∀ {v n}, writtenField i s = some (v, n) → InsideItsView s b := fun hi => by
    rw [(planned_of_writtenField hi).1] at h
    split at h
    · exact insideItsView_of_mem_fieldAccesses ‹_› h
    · cases h
  cases i with
  | wbit _ | wbyte _ | wfield _ _ | encSym _ => exact hwriter rfl
  | rent n => exact insideItsView_of_mem_pullAccesses h
  | decInit =>
    rw [plannedAccesses_decInit] at h
    split at h
    · cases h
    · exact insideItsView_of_mem_pullAccesses (s := seedDecoder s) h
  | decNext =>
    rw [plannedAccesses_decNext] at h
    split at h
    · cases h
    · exact insideItsView_of_mem_pullAccesses h
  | nop | xlat _ | radv _ | encInit | measSym _ => cases h

theorem planned_eq_nil {i : Instr} (s : State) (h : accessesMemory i = false) : plannedAccesses i s = [] := by
  cases i with
  | nop | xlat _ | radv _ | encInit | measSym _ => rfl
  | rent _ | decInit | decNext | wbit _ | wbyte _ | wfield _ _ | encSym _ => cases h

theorem accessView_eq (i : Instr) (s : State) : accessView i s = s.readerView ∨ accessView i s = s.writerView := by
  cases i with
  | wbit _ | wbyte _ | wfield _ _ | encSym _ => exact .inr rfl
  | rent _ | decInit | decNext | nop | xlat _ | radv _ | encInit | measSym _ => exact .inl rfl

/-! ## The statements -/

/-- Settles O59: the command comes to its planned accesses. -/
theorem unadmittedAccessLeavesCommandStuck : Obligations.UnadmittedAccessLeavesCommandStuck := by
  intro i s hwf hplain
  have hport := portOf_exec s hwf
  refine ⟨fun b hb => portOf_eq_fault ?_, fun ha => portOf_eq_next ?_⟩
  · rw [hport, portOutcome_of_find hplain hb]
  · rw [hport, portOutcome_of_admitted hplain ha]

/-- Settles O60: the command comes to its planned accesses, of which there is one. -/
theorem deviceViewIsRefused : Obligations.DeviceViewIsRefused := by
  intro i s hwf hne hdev
  exact portOf_eq_refused (by rw [portOf_exec s hwf, portOutcome_of_device hne hdev])

/-- Settles O26: the pull is the first access that the RENT plans. -/
theorem unadmittedPullLeavesRentStuck : Obligations.UnadmittedPullLeavesRentStuck := by
  intro n s hn hc hlen hplain hadm
  have hfirst : (plannedAccesses (.rent n) s).find? (fun b => !s.params.memAdmit b.addr) =
      some (.read (s.reader.addr.toNat % s.params.space)) := by
    rw [plannedAccesses, pullAccesses_eq_cons hn hc hlen]
    exact List.find?_cons_of_pos (by simpa [PortAccess.addr] using hadm)
  obtain ⟨hstuck, -⟩ := unadmittedAccessLeavesCommandStuck (.rent n) s (decide_eq_true hn) (.inr hplain)
  exact hstuck _ hfirst

/-- Settles O44: a command that goes on has made its planned accesses, each inside its view. -/
theorem accessesStayInsideTheirViews : Obligations.AccessesStayInsideTheirViews := by
  intro i s t ht
  cases hwf : i.wellFormed with
  | false =>
    rw [exec_of_not_wellFormed s hwf] at ht
    cases ht
    exact ⟨[], by simp⟩
  | true =>
    have hport := portOf_exec s hwf
    rw [ht, portOf_next] at hport
    exact ⟨plannedAccesses i s, portOutcome_eq_next hport.symm, planned_eq_nil s,
      fun _ h => insideItsView_of_mem_planned h, fun _ _ h => insideItsView_of_mem_planned h⟩

/-- Settles O46: a command stops only as its planned accesses do. -/
theorem commandsStopOnlyOnMemory : Obligations.CommandsStopOnlyOnMemory := by
  intro i s
  cases hwf : i.wellFormed with
  | false =>
    rw [exec_of_not_wellFormed s hwf]
    exact ⟨fun _ h => (by cases h), fun _ h => (by cases h)⟩
  | true =>
    have hport := portOf_exec s hwf
    refine ⟨fun f hf => ?_, fun r hr => ?_⟩
    · rw [hf] at hport
      obtain ⟨b, hb, rfl, hadm⟩ := portOutcome_eq_fault hport.symm
      refine ⟨b.addr, rfl, hadm, ?_⟩
      have hin := insideItsView_of_mem_planned hb
      cases b with
      | read a => exact .inl hin
      | orByte a m => exact .inr hin.1
    · rw [hr] at hport
      obtain ⟨rfl, hdev⟩ := portOutcome_eq_refused hport.symm
      refine ⟨rfl, ?_⟩
      obtain hview | hview := accessView_eq i s <;> rw [hview] at hdev
      · exact .inl hdev
      · exact .inr hdev

end Sys2Proof.Machine
end

section
/-! SUPPORT. The command word as its fields (30_encoding.md R81, R84), and that the decoder and the encoder undo each other (R85, R88, R89). -/

namespace Sys2Proof

/-! ## The encoder's word -/

/-- Every command's word selects its own row. -/
theorem Instr.selectsOwnRow (i : Instr) : Laws.SelectsOwnRow.Statement i := by
  cases i with
  | nop => exact Laws.SelectsOwnRow.nop
  | xlat b => exact Laws.SelectsOwnRow.xlat b
  | wbit bit => exact Laws.SelectsOwnRow.wbit bit
  | wbyte b => exact Laws.SelectsOwnRow.wbyte b
  | wfield n v => exact Laws.SelectsOwnRow.wfield n v
  | rent n => exact Laws.SelectsOwnRow.rent n
  | radv n => exact Laws.SelectsOwnRow.radv n
  | encInit => exact Laws.SelectsOwnRow.encInit
  | encSym c => exact Laws.SelectsOwnRow.encSym c
  | measSym c => exact Laws.SelectsOwnRow.measSym c
  | decInit => exact Laws.SelectsOwnRow.decInit
  | decNext => exact Laws.SelectsOwnRow.decNext

/-- The ranges of R88, said of the N field of the command's word. -/
theorem Instr.wellFormed_iff (i : Instr) : i.wellFormed = true ↔ i.nBits.toNat ≤ i.opcode.nMax := by
  cases i with
  | wfield n v => exact decide_eq_true_iff
  | rent n => exact decide_eq_true_iff
  | radv n => exact decide_eq_true_iff
  | nop | xlat _ | wbit _ | wbyte _ | encInit | encSym _ | measSym _ | decInit | decNext => exact iff_of_true rfl (le_refl 0)

theorem byteOperand_of_immField {w : Word} {b : Byte} (h : immField w = b.setWidth 16) : byteOperand w = b := by
  rw [byteOperand, h]
  exact BitVec.eq_of_toNat_eq (by simp; omega)

theorem bitOperand_of_immField {w : Word} {bit : Bool} (h : immField w = (BitVec.ofBool bit).setWidth 16) : bitOperand w = bit := by
  rw [bitOperand, h]
  cases bit <;> rfl

/-- A command is read back from the N and IMM fields of its word (R82). -/
theorem Opcode.build_of_fields {w : Word} {i : Instr} (hn : nField w = i.nBits) (hm : immField w = i.immBits) :
    i.opcode.build w = i := by
  cases i with
  | xlat b => exact congrArg Instr.xlat (byteOperand_of_immField hm)
  | wbit bit => exact congrArg Instr.wbit (bitOperand_of_immField hm)
  | wbyte b => exact congrArg Instr.wbyte (byteOperand_of_immField hm)
  | wfield n v => exact congrArg₂ Instr.wfield hn hm
  | rent n => exact congrArg Instr.rent hn
  | radv n => exact congrArg Instr.radv hn
  | encSym c => exact congrArg Instr.encSym (byteOperand_of_immField hm)
  | measSym c => exact congrArg Instr.measSym (byteOperand_of_immField hm)
  | nop | encInit | decInit | decNext => rfl

theorem decode_encode {i : Instr} (h : i.wellFormed = true) : decode (encode i) = .ok i := by
  obtain ⟨hop, hn, hm, hmask⟩ := i.selectsOwnRow
  rw [decode_of_selects (op := i.opcode) (by rw [hop, Opcode.ofByte_byte]) hmask (by rw [hn]; exact i.wellFormed_iff.mp h),
    Opcode.build_of_fields hn hm]

/-- Settles O1: the word selects the command's own row, and its fields are the command's operands. -/
theorem encodedCommandDecodesToItself : Obligations.EncodedCommandDecodesToItself := fun _ => decode_encode

/-! ## A word that selects a row -/

theorem immField_and (w k : Word) : immField (w &&& k) = immField w &&& immField k := BitVec.extractLsb'_and

theorem nField_and (w k : Word) : nField (w &&& k) = nField w &&& nField k := BitVec.extractLsb'_and

theorem rsvField_and (w k : Word) : rsvField (w &&& k) = rsvField w &&& rsvField k := BitVec.extractLsb'_and

theorem opField_and (w k : Word) : opField (w &&& k) = opField w &&& opField k := BitVec.extractLsb'_and

/-- The four fields make up the word (R81). -/
theorem eq_of_fields {w w' : Word} (hm : immField w = immField w') (hr : rsvField w = rsvField w') (hn : nField w = nField w')
    (ho : opField w = opField w') : w = w' := by
  have hbits : ∀ {start len : Nat}, w.extractLsb' start len = w'.extractLsb' start len →
      ∀ i, start ≤ i → i < start + len → w.getLsbD i = w'.getLsbD i := by
    intro start len h i hlo hhi
    have := congrArg (fun b => b.getLsbD (i - start)) h
    simpa only [BitVec.getLsbD_extractLsb', show i - start < len by omega, Nat.add_sub_cancel' hlo, decide_true, Bool.true_and]
      using this
  refine BitVec.eq_of_getLsbD_eq fun i hi => ?_
  by_cases h8 : i < 8
  · exact hbits ho i (Nat.zero_le i) h8
  by_cases h13 : i < 13
  · exact hbits hn i (by omega) h13
  by_cases h16 : i < 16
  · exact hbits hr i (by omega) h16
  · exact hbits hm i (by omega) hi

/-- A word with a row's fixed bits has the opcode's OP value, RSV 0, and 0 wherever the row fixes a bit of N or IMM (R84). -/
theorem Opcode.fields_of_selects {op : Opcode} {w : Word} (h : w &&& op.mask = op.matchBits) :
    opField w = op.byte ∧ rsvField w = 0#3 ∧ nField w &&& nField op.mask = 0#5 ∧ immField w &&& immField op.mask = 0#16 := by
  have hop := opField_and w op.mask
  have hrsv := rsvField_and w op.mask
  rw [← nField_and, ← immField_and]
  rw [h] at hop hrsv ⊢
  have hmop : opField op.mask = BitVec.allOnes 8 := by cases op <;> rfl
  have hmrsv : rsvField op.mask = BitVec.allOnes 3 := by cases op <;> rfl
  rw [hmop, BitVec.and_allOnes] at hop
  rw [hmrsv, BitVec.and_allOnes] at hrsv
  rw [← hop, ← hrsv]
  cases op <;> decide

theorem eq_zero_of_and_allOnes {n : Nat} {x : BitVec n} (h : x &&& BitVec.allOnes n = 0#n) : x = 0#n := by
  rwa [BitVec.and_allOnes] at h

theorem getLsbD_eq_false_of_high_zero {m : BitVec 16} {k i : Nat} (h : m &&& BitVec.allOnes 16 <<< k = 0#16) (hk : k ≤ i)
    (hi : i < 16) : m.getLsbD i = false := by
  have hbit := congrArg (·.getLsbD i) h
  simpa only [BitVec.getLsbD_and, BitVec.getLsbD_shiftLeft, BitVec.getLsbD_allOnes, BitVec.getLsbD_zero, hi, Nat.not_lt.mpr hk,
    show i - k < 16 by omega, decide_true, decide_false, Bool.not_false, Bool.and_true] using hbit

/-- A byte operand is the whole of IMM where IMM[15:8] is 0 (R82). -/
theorem setWidth_byteOperand {w : Word} (h : immField w &&& 0xFF00#16 = 0#16) : (byteOperand w).setWidth 16 = immField w := by
  refine BitVec.eq_of_getLsbD_eq fun i hi => ?_
  rw [BitVec.getLsbD_setWidth, byteOperand, BitVec.getLsbD_extractLsb']
  by_cases h8 : i < 8
  · simp [hi, h8]
  · simp [h8, getLsbD_eq_false_of_high_zero (k := 8) h (Nat.not_lt.mp h8) hi]

/-- A bit operand is the whole of IMM where IMM[15:1] is 0 (R82). -/
theorem setWidth_bitOperand {w : Word} (h : immField w &&& 0xFFFE#16 = 0#16) :
    (BitVec.ofBool (bitOperand w)).setWidth 16 = immField w := by
  refine BitVec.eq_of_getLsbD_eq fun i hi => ?_
  rw [BitVec.getLsbD_setWidth, bitOperand, BitVec.getLsbD_ofBool]
  by_cases h0 : i = 0
  · simp [h0]
  · simp [h0, getLsbD_eq_false_of_high_zero (k := 1) h (Nat.pos_of_ne_zero h0) hi]

/-- The encoder's N and IMM fields of the command a word carries are the word's own (R82, R84). -/
theorem Opcode.build_fields {op : Opcode} {w : Word} (h : w &&& op.mask = op.matchBits) :
    (op.build w).nBits = nField w ∧ (op.build w).immBits = immField w := by
  obtain ⟨-, -, hn, hm⟩ := op.fields_of_selects h
  cases op with
  | nop | encInit | decInit | decNext => exact ⟨(eq_zero_of_and_allOnes hn).symm, (eq_zero_of_and_allOnes hm).symm⟩
  | xlat | wbyte | encSym | measSym => exact ⟨(eq_zero_of_and_allOnes hn).symm, setWidth_byteOperand hm⟩
  | wbit => exact ⟨(eq_zero_of_and_allOnes hn).symm, setWidth_bitOperand hm⟩
  | rent | radv => exact ⟨rfl, (eq_zero_of_and_allOnes hm).symm⟩
  | wfield => exact ⟨rfl, rfl⟩

theorem Opcode.opcode_build (op : Opcode) (w : Word) : (op.build w).opcode = op := by cases op <;> rfl

theorem encode_build {op : Opcode} {w : Word} (h : w &&& op.mask = op.matchBits) : encode (op.build w) = w := by
  obtain ⟨hop, hn, hm, hmask⟩ := (op.build w).selectsOwnRow
  rw [op.opcode_build] at hop hmask
  obtain ⟨hwn, hwm⟩ := op.build_fields h
  obtain ⟨hwop, hwrsv, -, -⟩ := op.fields_of_selects h
  obtain ⟨-, hrsv, -, -⟩ := op.fields_of_selects hmask
  exact eq_of_fields (hm.trans hwm) (hrsv.trans hwrsv.symm) (hn.trans hwn) (hop.trans hwop.symm)

/-- Settles O2: the word selects the row of its opcode, and the command's fields are the word's own. -/
theorem decodedWordEncodesToItself : Obligations.DecodedWordEncodesToItself := by
  intro w i h
  obtain ⟨op, -, hsel, hn, rfl⟩ := decode_eq_ok h
  rw [Instr.wellFormed_iff, op.opcode_build, (op.build_fields hsel).1]
  exact ⟨hn, encode_build hsel⟩

/-! ## Legal words -/

/-- A word decodes exactly if it has the fixed bits of a row and N in that row's range (R85). -/
theorem decode_eq_ok_iff {w : Word} :
    (∃ i, decode w = .ok i) ↔ ∃ op : Opcode, w &&& op.mask = op.matchBits ∧ (nField w).toNat ≤ op.nMax := by
  constructor
  · rintro ⟨i, h⟩
    obtain ⟨op, -, hsel, hn, -⟩ := decode_eq_ok h
    exact ⟨op, hsel, hn⟩
  · rintro ⟨op, hsel, hn⟩
    have hop : Opcode.ofByte (opField w) = some op := by rw [(op.fields_of_selects hsel).1, Opcode.ofByte_byte]
    exact ⟨op.build w, decode_of_selects hop hsel hn⟩

theorem nField_toNat (w : Word) : (nField w).toNat = w.toNat / 256 % 32 := by
  rw [nField, BitVec.extractLsb'_toNat, Nat.shiftRight_eq_div_pow]

/-- A row that fixes N to 0 needs no range of N (R84). -/
theorem Opcode.nField_le_of_selects {op : Opcode} {w : Word} (h : w &&& op.mask = op.matchBits)
    (hn : nField op.mask = BitVec.allOnes 5) : (nField w).toNat ≤ op.nMax := by
  obtain ⟨-, -, h0, -⟩ := op.fields_of_selects h
  rw [hn] at h0
  simp [eq_zero_of_and_allOnes h0]

/-- The table of R84 with the ranges of R88, row by row. -/
theorem specLegal_iff {w : Word} :
    Machine.specLegal w ↔ ∃ op : Opcode, w &&& op.mask = op.matchBits ∧ (nField w).toNat ≤ op.nMax := by
  unfold Machine.specLegal
  rw [← nField_toNat]
  constructor
  · have row (op : Opcode) (hn : nField op.mask = BitVec.allOnes 5) (h : w &&& op.mask = op.matchBits) :
        ∃ op : Opcode, w &&& op.mask = op.matchBits ∧ (nField w).toNat ≤ op.nMax := ⟨op, h, Opcode.nField_le_of_selects h hn⟩
    rintro (h | h | h | h | h | h | h | h | h | h | h | h)
    exacts [row .nop rfl h, row .xlat rfl h, row .wbit rfl h, row .wbyte rfl h, ⟨.wfield, h⟩, ⟨.rent, h⟩, ⟨.radv, h⟩,
      row .encInit rfl h, row .encSym rfl h, row .measSym rfl h, row .decInit rfl h, row .decNext rfl h]
  · rintro ⟨op, h, hn⟩
    cases op <;> simp only [Opcode.mask, Opcode.matchBits, Opcode.nMax, wfieldMax, rentMax, radvMax] at h hn <;> simp [h, hn]

/-- Settles O3: a legal word selects a row, and every other word is the decoder's error. -/
theorem illegalWordRaisesOnlyIll : Obligations.IllegalWordRaisesOnlyIll := by
  refine ⟨fun w h => decode_eq_ok_iff.mpr (specLegal_iff.mp h), fun w s h => ?_⟩
  rw [specLegal_iff, ← decode_eq_ok_iff] at h
  unfold Machine.executeCommand
  cases hd : decode w with
  | error _ => rfl
  | ok i => exact absurd ⟨i, hd⟩ h

/-- Settles O4: each word is evaluated. -/
theorem wordsFromTheSpecDecode : Obligations.WordsFromTheSpecDecode :=
  ⟨rfl, rfl, rfl, rfl, rfl, rfl, rfl, rfl, rfl, rfl, rfl, rfl⟩

end Sys2Proof
end

section
/-! SUPPORT. The encoded stream as data: its codes, its length, and where its bits stand (30_encoding.md section 5; 20_memory.md R63, R68). -/

namespace Sys2Proof.Machine

/-! ## Codes and their widths (R96, R97, R100) -/

theorem code_width (d : Byte) : (code d).2 = 6 ∨ (code d).2 = 9 := by
  rw [code_eq]
  exact ite_eq_or_eq _ _ _

theorem codesFrom_length (xlat : Bool) (prev : Byte) (x : List Byte) : (codesFrom xlat prev x).length = x.length := by
  induction x generalizing prev with
  | nil => rfl
  | cons c rest ih => exact congrArg (· + 1) (ih _)

theorem width_of_mem_codesFrom {xlat : Bool} {prev : Byte} {x : List Byte} {c : BitVec 16 × Nat} (h : c ∈ codesFrom xlat prev x) :
    c.2 = 6 ∨ c.2 = 9 := by
  induction x generalizing prev with
  | nil => cases h
  | cons b rest ih =>
    obtain rfl | h := List.mem_cons.mp h
    · exact code_width _
    · exact ih h

/-- Codes of 6 and of 9 bits take 6 bits each, and 3 more for each long one. -/
theorem sum_widths {cs : List (BitVec 16 × Nat)} (h : ∀ c ∈ cs, c.2 = 6 ∨ c.2 = 9) :
    (cs.map Prod.snd).sum = 6 * cs.length + 3 * cs.countP (fun c => c.2 == 9) := by
  induction cs with
  | nil => rfl
  | cons c rest ih =>
    have hrest := ih fun b hb => h b (List.mem_cons_of_mem c hb)
    rw [List.map_cons, List.sum_cons, hrest, List.countP_cons, List.length_cons]
    obtain hc | hc := h c List.mem_cons_self
    · have hshort : ¬(c.2 == 9) = true := by simp [hc]
      rw [if_neg hshort]
      omega
    · have hlong : (c.2 == 9) = true := by simp [hc]
      rw [if_pos hlong]
      omega

theorem codeBits_length (c : BitVec 16 × Nat) : (codeBits c).length = c.2 := by simp [codeBits]

theorem length_flatMap_codeBits (cs : List (BitVec 16 × Nat)) : (cs.flatMap codeBits).length = (cs.map Prod.snd).sum := by
  rw [List.length_flatMap]
  exact congrArg List.sum (List.map_congr_left fun c _ => codeBits_length c)

theorem streamBits_length (xlat : Bool) (x : List Byte) : (streamBits xlat x).length = streamWidth xlat x :=
  length_flatMap_codeBits _

theorem longCount_le (xlat : Bool) (x : List Byte) : longCount xlat x ≤ x.length :=
  List.countP_le_length.trans_eq (codesFrom_length xlat seed x)

theorem streamWidth_eq (xlat : Bool) (x : List Byte) : streamWidth xlat x = 6 * x.length + 3 * longCount xlat x := by
  rw [streamWidth, streamCodes, sum_widths fun _ => width_of_mem_codesFrom, codesFrom_length]
  rfl

/-- Settles O34: a short code takes 6 bits and a long one 9. -/
theorem streamLengthCountsLongCodes : Obligations.StreamLengthCountsLongCodes := by
  intro xlat x
  have hlong := longCount_le xlat x
  refine ⟨?_, hlong, streamBits_length xlat x⟩
  rw [streamBytes, ceil8, streamWidth_eq]
  omega

/-- Bit `k` of a code is a 1 exactly if it lies inside the code's width and is set in its value. -/
theorem codeBits_getElem?_eq_true {c : BitVec 16 × Nat} {k : Nat} : (codeBits c)[k]? = some true ↔ k < c.2 ∧ c.1.getLsbD k = true := by
  by_cases hk : k < c.2 <;> simp [codeBits, hk]

/-! ## Bits ORed into memory -/

/-- Memory `m'` is `m` with exactly the 1 bits of `bits` set, bit number `k` at the byte and bit `place k`. -/
def BitsOred (bits : List Bool) (place : Nat → Nat × Nat) (m m' : Memory) : Prop :=
  ∀ a j, j < 8 → ((m'.read a).getLsbD j = true ↔
    (m.read a).getLsbD j = true ∨ ∃ k, bits[k]? = some true ∧ place k = (a, j))

theorem BitsOred.nil (place : Nat → Nat × Nat) (m : Memory) : BitsOred [] place m m := fun _ _ _ => by simp

/-- The rules' OR of a field is that of its bits at the writer cursor (41_bitwriter.md R120). -/
theorem fieldOred_iff_bitsOred {v : BitVec 16} {n : Nat} {s t : State} :
    FieldOred v n s t ↔ BitsOred (codeBits (v, n)) (fieldBitAt s) s.mem t.mem := by
  simp only [FieldOred, BitsOred, codeBits_getElem?_eq_true, and_assoc]

theorem exists_getElem?_append_iff {l l' : List Bool} {P : Nat → Prop} :
    (∃ k, (l ++ l')[k]? = some true ∧ P k) ↔ (∃ k, l[k]? = some true ∧ P k) ∨ ∃ k, l'[k]? = some true ∧ P (l.length + k) := by
  constructor
  · rintro ⟨k, hk, hP⟩
    by_cases hlt : k < l.length
    · exact .inl ⟨k, by rwa [List.getElem?_append_left hlt] at hk, hP⟩
    · refine .inr ⟨k - l.length, by rwa [List.getElem?_append_right (Nat.not_lt.mp hlt)] at hk, ?_⟩
      rwa [Nat.add_sub_cancel' (Nat.not_lt.mp hlt)]
  · rintro (⟨k, hk, hP⟩ | ⟨k, hk, hP⟩)
    · exact ⟨k, by rwa [List.getElem?_append_left (List.getElem?_eq_some_iff.mp hk).1], hP⟩
    · exact ⟨l.length + k, by rwa [List.getElem?_append_right (Nat.le_add_right _ _), Nat.add_sub_cancel_left], hP⟩

/-- Bits ORed in after one another are ORed in together. -/
theorem BitsOred.append {l l' : List Bool} {place : Nat → Nat × Nat} {m m' m'' : Memory} (h : BitsOred l place m m')
    (h' : BitsOred l' (fun k => place (l.length + k)) m' m'') : BitsOred (l ++ l') place m m'' := by
  intro a j hj
  rw [h' a j hj, h a j hj, exists_getElem?_append_iff, or_assoc]

/-! ## Where stream bits stand -/

/-- Where bit `k` of a stream stands whose byte 0 is at `start` (20_memory.md R63, R68). -/
def streamPlace (space start k : Nat) : Nat × Nat := ((start + k / 8) % space, k % 8)

theorem bufferBit_eq (m : Memory) (space start k : Nat) :
    bufferBit m space start k = (m.read (streamPlace space start k).1).getLsbD (streamPlace space start k).2 := rfl

/-- In a buffer of `n` bytes, no more than the space has, no two bits share a place. -/
theorem streamPlace_inj {space start n k k' : Nat} (hn : n ≤ space) (hk : k < 8 * n) (hk' : k' < 8 * n)
    (h : streamPlace space start k = streamPlace space start k') : k = k' := by
  obtain ⟨haddr, hbit⟩ := Prod.mk.inj h
  have hbyte : k / 8 ≡ k' / 8 [MOD space] := Nat.ModEq.add_left_cancel' start haddr
  have := hbyte.eq_of_lt_of_lt (by omega) (by omega)
  omega

section Zeroed

variable {bits : List Bool} {space start n : Nat} {m m' : Memory} (h : BitsOred bits (streamPlace space start) m m')
  (hbits : bits.length ≤ 8 * n)
include h hbits

/-- After an OR into a zeroed buffer, a bit of the buffer is 1 exactly if the stream has a 1 there. -/
theorem BitsOred.bufferBit_iff (hn : n ≤ space) (hzero : ∀ i, i < n → m.read ((start + i) % space) = 0#8) {k : Nat} (hk : k < 8 * n) :
    bufferBit m' space start k = true ↔ bits[k]? = some true := by
  have hold : (m.read (streamPlace space start k).1).getLsbD (streamPlace space start k).2 = false := by
    rw [streamPlace, hzero (k / 8) (by omega), BitVec.getLsbD_zero]
  rw [bufferBit_eq, h _ _ (show (streamPlace space start k).2 < 8 from Nat.mod_lt k (by decide)), hold]
  constructor
  · rintro (hfalse | ⟨k', hk', hplace⟩)
    · cases hfalse
    · have hlt : k' < bits.length := (List.getElem?_eq_some_iff.mp hk').1
      rwa [← streamPlace_inj hn (by omega) hk hplace]
  · exact fun hk' => .inr ⟨k, hk', rfl⟩

/-- A byte outside the buffer is as before. -/
theorem BitsOred.read_of_ne {b : Nat} (hb : ∀ i, i < n → b ≠ (start + i) % space) : m'.read b = m.read b := by
  refine BitVec.eq_of_getLsbD_eq fun j hj => Bool.eq_iff_iff.mpr ?_
  rw [h b j hj, or_iff_left]
  rintro ⟨k, hk, hplace⟩
  have hlt : k < bits.length := (List.getElem?_eq_some_iff.mp hk).1
  exact hb (k / 8) (by omega) (Prod.mk.inj hplace).1.symm

end Zeroed

end Sys2Proof.Machine
end

section
/-! SUPPORT. What a BitWrite that fits the view does to memory, bit by bit, and to the cursor (41_bitwriter.md R120; 20_memory.md R63, R66),
and what ENC.SYM does (44_codec.md R172). -/

namespace Sys2Proof.Machine

/-! ## The bits of a BitWrite -/

/-- MemOr over the covered bytes sets exactly the 1 bits of their masks. -/
theorem orBytes_getLsbD {v : View} {f : BitVec 24} {count i : Nat} {s t : State} (h : orBytes v f count i s = .next t) (a j : Nat) :
    (t.mem.read a).getLsbD j = true ↔ (s.mem.read a).getLsbD j = true ∨
      ∃ m, i ≤ m ∧ m < i + count ∧ a = (v.start + m) % s.params.space ∧ (fieldByte f m).getLsbD j = true := by
  induction count generalizing i s with
  | zero =>
    cases h
    exact (or_iff_left fun ⟨m, h1, h2, _⟩ => by omega).symm
  | succ count ih =>
    obtain ⟨u, hu, ht⟩ := chain_eq_next h
    have hfirst : (u.mem.read a).getLsbD j = true ↔ (s.mem.read a).getLsbD j = true ∨
        (a = (v.start + i) % s.params.space ∧ (fieldByte f i).getLsbD j = true) := by
      rw [orByte_read hu a]
      split
      · simp [BitVec.getLsbD_or, *]
      · simp [*]
    rw [ih ht, hfirst, (orByte_frame hu).params, or_assoc]
    refine or_congr_right ⟨?_, ?_⟩
    · rintro (⟨ha, hj⟩ | ⟨m, h1, h2, hm⟩)
      · exact ⟨i, le_refl i, by omega, ha, hj⟩
      · exact ⟨m, by omega, by omega, hm⟩
    · rintro ⟨m, h1, h2, hm⟩
      obtain rfl | hne := Nat.eq_or_lt_of_le h1
      · exact .inl hm
      · exact .inr ⟨m, hne, by omega, hm⟩

/-- Bit `j` of the mask of covered byte `m` is the field's bit that stands there. -/
theorem fieldByte_placedField_getLsbD {v : BitVec 16} {n : Nat} (hn : n ≤ 16) (off : BitVec 3) {m j : Nat} (hj : j < 8) :
    (fieldByte (placedField v n off) m).getLsbD j = true ↔
      ∃ k, k < n ∧ v.getLsbD k = true ∧ 8 * m + j = off.toNat + k := by
  rw [fieldByte, BitVec.getLsbD_extractLsb', BitVec.getLsbD, placedField_toNat v hn, Nat.testBit_mul_two_pow, Nat.testBit_mod_two_pow]
  simp only [hj, decide_true, Bool.true_and, Bool.and_eq_true, decide_eq_true_eq]
  constructor
  · rintro ⟨hoff, hlt, hv⟩
    exact ⟨8 * m + j - off.toNat, hlt, hv, by omega⟩
  · rintro ⟨k, hk, hv, hplace⟩
    rw [hplace, Nat.add_sub_cancel_left]
    exact ⟨Nat.le_add_right _ _, hk, hv⟩

/-- The covered bytes of a field hold its bits at their places (20_memory.md R63). -/
theorem fieldOred_of_orBytes {v : BitVec 16} {n : Nat} (hn : n ≤ 16) {s t : State}
    (h : orBytes s.writerView (placedField v n s.writer.off) (ceil8 (s.writer.off.toNat + n)) 0 s = .next t) : FieldOred v n s t := by
  intro a j hj
  rw [orBytes_getLsbD h a j]
  refine or_congr_right ⟨?_, ?_⟩
  · rintro ⟨m, -, -, rfl, hbit⟩
    obtain ⟨k, hk, hv, hplace⟩ := (fieldByte_placedField_getLsbD hn _ hj).mp hbit
    refine ⟨k, hk, hv, ?_⟩
    rw [fieldBitAt, ← hplace, show (8 * m + j) / 8 = m by omega, show (8 * m + j) % 8 = j by omega]
    rfl
  · rintro ⟨k, hk, hv, hplace⟩
    obtain ⟨rfl, rfl⟩ := Prod.mk.inj hplace
    refine ⟨(s.writer.off.toNat + k) / 8, Nat.zero_le _, by unfold ceil8; omega, rfl, ?_⟩
    exact (fieldByte_placedField_getLsbD hn _ hj).mpr ⟨k, hk, hv, Nat.div_add_mod _ 8⟩

theorem advance_cursorMoved {n : Nat} {s : State} (hfit : fieldFits n s) {t : State} (ht : t.writer = s.writer.advance s.params n) :
    CursorMoved n s t := by
  have hlen := s.writer.len.isLt
  rw [CursorMoved, ht]
  refine ⟨wrapAddr_toNat _ _, ?_, ?_⟩
  · show (s.writer.len - BitVec.ofNat 32 _).toNat = _
    rw [BitVec.toNat_sub_of_le, BitVec.toNat_ofNat, Nat.mod_eq_of_lt (by omega)]
    rw [BitVec.le_def, BitVec.toNat_ofNat, Nat.mod_eq_of_lt (by omega)]
    omega
  · show (BitVec.ofNat 3 _).toNat = _
    rw [BitVec.toNat_ofNat, Nat.mod_eq_of_lt (by omega)]

/-- A BitWrite of 1 to 16 bits that fits the view, where it goes on, is the OR of its field and the move of the cursor (R120). -/
theorem bitWrite_of_fits {v : BitVec 16} {n : Nat} {s t : State} {e : WriteEnd} (h0 : n ≠ 0) (hn : n ≤ 16) (hfit : fieldFits n s)
    (h : bitWrite v n s = .next (e, t)) :
    e = .ok ∧ FieldOred v n s t ∧ CursorMoved n s t ∧ t = { s with writer := t.writer, mem := t.mem, port := t.port } := by
  rcases bitWrite_eq_next h with ⟨hz, -, -⟩ | ⟨-, hno, -, -⟩ | ⟨-, -, he, u, hu, rfl⟩
  · exact absurd hz h0
  · exact absurd hfit (of_decide_eq_false hno)
  · have hframe := bitWrite_frame h
    rw [show (u.setWriter (s.writer.advance s.params n)).flags = s.flags from (orBytes_frame hu).flags] at hframe
    have hmem : FieldOred v n s u := fieldOred_of_orBytes hn hu
    exact ⟨he, hmem, advance_cursorMoved hfit rfl, hframe⟩

/-! ## Commands that write a field -/

theorem addr_mem_fieldAccesses {v : BitVec 16} {n : Nat} {s : State} {b : PortAccess} (hfit : fieldFits n s)
    (h : b ∈ fieldAccesses v n s) : s.writerView.covers s.params.space b.addr = true := by
  obtain ⟨i, hi, hb⟩ := List.mem_filterMap.mp h
  have hlt : i < s.writer.len.toNat := lt_of_lt_of_le (List.mem_range.mp hi) hfit
  split at hb
  · cases hb
  · cases hb
    exact s.writerView.covers_add (space_pos _) hlt

/-- A command that writes a field that fits a usable view goes on, with the accesses of its field (R110, R120). -/
theorem exec_next_of_fits {i : Instr} {s : State} {v : BitVec 16} {n : Nat} (hi : writtenField i s = some (v, n))
    (hwf : i.wellFormed = true) (hfit : fieldFits n s) (hv : usableView s.params s.writerView) :
    ∃ t, exec i s = .next t ∧ t.port = s.port ++ fieldAccesses v n s := by
  obtain ⟨hplain, hadm⟩ := hv
  refine portOf_eq_next ?_
  rw [portOf_writer hi hwf, if_pos hfit]
  exact portOutcome_of_admitted (.inr hplain) fun b hb => hadm _ (addr_mem_fieldAccesses hfit hb)

theorem writtenField_encSym (c : Byte) (s : State) : writtenField (.encSym c) s = some (code (symbolDelta c s)) := by
  rw [code_eq]
  rfl

/-- An ENC.SYM whose code fits the view, where it goes on, writes the code of the delta and accounts the symbol (R172). -/
theorem execEncSym_of_fits {c : Byte} {s t : State} (hfit : fieldFits (code (symbolDelta c s)).2 s) (h : exec (.encSym c) s = .next t) :
    FieldOred (code (symbolDelta c s)).1 (code (symbolDelta c s)).2 s t ∧ CursorMoved (code (symbolDelta c s)).2 s t ∧
      t = { accountSymbol c (code (symbolDelta c s)).2 s with writer := t.writer, mem := t.mem, port := t.port } := by
  obtain ⟨⟨e, u⟩, hu, ht⟩ := chain_eq_next h
  have hwidth := code_width (symbolDelta c s)
  obtain ⟨rfl, hmem, hcur, hframe⟩ := bitWrite_of_fits (by omega) (by omega) hfit hu
  cases ht
  refine ⟨hmem, hcur, ?_⟩
  conv_lhs => rw [hframe]
  rfl

/-! ## The cursor over several fields -/

/-- The bit of a later field stands after the bits of the earlier one. -/
theorem CursorMoved.fieldBitAt {n : Nat} {s t : State} (h : CursorMoved n s t) (hp : t.params = s.params) (k : Nat) :
    fieldBitAt t k = fieldBitAt s (n + k) := by
  obtain ⟨haddr, -, hoff⟩ := h
  have hbyte : (s.writer.off.toNat + n) / 8 + ((s.writer.off.toNat + n) % 8 + k) / 8 = (s.writer.off.toNat + (n + k)) / 8 := by omega
  rw [Machine.fieldBitAt, Machine.fieldBitAt, haddr, hoff, hp, Nat.mod_add_mod, Nat.add_assoc, hbyte]
  exact congrArg _ (by omega)

theorem CursorMoved.zero {s : State} (h : s.writer.addr.toNat < s.params.space) : CursorMoved 0 s s := by
  have hoff := s.writer.off.isLt
  have h8 : (s.writer.off.toNat + 0) / 8 = 0 := by omega
  rw [CursorMoved, h8]
  exact ⟨(Nat.mod_eq_of_lt h).symm, rfl, by omega⟩

/-- Moves of the cursor add up (41_bitwriter.md R123). -/
theorem CursorMoved.trans {n n' : Nat} {s t u : State} (h : CursorMoved n s t) (hp : t.params = s.params) (h' : CursorMoved n' t u) :
    CursorMoved (n + n') s u := by
  obtain ⟨haddr, hlen, hoff⟩ := h
  obtain ⟨haddr', hlen', hoff'⟩ := h'
  have hbyte : (s.writer.off.toNat + n) / 8 + ((s.writer.off.toNat + n) % 8 + n') / 8 = (s.writer.off.toNat + (n + n')) / 8 := by omega
  refine ⟨?_, ?_, ?_⟩
  · rw [haddr', haddr, hoff, hp, Nat.mod_add_mod, Nat.add_assoc, hbyte]
  · rw [hlen', hlen, hoff, Nat.sub_sub, hbyte]
  · rw [hoff', hoff]
    omega

/-- What is left of a field that fits the view still fits after its first bits. -/
theorem CursorMoved.fieldFits {n n' : Nat} {s t : State} (h : CursorMoved n s t) (hfit : fieldFits (n + n') s) : fieldFits n' t := by
  obtain ⟨-, hlen, hoff⟩ := h
  rw [Machine.fieldFits, hlen, hoff]
  rw [Machine.fieldFits] at hfit
  omega

/-! ## Views inside a view -/

theorem usableView_of_covers {p : Params} {v v' : View} (hv : usableView p v)
    (h : ∀ a, v'.covers p.space a = true → v.covers p.space a = true) : usableView p v' := by
  obtain ⟨hplain, hadm⟩ := hv
  refine ⟨Bool.eq_false_iff.mpr fun hdev => ?_, fun a ha => hadm a (h a ha)⟩
  obtain ⟨a, ha, hd⟩ := viewCoversDevice_iff.mp hdev
  exact Bool.eq_false_iff.mp hplain (viewCoversDevice_iff.mpr ⟨a, h a ha, hd⟩)

/-- What is left of a usable view after its first `k` bytes is usable. -/
theorem usableView_drop {p : Params} {v v' : View} {k : Nat} (hv : usableView p v) (hs : v'.start = (v.start + k) % p.space)
    (hl : v'.len = v.len - k) : usableView p v' := by
  refine usableView_of_covers hv fun a ha => ?_
  obtain ⟨i, hi, rfl⟩ := (v'.covers_iff_exists (space_pos p)).mp ha
  rw [hs, Nat.mod_add_mod, Nat.add_assoc]
  exact v.covers_add (space_pos p) (by omega)

theorem CursorMoved.usableView {n : Nat} {s t : State} (h : CursorMoved n s t) (hp : t.params = s.params)
    (hv : usableView s.params s.writerView) : usableView t.params t.writerView := by
  obtain ⟨haddr, hlen, -⟩ := h
  rw [hp]
  exact usableView_drop hv haddr hlen

/-! ## A string -/

theorem codesFrom_cons (c : Byte) (rest : List Byte) (s : State) : codesFrom s.params.xlat s.enc.prev (c :: rest) =
    code (symbolDelta c s) :: codesFrom s.params.xlat (translate s.params.xlat c) rest := rfl

/-- A run of ENC.SYMs whose codes fit a usable view goes on, ORs the codes' bits in after one another, moves the cursor by their widths and
counts them in E_BITS; no error is recorded (R172, R176). -/
theorem runCommands_encSym {x : List Byte} {s : State} {cs : List (BitVec 16 × Nat)} (hcs : codesFrom s.params.xlat s.enc.prev x = cs)
    (haddr : s.writer.addr.toNat < s.params.space) (hfit : fieldFits (cs.map Prod.snd).sum s) (hv : usableView s.params s.writerView) :
    ∃ t, runCommands (x.map .encSym) s = .next t ∧ BitsOred (cs.flatMap codeBits) (fieldBitAt s) s.mem t.mem ∧
      CursorMoved (cs.map Prod.snd).sum s t ∧ t.enc.bits = s.enc.bits + BitVec.ofNat 32 (cs.map Prod.snd).sum ∧
      t = { s with writer := t.writer, enc := t.enc, mem := t.mem, port := t.port } := by
  induction x generalizing s cs with
  | nil =>
    cases hcs
    exact ⟨s, rfl, BitsOred.nil _ _, CursorMoved.zero haddr, (BitVec.add_zero _).symm, rfl⟩
  | cons c rest ih =>
    cases hcs
    have hfit₀ : fieldFits (code (symbolDelta c s)).2 s := by
      rw [codesFrom_cons, List.map_cons, List.sum_cons] at hfit
      exact le_trans (Nat.div_le_div_right (by omega)) hfit
    obtain ⟨u, hu, -⟩ := exec_next_of_fits (writtenField_encSym c s) rfl hfit₀ hv
    obtain ⟨hmem, hcur, hframe⟩ := execEncSym_of_fits hfit₀ hu
    have hp : u.params = s.params := by rw [hframe]; rfl
    have henc : u.enc = (accountSymbol c (code (symbolDelta c s)).2 s).enc := by rw [hframe]
    have haddr' : u.writer.addr.toNat < u.params.space := by rw [hp, hcur.1]; exact Nat.mod_lt _ (space_pos _)
    obtain ⟨t, ht, hmem', hcur', hbits', hframe'⟩ :=
      ih (s := u) (by rw [hp, henc]; rfl) haddr' (hcur.fieldFits hfit) (hcur.usableView hp hv)
    have hplace : fieldBitAt u = fun k => fieldBitAt s ((codeBits (code (symbolDelta c s))).length + k) := by
      rw [codeBits_length]
      exact funext (hcur.fieldBitAt hp)
    refine ⟨t, ?_, ?_, hcur.trans hp hcur', ?_, ?_⟩
    · show chain (exec (.encSym c) s) _ = _
      rw [hu]
      exact ht
    · exact (fieldOred_iff_bitsOred.mp hmem).append (hplace ▸ hmem')
    · rw [hbits', henc, accountSymbol_enc, BitVec.add_assoc, ← BitVec.ofNat_add]
      rfl
    · rw [hframe', hframe]
      rfl

end Sys2Proof.Machine
end

section
/-! SUPPORT. The host's procedures as register accesses (30_encoding.md R90; 46_host_sequences.md), and ENCODE (R211). -/

namespace Sys2Proof.Machine

/-! ## `WR`, `RD` and a command on its own line (R90) -/

theorem Reg.atOffset_offset (r : Reg) : Reg.atOffset r.offset = some r := by cases r <;> rfl

theorem Reg.offset_lt (r : Reg) : r.offset < windowBytes := by cases r <;> decide

theorem Reg.offset_aligned (r : Reg) : r.offset % 4 = 0 := by cases r <;> rfl

theorem hostAccess_wr (s : State) {r : Reg} (hr : r ≠ .cmd) (v : Word) : hostAccess (wr s.params r v) s = .next (writeReg r v s) := by
  rw [wr, hostAccess_regWrite_word s v r.offset_lt r.offset_aligned, writeOffset, r.atOffset_offset]
  exact if_neg hr

theorem hostAccess_cmd (s : State) {i : Instr} (hwf : i.wellFormed = true) : hostAccess (cmd s.params i) s = exec i s := by
  rw [cmd, wr, hostAccess_regWrite_word s _ (Reg.offset_lt .cmd) (Reg.offset_aligned .cmd), Reg.offset, writeOffset_cmd,
    executeCommand_of_decode (decode_encode hwf)]

theorem hostAccess_rd (r : Reg) (s : State) : hostAccess (rd s.params r) s = .next (s.logRead (readReg r s)) := by
  simp only [rd, hostAccess, touchesWindow_word _ r.offset_lt, alignedWord_base _ r.offset_aligned, if_true, Nat.add_sub_cancel_left,
    readOffset, r.atOffset_offset]

/-- A host read answers the register's word, and is recorded (log 8). -/
theorem hostRead_eq (r : Reg) (s : State) : hostRead r s = .next (readReg r s, s.logRead (readReg r s)) := by
  rw [hostRead, hostAccess_rd]
  simp

@[simp] theorem writeReg_params (r : Reg) (v : Word) (s : State) : (writeReg r v s).params = s.params := by cases r <;> rfl

theorem keptByOperations_params (p : Params) : KeptByOperations (fun s => s.params = p) where
  registers := fun _ _ _ _ h => h
  bitWrite := fun h ht => by rw [bitWrite_frame ht]; exact h
  rent := fun _ h ht => by rw [rent_frame ht]; exact h
  advance := fun n _ h => by rw [advance_frame]; exact h
  emptied := fun h => h

theorem exec_params {i : Instr} {s t : State} (h : exec i s = .next t) : t.params = s.params :=
  (keptByOperations_params s.params).exec rfl h

theorem runAccesses_wr {p : Params} {s : State} (hp : s.params = p) {r : Reg} (hr : r ≠ .cmd) (v : Word) (ops : List HostOp) :
    runAccesses (wr p r v :: ops) s = runAccesses ops (writeReg r v s) := by
  subst hp
  rw [runAccesses, hostAccess_wr s hr, chain_next]

theorem runAccesses_cmd {p : Params} {s : State} (hp : s.params = p) {i : Instr} (hwf : i.wellFormed = true) (ops : List HostOp) :
    runAccesses (cmd p i :: ops) s = chain (exec i s) (runAccesses ops) := by
  subst hp
  rw [runAccesses, hostAccess_cmd s hwf]

/-- Commands issued by the host run one after another (40_control.md R110). -/
theorem runAccesses_map_cmd {p : Params} {is : List Instr} (hwf : ∀ i ∈ is, i.wellFormed = true) {s : State} (hp : s.params = p) :
    runAccesses (is.map (cmd p)) s = runCommands is s := by
  induction is generalizing s with
  | nil => rfl
  | cons i rest ih =>
    rw [List.map_cons, runAccesses_cmd hp (hwf i List.mem_cons_self), runCommands]
    cases hi : exec i s with
    | next t => exact ih (fun j hj => hwf j (List.mem_cons_of_mem i hj)) ((exec_params hi).trans hp)
    | fault f => rfl
    | refused r => rfl

/-! ## ENCODE -/

/-- The state in which ENCODE issues its first ENC.SYM: the writer at bit 0 of the view, and the encoder at its seed (R211). -/
def State.encodeStart (s : State) (a len : Word) : State :=
  { s with writer := { addr := wrapAddr s.params a.toNat, len := len, off := 0#3 }, enc := { prev := seed, bits := 0#32 } }

theorem runAccesses_encodeOps (x : List Byte) (a len : Word) (s : State) :
    runAccesses (encodeOps s.params x a len) s = runCommands (x.map .encSym) (s.encodeStart a len) := by
  have hsyms : x.map (fun c => cmd s.params (.encSym c)) = (x.map Instr.encSym).map (cmd s.params) := by simp
  have hwf : ∀ i ∈ x.map Instr.encSym, i.wellFormed = true := fun i hi => by
    obtain ⟨c, -, rfl⟩ := List.mem_map.mp hi
    rfl
  simp only [encodeOps, hsyms, List.cons_append, List.nil_append, runAccesses_wr, writeReg_params, ne_eq, reduceCtorEq,
    not_false_eq_true]
  rw [runAccesses_cmd (by simp only [writeReg_params]) rfl]
  exact runAccesses_map_cmd (s := s.encodeStart a len) hwf rfl

theorem fieldBitAt_encodeStart (a len : Word) (s : State) : fieldBitAt (s.encodeStart a len) = streamPlace s.params.space a.toNat := by
  funext k
  simp [fieldBitAt, streamPlace, State.encodeStart]

theorem usableView_encodeStart {a len : Word} {s : State} (hv : usableView s.params { start := a.toNat, len := len.toNat }) :
    usableView (s.encodeStart a len).params (s.encodeStart a len).writerView :=
  usableView_drop (k := 0) hv (wrapAddr_toNat _ _) rfl

/-- ENCODE into a usable view that is large enough goes on: it ORs in the stream's bits from the view's first bit on, leaves the cursor after
them, returns what E_BITS counts of them, and records no error (R176, R211). -/
theorem encodeString_eq_next {x : List Byte} {a len : Word} {s : State} (hlen : streamBytes s.params.xlat x ≤ len.toNat)
    (hv : usableView s.params { start := a.toNat, len := len.toNat }) :
    ∃ t, encodeString x a len s = .next (BitVec.ofNat 32 (ceil8 (streamWidth s.params.xlat x % 2 ^ 32)), t) ∧
      BitsOred (streamBits s.params.xlat x) (streamPlace s.params.space a.toNat) s.mem t.mem ∧
      CursorMoved (streamWidth s.params.xlat x) (s.encodeStart a len) t ∧
      t = { s with writer := t.writer, enc := t.enc, mem := t.mem, port := t.port, hostReads := t.hostReads } := by
  have hfit : fieldFits (streamWidth s.params.xlat x) (s.encodeStart a len) := by
    show (0 + streamWidth s.params.xlat x + 7) / 8 ≤ len.toNat
    rwa [Nat.zero_add]
  obtain ⟨t, ht, hmem, hcur, hbits, hframe⟩ := runCommands_encSym (x := x) (s := s.encodeStart a len) rfl
    (wrapAddr_lt _ _) hfit (usableView_encodeStart hv)
  rw [fieldBitAt_encodeStart] at hmem
  have hcount : t.enc.bits.toNat = streamWidth s.params.xlat x % 2 ^ 32 := by
    rw [hbits]
    exact (congrArg BitVec.toNat (BitVec.zero_add _)).trans (BitVec.toNat_ofNat ..)
  have hsize : readReg .eBytes t = BitVec.ofNat 32 (ceil8 (streamWidth s.params.xlat x % 2 ^ 32)) := by
    rw [readReg, State.eBytes, hcount]
  refine ⟨t.logRead (BitVec.ofNat 32 (ceil8 (streamWidth s.params.xlat x % 2 ^ 32))), ?_, hmem, hcur, ?_⟩
  · rw [encodeString, runAccesses_encodeOps, ht, chain_next, hostRead_eq, hsize]
  · rw [hframe]
    rfl

/-- Settles O53: the stream's bits are ORed into zeroes, each at a place of its own. -/
theorem encodeWritesTheStream : Obligations.EncodeWritesTheStream := by
  intro x a len s hcount hlen hspace hv hzero
  obtain ⟨t, ht, hmem, ⟨haddr, -, hoff⟩, hframe⟩ := encodeString_eq_next hlen hv
  have hlength := streamBits_length s.params.xlat x
  have hbits : (streamBits s.params.xlat x).length ≤ 8 * streamBytes s.params.xlat x := by
    rw [hlength, streamBytes, ceil8]
    omega
  have hbuffer {k : Nat} := hmem.bufferBit_iff hbits hspace hzero (k := k)
  refine ⟨t, by rw [ht, Nat.mod_eq_of_lt hcount]; rfl, fun k hk => ?_, fun k hk hk8 => ?_,
    fun b hb => hmem.read_of_ne hbits hb, by rw [hframe], ?_, ?_⟩
  · have hbit := List.getElem?_eq_getElem (hlength.symm ▸ hk : k < (streamBits s.params.xlat x).length)
    have hiff := hbuffer (k := k) (by omega)
    rw [hbit, Option.some_inj, Bool.coe_iff_coe] at hiff
    rw [hbit, hiff]
  · have hnone : (streamBits s.params.xlat x)[k]? = none := List.getElem?_eq_none (by omega)
    rw [Bool.eq_false_iff, ne_eq, hbuffer hk8, hnone]
    exact nofun
  · simpa [State.encodeStart] using haddr
  · simpa [State.encodeStart] using hoff

end Sys2Proof.Machine
end

section
/-! SUPPORT. The control command and the register window, register by register (40_control.md R110 to R115; 10_state.md R22 to R41). -/

namespace Sys2Proof.Machine

/-! ## NOP, and RESULT (R112, R115) -/

/-- Settles O13: the rule of NOP answers the state it is given. -/
theorem nopChangesNothing : Obligations.NopChangesNothing := fun _ => rfl

theorem bitWrite_result {v : BitVec 16} {n : Nat} {s t : State} {e : WriteEnd} (h : bitWrite v n s = .next (e, t)) :
    t.result = s.result := by rw [bitWrite_frame h]

theorem writeField_result {v : BitVec 16} {n : Nat} {s t : State} (h : writeField v n s = .next t) : t.result = s.result := by
  obtain ⟨e, he⟩ := writeField_eq_next h
  exact bitWrite_result he

theorem decodeStep_result {s t : State} (h : decodeStep s = .next t) : t.result = s.result := by rw [decodeStep_frame h]

theorem exec_result {i : Instr} {s t : State} (hxlat : ∀ b, i ≠ .xlat b) (hrent : ∀ n, i ≠ .rent n) (h : exec i s = .next t) :
    t.result = s.result := by
  cases i with
  | xlat b => exact absurd rfl (hxlat b)
  | rent n => exact absurd rfl (hrent n)
  | nop | encInit | measSym _ => cases h; rfl
  | wbit _ | wbyte _ => exact writeField_result h
  | wfield n v =>
    rw [exec, execWfield] at h
    split at h
    · exact writeField_result h
    · cases h; rfl
  | radv n =>
    rw [exec, execRadv] at h
    split at h
    · cases h; rw [advance_frame]
    · cases h; rfl
  | encSym c =>
    obtain ⟨e, u, hu, rfl | rfl⟩ := execEncSym_eq_next h
    · exact bitWrite_result hu
    · rw [accountSymbol_result, bitWrite_result hu]
  | decInit =>
    rw [exec, execDecInit] at h
    split at h
    · cases h; rfl
    · exact decodeStep_result (s := seedDecoder s) h
  | decNext =>
    rw [exec, execDecNext] at h
    split at h
    · cases h; rfl
    · dsimp only at h
      split at h
      · cases h; rfl
      · exact decodeStep_result (s := s.setDec { s.dec with rem := s.dec.rem - 1#32 }) h

/-- Settles O43: an illegal word only raises ILL, and no command but XLAT and RENT writes RESULT. -/
theorem onlyXlatAndRentWriteResult : Obligations.OnlyXlatAndRentWriteResult := by
  intro w s t h hxlat hrent
  cases hd : decode w with
  | error e =>
    rw [executeCommand, hd] at h
    cases h
    rfl
  | ok i =>
    rw [executeCommand_of_decode hd] at h
    exact exec_result (fun b hi => hxlat b (hi ▸ hd)) (fun n hi => hrent n (hi ▸ hd)) h

/-! ## Completion (R110) -/

/-- An access inside its view is admitted where both views are usable. -/
theorem InsideItsView.admitted {s : State} {b : PortAccess} (h : InsideItsView s b) (hr : usableView s.params s.readerView)
    (hw : usableView s.params s.writerView) : s.params.memAdmit b.addr = true := by
  obtain ⟨-, hread⟩ := hr
  obtain ⟨-, hor⟩ := hw
  cases b with
  | read a => exact hread a h
  | orByte a m =>
    obtain ⟨hcovers, -⟩ := h
    exact hor a hcovers

/-- A command whose planned accesses are all admitted plain memory goes on (R70). -/
theorem exec_next_of_usable {i : Instr} {s : State} (hwf : i.wellFormed = true) (hr : usableView s.params s.readerView)
    (hw : usableView s.params s.writerView) : ∃ t, exec i s = .next t := by
  have hplain : s.params.viewCoversDevice (accessView i s) = false := by
    obtain hview | hview := accessView_eq i s
    · rw [hview]; exact hr.1
    · rw [hview]; exact hw.1
  have hport : portOf (exec i s) = .next (s.port ++ plannedAccesses i s) := by
    rw [portOf_exec s hwf]
    exact portOutcome_of_admitted (.inr hplain) fun _ hb => (insideItsView_of_mem_planned hb).admitted hr hw
  obtain ⟨t, ht, -⟩ := portOf_eq_next hport
  exact ⟨t, ht⟩

/-- Settles O47: an illegal word has no access to make, and a legal one only accesses inside the two views. -/
theorem everyCommandCompletesOnUsableViews : Obligations.EveryCommandCompletesOnUsableViews := by
  intro w s hr hw
  cases hd : decode w with
  | error e => exact ⟨raise .ill s, by rw [executeCommand, hd]⟩
  | ok i =>
    rw [executeCommand_of_decode hd]
    exact exec_next_of_usable (decodedWordEncodesToItself w i hd).1 hr hw

/-! ## The map of the window (R22) -/

theorem Reg.offset_of_atOffset {off : Nat} {r : Reg} (h : Reg.atOffset off = some r) : r.offset = off := by
  rw [atOffset] at h
  simpa using List.find?_some h

/-- An aligned offset of the window is a register's, or one of the reserved ones, which begin at 0x48. -/
theorem Reg.offset_or_reserved {off : Nat} (hlt : off < windowBytes) (ha : off % 4 = 0) :
    (∃ r : Reg, off = r.offset) ∨ (0x48 ≤ off ∧ Reg.atOffset off = none) := by
  obtain ⟨k, rfl⟩ : ∃ k, off = 4 * k := ⟨off / 4, by omega⟩
  have hmap : ∀ k < 32, Reg.atOffset (4 * k) = none → 0x48 ≤ 4 * k := by decide
  cases hr : Reg.atOffset (4 * k) with
  | none => exact .inr ⟨hmap k (by unfold windowBytes at hlt; omega) hr, rfl⟩
  | some r => exact .inl ⟨r, (Reg.offset_of_atOffset hr).symm⟩

/-- A host read of an aligned word of the window (R23). -/
theorem hostAccess_regRead_word (s : State) {off : Nat} (hlt : off < windowBytes) (ha : off % 4 = 0) :
    hostAccess (.regRead (s.params.base + off) .word) s = .next (s.logRead (readOffset off s)) := by
  simp only [hostAccess, touchesWindow_word _ hlt, alignedWord_base _ ha, if_true, Nat.add_sub_cancel_left]

theorem readOffset_offset (r : Reg) (s : State) : readOffset r.offset s = readReg r s := by rw [readOffset, r.atOffset_offset]

theorem readOffset_reserved {off : Nat} (h : Reg.atOffset off = none) (s : State) : readOffset off s = 0#32 := by rw [readOffset, h]

theorem writeOffset_reserved {off : Nat} (h : Reg.atOffset off = none) (v : Word) (s : State) : writeOffset off v s = .next s := by
  rw [writeOffset, h]

/-! ## Reads: STATUS, CONFIG and the derived fields -/

/-- A flag's share of a register word, as the `if` of the rules. -/
theorem mul_toNat_eq_ite (b : Bool) (k : Nat) : k * b.toNat = if b then k else 0 := by cases b <;> simp

/-- The bits of STATUS that R27 gives a meaning, by their weights. -/
theorem readReg_status (s : State) : readReg .status s =
    BitVec.ofNat 32 ((if s.flags.ill then 1 else 0) + (if s.flags.wovf then 2 else 0) + (if s.flags.runder then 4 else 0)
      + (if s.flags.dend then 8 else 0) + (if s.dec.rem = 0#32 then 2 ^ 8 else 0)) := by
  rw [readReg, statusWord, ← Nat.one_mul s.flags.ill.toNat]
  simp only [mul_toNat_eq_ite, State.done, decide_eq_true_eq, Nat.reducePow]

theorem readReg_config (s : State) : readReg .config s =
    BitVec.ofNat 32 ((if s.params.xlat then 1 else 0) + 2 ^ 8 * s.params.aw + 2 ^ 16 * 16) := by
  rw [readReg, configWord]
  cases s.params.xlat <;> rfl

theorem statusWord_bit_done (f : ErrorFlags) (done : Bool) : (statusWord f done).getLsbD 8 = done := by
  have hall : ∀ ill wovf runder dend done : Bool, (statusWord ⟨ill, wovf, runder, dend⟩ done).getLsbD 8 = done := by decide
  exact hall f.ill f.wovf f.runder f.dend done

/-- STATUS.DONE reads 1 exactly where D_REM is 0 (R27). -/
theorem readReg_status_done (s : State) : (readReg .status s).getLsbD 8 = true ↔ s.dec.rem = 0#32 := by
  rw [readReg, statusWord_bit_done]
  exact decide_eq_true_iff

/-- E_BYTES does not overflow (R38). -/
theorem readReg_eBytes_toNat (s : State) : (readReg .eBytes s).toNat = (s.enc.bits.toNat + 7) / 8 := by
  rw [readReg, State.eBytes, ceil8, BitVec.toNat_ofNat]
  omega

theorem readReg_dOut_toNat (s : State) : (readReg .dOut s).toNat = (translate s.params.xlat s.dec.prev).toNat :=
  BitVec.toNat_setWidth_of_le (by decide)

/-- Settles O7: an aligned offset is a register's, whose word the read returns, or a reserved one, which reads 0. -/
theorem registerReadHasNoSideEffect : Obligations.RegisterReadHasNoSideEffect := by
  intro s off hlt ha
  rw [hostAccess_regRead_word s hlt ha]
  refine congrArg (fun word => Host.Outcome.next (s.logRead word)) ?_
  obtain ⟨r, rfl⟩ | ⟨hres, hnone⟩ := Reg.offset_or_reserved hlt ha
  · rw [readOffset_offset]
    cases r with
    | config => exact readReg_config s
    | status => exact readReg_status s
    | result | wOff | rAcc | rCnt | ePrev | dPrev | dOut => exact (BitVec.ofNat_toNat ..).symm
    | id | cmd | wAddr | wLen | rAddr | rLen | eBits | eBytes | dRem => rfl
  · rw [readOffset_reserved hnone]
    have hne : ∀ k < 0x48, off ≠ k := fun k hk => by omega
    simp [hne]

/-! ## Writes -/

/-- A narrower register keeps the low bits of the word written (R31, R34, R36, R39). -/
theorem setWidth_eq_ofNat_mod (n : Nat) (v : Word) : v.setWidth n = BitVec.ofNat n (v.toNat % 2 ^ n) := by
  apply BitVec.eq_of_toNat_eq
  rw [BitVec.toNat_setWidth, BitVec.toNat_ofNat, Nat.mod_mod]

/-- Settles O8: the write is `writeReg` of the register at the offset, or ignored at a reserved one; the parameters stay, so the derived fields
follow. -/
theorem registerWriteStoresLegalValue : Obligations.RegisterWriteStoresLegalValue := by
  intro s off v hlt ha hcmd
  rw [hostAccess_regWrite_word s v hlt ha]
  obtain ⟨r, rfl⟩ | ⟨hres, hnone⟩ := Reg.offset_or_reserved hlt ha
  · have hr : r ≠ .cmd := fun h => hcmd (congrArg Reg.offset h)
    have hwrite : writeOffset r.offset v s = .next (writeReg r v s) := by
      rw [writeOffset, r.atOffset_offset]
      exact if_neg hr
    refine ⟨writeReg r v s, hwrite, ?_, readReg_status_done _, readReg_eBytes_toNat _, ?_⟩
    · cases r with
      | wOff => exact congrArg (fun o => s.setWriter { s.writer with off := o }) (setWidth_eq_ofNat_mod 3 v)
      | rAcc => exact congrArg (fun a => s.setReader { s.reader with acc := a }) (setWidth_eq_ofNat_mod 16 v)
      | ePrev => exact congrArg (fun b => s.setEnc { s.enc with prev := b }) (setWidth_eq_ofNat_mod 8 v)
      | dPrev => exact congrArg (fun b => s.setDec { s.dec with prev := b }) (setWidth_eq_ofNat_mod 8 v)
      | id | config | cmd | status | result | wAddr | wLen | rAddr | rLen | rCnt | eBits | eBytes | dRem | dOut => rfl
    · rw [readReg_dOut_toNat, writeReg_params]
  · refine ⟨s, writeOffset_reserved hnone v s, ?_, readReg_status_done s, readReg_eBytes_toNat s, readReg_dOut_toNat s⟩
    have hne : ∀ k < 0x48, off ≠ k := fun k hk => by omega
    simp [hne]

end Sys2Proof.Machine
end

section
/-! SUPPORT. The writer's commands: no bits, a field that does not fit, one that fits, and several (41_bitwriter.md R120 to R126). -/

namespace Sys2Proof.Machine

/-! ## A command is one BitWrite (R124 to R126) -/

theorem exec_of_writeForm {i : Instr} {v : BitVec 16} {n : Nat} (hi : writeForm i = some (v, n)) (hwf : i.wellFormed = true) (s : State) :
    n ≤ 16 ∧ exec i s = writeField v n s := by
  cases i with
  | wbit bit =>
    cases hi
    exact ⟨by decide, by cases bit <;> rfl⟩
  | wbyte b =>
    cases hi
    exact ⟨by decide, congrArg (writeField · 8 s) (BitVec.ofNat_toNat 16 b).symm⟩
  | wfield m w =>
    cases hi
    have hm : countOperand m ≤ wfieldMax := of_decide_eq_true hwf
    exact ⟨hm, if_pos hm⟩
  | nop | xlat _ | rent _ | radv _ | encInit | encSym _ | measSym _ | decInit | decNext => cases hi

/-- The commands that write a field are those of `writeForm`, and ENC.SYM (44_codec.md R172). -/
theorem writeForm_or_encSym {i : Instr} {s : State} {v : BitVec 16} {n : Nat} (hi : writtenField i s = some (v, n)) :
    writeForm i = some (v, n) ∨ ∃ c, i = .encSym c ∧ code (symbolDelta c s) = (v, n) := by
  cases i with
  | encSym c => exact .inr ⟨c, rfl, Option.some.inj ((writtenField_encSym c s).symm.trans hi)⟩
  | wbit _ | wbyte _ | wfield _ _ => exact .inl hi
  | nop | xlat _ | rent _ | radv _ | encInit | measSym _ | decInit | decNext => cases hi

theorem writtenField_of_writeForm {i : Instr} {v : BitVec 16} {n : Nat} (hi : writeForm i = some (v, n)) (s : State) :
    writtenField i s = some (v, n) := by
  cases i with
  | wbit _ | wbyte _ | wfield _ _ => exact hi
  | nop | xlat _ | rent _ | radv _ | encInit | encSym _ | measSym _ | decInit | decNext => cases hi

/-! ## No bits -/

@[simp] theorem writeField_zero (v : BitVec 16) (s : State) : writeField v 0 s = .next s := rfl

/-- Settles O18: `BitWrite(v, 0)` answers the state it is given. -/
theorem zeroWidthWriteIsNoOp : Obligations.ZeroWidthWriteIsNoOp := fun v s =>
  (exec_of_writeForm (i := .wfield 0#5 v) rfl rfl s).2.trans (writeField_zero v s)

/-! ## A field that does not fit (R121) -/

theorem bitWrite_of_not_fits (v : BitVec 16) {n : Nat} {s : State} (h0 : n ≠ 0) (hfit : ¬ fieldFits n s) :
    bitWrite v n s = .next (.fail, raise .wovf s) := by
  have hfits : ¬ s.writer.fits n = true := fun h => hfit (of_decide_eq_true h)
  rw [bitWrite, if_neg h0, if_neg hfits]

theorem writeField_of_not_fits (v : BitVec 16) {n : Nat} {s : State} (h0 : n ≠ 0) (hfit : ¬ fieldFits n s) :
    writeField v n s = .next (raise .wovf s) := by
  rw [writeField, bitWrite_of_not_fits v h0 hfit, chain_next]

/-- Settles O17: the BitWrite fails before its first access, and a command that is one BitWrite answers the state it leaves. -/
theorem writeOutsideViewRaisesOnlyWovf : Obligations.WriteOutsideViewRaisesOnlyWovf := by
  refine ⟨fun v n s h0 _ hfit => bitWrite_of_not_fits v h0.ne' hfit, fun i v n s hi hwf h0 hfit => ?_⟩
  rw [(exec_of_writeForm hi hwf s).2]
  exact writeField_of_not_fits v h0.ne' hfit

/-! ## A field that fits (R120) -/

theorem writeField_of_fits {v : BitVec 16} {n : Nat} {s t : State} (h0 : n ≠ 0) (hn : n ≤ 16) (hfit : fieldFits n s)
    (h : writeField v n s = .next t) :
    FieldOred v n s t ∧ CursorMoved n s t ∧ t = { s with writer := t.writer, mem := t.mem, port := t.port } := by
  obtain ⟨e, he⟩ := writeField_eq_next h
  exact (bitWrite_of_fits h0 hn hfit he).2

/-- Settles O16: the view admits the field's accesses, so the BitWrite goes on to the OR of its field. -/
theorem fittingWriteOrsItsField : Obligations.FittingWriteOrsItsField := by
  intro i v n s hi hwf h0 hfit hv
  obtain ⟨t, ht, hport⟩ := exec_next_of_fits (writtenField_of_writeForm hi s) hwf hfit hv
  obtain ⟨hn, hexec⟩ := exec_of_writeForm hi hwf s
  obtain ⟨hmem, hcur, hframe⟩ := writeField_of_fits h0.ne' hn hfit (hexec ▸ ht)
  exact ⟨t, ht, hmem, hcur, hport, hframe⟩

/-- Any command that writes a field which fits, ENC.SYM too, ORs it in and moves the cursor past it. -/
theorem exec_of_fits {i : Instr} {v : BitVec 16} {n : Nat} {s t : State} (hi : writtenField i s = some (v, n))
    (hwf : i.wellFormed = true) (h0 : n ≠ 0) (hfit : fieldFits n s) (h : exec i s = .next t) : FieldOred v n s t ∧ CursorMoved n s t := by
  obtain hform | ⟨c, rfl, hcode⟩ := writeForm_or_encSym hi
  · obtain ⟨hn, hexec⟩ := exec_of_writeForm hform hwf s
    obtain ⟨hmem, hcur, -⟩ := writeField_of_fits h0 hn hfit (hexec ▸ h)
    exact ⟨hmem, hcur⟩
  · obtain ⟨hmem, hcur, -⟩ := execEncSym_of_fits (by rwa [hcode]) h
    rw [hcode] at hmem hcur
    exact ⟨hmem, hcur⟩

/-! ## Several fields (R123) -/

/-- Unless WOVF stands after it, a write that goes on has moved the cursor by its width, be it 0. -/
theorem writeField_cursorMoved {v : BitVec 16} {n : Nat} {s t : State} (haddr : s.writer.addr.toNat < s.params.space) (hn : n ≤ 16)
    (h : writeField v n s = .next t) (hok : t.flags.wovf = false) : CursorMoved n s t := by
  by_cases h0 : n = 0
  · subst h0
    cases h
    exact .zero haddr
  by_cases hfit : fieldFits n s
  · exact (writeField_of_fits h0 hn hfit h).2.1
  · rw [writeField_of_not_fits v h0 hfit] at h
    cases h
    cases hok

theorem runCommands_flags_get {is : List Instr} (hwf : ∀ i ∈ is, i.wellFormed = true) {s t : State} (h : runCommands is s = .next t)
    (e : Err) (he : s.flags.get e = true) : t.flags.get e = true := by
  induction is generalizing s with
  | nil => cases h; exact he
  | cons i rest ih =>
    obtain ⟨u, hu, ht⟩ := chain_eq_next h
    obtain ⟨hsticky, -, -⟩ := errorsAreStickyAndAtMostOne i s u (hwf i List.mem_cons_self) hu
    exact ih (fun j hj => hwf j (List.mem_cons_of_mem i hj)) ht (hsticky e he)

/-- Settles O20: WOVF is sticky, so no write of the list has overflowed, and the moves of the cursor add up. -/
theorem consecutiveWritesLeaveNoGap : Obligations.ConsecutiveWritesLeaveNoGap := by
  intro fs s t hinv hwf _ h hok
  induction fs generalizing s with
  | nil =>
    cases h
    exact .zero hinv.1
  | cons f rest ih =>
    obtain ⟨hn, hrest⟩ := List.forall_mem_cons.mp hwf
    obtain ⟨u, hu, ht⟩ := chain_eq_next h
    have hexec := (exec_of_writeForm (i := .wfield f.1 f.2) rfl (decide_eq_true hn) s).2
    have hrestwf : ∀ i ∈ rest.map (fun f => Instr.wfield f.1 f.2), i.wellFormed = true :=
      List.forall_mem_map.mpr fun g hg => decide_eq_true (hrest g hg)
    have hsticky := runCommands_flags_get hrestwf ht .wovf
    have huok : u.flags.wovf = false := Bool.eq_false_iff.mpr fun hw => Bool.eq_false_iff.mp hok (hsticky hw)
    have hmove : CursorMoved f.1.toNat s u := writeField_cursorMoved hinv.1 hn (hexec ▸ hu) huok
    exact hmove.trans (exec_params hu) (ih u (keptByOperations_inv.exec hinv hu) hrest huok ht)

end Sys2Proof.Machine
end

section
/-! SUPPORT. The source's recursive split of a field write, and that BitWrite is the same operation (41_bitwriter.md R122). -/

namespace Sys2Proof.Machine

/-! ## The bits of a number -/

/-- The low `n` bits of the number `x`, bit 0 first. -/
def lowBits (x n : Nat) : List Bool := (List.range n).map x.testBit

theorem codeBits_eq_lowBits (v : BitVec 16) (n : Nat) : codeBits (v, n) = lowBits v.toNat n := rfl

@[simp] theorem lowBits_length (x n : Nat) : (lowBits x n).length = n := by simp [lowBits]

theorem lowBits_getElem?_eq_true {x n k : Nat} : (lowBits x n)[k]? = some true ↔ k < n ∧ x.testBit k = true := by
  by_cases hk : k < n <;> simp [lowBits, hk]

/-- The low bits, then those of the right-shifted number. -/
theorem lowBits_add (x m n : Nat) : lowBits x (m + n) = lowBits x m ++ lowBits (x / 2 ^ m) n := by
  simp only [lowBits, List.range_add, List.map_append, List.map_map]
  congr 1
  exact List.map_congr_left fun k _ => by rw [Function.comp, Nat.testBit_div_two_pow, Nat.add_comm]

/-! ## One byte -/

/-- The bits of a piece that stays inside one byte are ORed in by one OR of that byte. -/
theorem orInto_bitsOred {space addr off n : Nat} {m : Memory} (hm : m.wf = true) (haddr : addr < space) (hn : off + n ≤ 8) (x : Nat) :
    BitsOred (lowBits x n) (fun k => streamPlace space addr (off + k)) m (orInto m addr (x % 2 ^ n * 2 ^ off)) := by
  intro a j hj
  have hbyte : ∀ k, k < n → streamPlace space addr (off + k) = (addr, off + k) := fun k hk => by
    rw [streamPlace, Nat.div_eq_of_lt (by omega), Nat.add_zero, Nat.mod_eq_of_lt haddr, Nat.mod_eq_of_lt (by omega)]
  have hbits : (∃ k, (lowBits x n)[k]? = some true ∧ streamPlace space addr (off + k) = (a, j)) ↔
      addr = a ∧ (x % 2 ^ n * 2 ^ off).testBit j = true := by
    simp only [lowBits_getElem?_eq_true, Nat.testBit_mul_two_pow, Nat.testBit_mod_two_pow, Bool.and_eq_true, decide_eq_true_eq]
    constructor
    · rintro ⟨k, ⟨hk, hx⟩, hplace⟩
      rw [hbyte k hk] at hplace
      cases hplace
      exact ⟨rfl, Nat.le_add_right _ _, by omega, by rwa [Nat.add_sub_cancel_left]⟩
    · rintro ⟨rfl, hoff, hk, hx⟩
      exact ⟨j - off, ⟨hk, hx⟩, by rw [hbyte _ hk, Nat.add_sub_cancel' hoff]⟩
  rw [hbits, orInto]
  by_cases ha : addr = a
  · subst ha
    rw [Memory.read_write_self hm, BitVec.getLsbD_or, BitVec.getLsbD_ofNat]
    simp [hj]
  · rw [Memory.read_write_of_ne m _ (Ne.symm ha)]
    simp [ha]

/-- The same bits at the same places leave the same bytes. -/
theorem BitsOred.read_eq {bits : List Bool} {place : Nat → Nat × Nat} {m m' m'' : Memory} (h : BitsOred bits place m m')
    (h' : BitsOred bits place m m'') (a : Nat) : m'.read a = m''.read a :=
  BitVec.eq_of_getLsbD_eq fun j hj => Bool.eq_iff_iff.mpr ((h a j hj).trans (h' a j hj).symm)

/-! ## The cursor of the split -/

/-- The cursor `n` bits further on, over the memory `m`. -/
def SplitPoint.moved (space n : Nat) (m : Memory) (c : SplitPoint) : SplitPoint :=
  { mem := m, addr := (c.addr + (c.off + n) / 8) % space, len := c.len - (c.off + n) / 8, off := (c.off + n) % 8 }

/-- Where bit `k` of a field written at the cursor stands. -/
def SplitPoint.place (space : Nat) (c : SplitPoint) (k : Nat) : Nat × Nat := streamPlace space c.addr (c.off + k)

theorem State.splitPoint_place (s : State) : s.splitPoint.place s.params.space = fieldBitAt s := rfl

theorem CursorMoved.splitPoint_eq {n : Nat} {s t : State} (h : CursorMoved n s t) :
    t.splitPoint = s.splitPoint.moved s.params.space n t.mem := by
  obtain ⟨haddr, hlen, hoff⟩ := h
  rw [State.splitPoint, haddr, hlen, hoff]
  rfl

/-- Whole bytes passed in two moves add up, with the carry of the bits between. -/
theorem carry_add (off n n' : Nat) : (off + n) / 8 + ((off + n) % 8 + n') / 8 = (off + (n + n')) / 8 := by omega

theorem SplitPoint.moved_zero {space : Nat} (c : SplitPoint) (hoff : c.off < 8) (haddr : c.addr < space) :
    c.moved space 0 c.mem = c := by
  rw [moved, Nat.add_zero, Nat.div_eq_of_lt hoff, Nat.mod_eq_of_lt hoff, Nat.add_zero, Nat.mod_eq_of_lt haddr, Nat.sub_zero]

theorem SplitPoint.moved_moved (space n n' : Nat) (m m' : Memory) (c : SplitPoint) :
    (c.moved space n m).moved space n' m' = c.moved space (n + n') m' := by
  simp only [moved, Nat.mod_add_mod, Nat.add_assoc, Nat.sub_sub, ← carry_add]

theorem SplitPoint.moved_place (space n : Nat) (m : Memory) (c : SplitPoint) (k : Nat) :
    (c.moved space n m).place space k = c.place space (n + k) := by
  simp only [place, moved, streamPlace, Nat.mod_add_mod, Nat.add_assoc, carry_add]

/-! ## One turn, and all of them -/

section Turn

variable {space fuel v n : Nat} {c : SplitPoint} (hoff : c.off < 8)
include hoff

/-- A field that fits the current byte is written in place. -/
theorem splitWrite_of_fits (haddr : c.addr < space) (h : n ≤ 8 - c.off) :
    splitWrite space (fuel + 1) v n c = c.moved space n (orInto c.mem c.addr (v % 2 ^ n * 2 ^ c.off)) := by
  rw [splitWrite, if_pos h]
  dsimp only
  split
  · rename_i hfull
    rw [SplitPoint.moved, hfull]
    rfl
  · rename_i hpart
    have hlt : c.off + n < 8 := by omega
    rw [SplitPoint.moved, Nat.div_eq_of_lt hlt, Nat.mod_eq_of_lt hlt, Nat.add_zero, Nat.mod_eq_of_lt haddr]
    rfl

/-- Otherwise its low bits fill the current byte, and the rest is written at the next one. -/
theorem splitWrite_of_not_fits (h : ¬ n ≤ 8 - c.off) :
    splitWrite space (fuel + 1) v n c = splitWrite space fuel (v / 2 ^ (8 - c.off)) (n - (8 - c.off))
      (c.moved space (8 - c.off) (orInto c.mem c.addr (v % 2 ^ (8 - c.off) * 2 ^ c.off))) := by
  rw [splitWrite, if_neg h, SplitPoint.moved, Nat.add_sub_cancel' hoff.le]
  rfl

/-- The split ORs the field's bits in at the cursor and moves the cursor past them, if it may take a turn for each byte. -/
theorem splitWrite_eq (hm : c.mem.wf = true) (haddr : c.addr < space) (hfuel : c.off + n ≤ 8 * fuel) :
    ∃ m, splitWrite space fuel v n c = c.moved space n m ∧ BitsOred (lowBits v n) (c.place space) c.mem m := by
  induction fuel generalizing v n c with
  | zero =>
    obtain rfl : n = 0 := by omega
    exact ⟨c.mem, (c.moved_zero hoff haddr).symm, .nil _ _⟩
  | succ fuel ih =>
    by_cases h : n ≤ 8 - c.off
    · exact ⟨_, splitWrite_of_fits hoff haddr h, orInto_bitsOred hm haddr (by omega) v⟩
    · have hfirst : BitsOred (lowBits v (8 - c.off)) (c.place space) c.mem _ := orInto_bitsOred hm haddr (by omega) v
      obtain ⟨m, hrest, hbits⟩ := ih (v := v / 2 ^ (8 - c.off)) (n := n - (8 - c.off))
        (c := c.moved space (8 - c.off) (orInto c.mem c.addr (v % 2 ^ (8 - c.off) * 2 ^ c.off)))
        (Nat.mod_lt _ (by decide)) (Memory.wf_write hm _ _) (Nat.mod_lt _ (by omega)) (by simp only [SplitPoint.moved]; omega)
      have hsum : 8 - c.off + (n - (8 - c.off)) = n := by omega
      refine ⟨m, ?_, ?_⟩
      · rw [splitWrite_of_not_fits hoff h, hrest, SplitPoint.moved_moved, hsum]
      · rw [← hsum, lowBits_add]
        refine hfirst.append ?_
        rw [lowBits_length]
        exact funext (c.moved_place space (8 - c.off) _) ▸ hbits

end Turn

/-- An OR of the field's bits that moves the cursor past them is the split. -/
theorem splitWrite_of_fieldOred {v : BitVec 16} {n : Nat} {s t : State} (hinv : s.Inv) (hn : n ≤ 16) (hmem : FieldOred v n s t)
    (hcur : CursorMoved n s t) :
    (∀ a, t.mem.read a = (splitWrite s.params.space 3 v.toNat n s.splitPoint).mem.read a) ∧
      t.splitPoint = { splitWrite s.params.space 3 v.toNat n s.splitPoint with mem := t.mem } := by
  obtain ⟨haddr, -, -, hwf, -⟩ := hinv
  have hoff : s.splitPoint.off < 8 := s.writer.off.isLt
  obtain ⟨m, hsplit, hbits⟩ := splitWrite_eq (v := v.toNat) (n := n) (fuel := 3) hoff hwf haddr (by omega)
  rw [s.splitPoint_place, ← codeBits_eq_lowBits] at hbits
  rw [hsplit]
  exact ⟨(fieldOred_iff_bitsOred.mp hmem).read_eq hbits, hcur.splitPoint_eq⟩

/-- A command's field is at most 16 bits wide. -/
theorem width_le_of_writtenField {i : Instr} {s : State} {v : BitVec 16} {n : Nat} (hi : writtenField i s = some (v, n))
    (hwf : i.wellFormed = true) : n ≤ 16 := by
  obtain hform | ⟨c, rfl, hcode⟩ := writeForm_or_encSym hi
  · exact (exec_of_writeForm hform hwf s).1
  · have hwidth := code_width (symbolDelta c s)
    rw [hcode] at hwidth
    omega

/-- Settles O19: both OR the same bits in at the same places, and move the cursor past them. -/
theorem writeEqualsRecursiveSplit : Obligations.WriteEqualsRecursiveSplit := by
  refine ⟨fun v n s t hinv h0 hn hfit h => ?_, fun i v n s t hinv hi hwf h0 hfit h => ?_⟩
  · obtain ⟨-, hmem, hcur, -⟩ := bitWrite_of_fits h0.ne' hn hfit h
    exact splitWrite_of_fieldOred hinv hn hmem hcur
  · obtain ⟨hmem, hcur⟩ := exec_of_fits hi hwf h0.ne' hfit h
    exact splitWrite_of_fieldOred hinv (width_le_of_writtenField hi hwf) hmem hcur

end Sys2Proof.Machine
end

section
/-! SUPPORT. The reader's commands: what Rent and Advance leave, in the closed form of the rules (42_bitreader.md R140 to R144). -/

namespace Sys2Proof.Machine

/-- A register that holds the number `k`, written as the rules' closed forms write it. -/
theorem eq_ofNat_of_toNat_eq {w k : Nat} {x : BitVec w} (h : x.toNat = k) : x = BitVec.ofNat w k := by
  rw [← h, BitVec.ofNat_toNat, BitVec.setWidth_eq]

/-! ## RADV (R141, R143) -/

/-- Advance leaves the state that the rule's arithmetic gives (R141). -/
theorem advance_eq_advanced (n : Nat) (s : State) : advance n s = advanced n s := by
  have hflags : (if s.reader.cnt.toNat < n then s.flags.set .runder else s.flags) =
      { s.flags with runder := s.flags.runder || decide (s.reader.cnt.toNat < n) } := by
    by_cases h : s.reader.cnt.toNat < n <;> simp [h, ErrorFlags.set]
  have hacc : s.reader.acc >>> n = BitVec.ofNat 16 (s.reader.acc.toNat / 2 ^ n) :=
    eq_ofNat_of_toNat_eq (by rw [BitVec.toNat_ushiftRight, Nat.shiftRight_eq_div_pow])
  have hcnt := eq_ofNat_of_toNat_eq (advance_cnt n s)
  rw [advance_frame] at hcnt ⊢
  dsimp only at hcnt
  rw [hflags, hacc, hcnt]
  rfl

theorem exec_radv {n : BitVec 5} (hn : n.toNat ≤ radvMax) (s : State) : exec (.radv n) s = .next (advance n.toNat s) := if_pos hn

/-- Settles O23: a legal RADV is one Advance, whose closed form is `advanced`. -/
theorem radvDiscardsOldestBits : Obligations.RadvDiscardsOldestBits := fun n s hn => by
  rw [exec_radv hn, advance_eq_advanced]

/-! ## How many bytes Rent pulls (R140) -/

section Pulls

variable {n : Nat} {s : State}

theorem pullAccesses_length (n : Nat) (s : State) : (pullAccesses n s).length = pullsFor n s.reader := by
  rw [pullAccesses, List.length_map, List.length_range]

theorem pullsFor_eq_zero (h : ¬(s.reader.cnt.toNat < n ∧ s.reader.len ≠ 0#32)) : pullsFor n s.reader = 0 := by
  rw [← pullAccesses_length, pullAccesses_eq_nil h, List.length_nil]

theorem pullsFor_eq_succ (hn : n ≤ rentMax) (hc : s.reader.cnt.toNat < n) (hlen : s.reader.len ≠ 0#32) :
    pullsFor n s.reader = pullsFor n s.afterPull.reader + 1 := by
  rw [← pullAccesses_length, pullAccesses_eq_cons hn hc hlen, List.length_cons, pullAccesses_length]

/-- No pull lifts R_CNT above 16 (R144). -/
theorem cnt_add_pulls_le (hn : n ≤ rentMax) : pullsFor n s.reader = 0 ∨ s.reader.cnt.toNat + 8 * pullsFor n s.reader ≤ 16 := by
  unfold rentMax at hn
  unfold pullsFor
  omega

/-! ## One pull, and all of them -/

theorem ReaderCursor.eq_of_registers {r r' : ReaderCursor} (haddr : r.addr = r'.addr) (hlen : r.len = r'.len) (hacc : r.acc = r'.acc)
    (hcnt : r.cnt = r'.cnt) : r = r' := by
  cases r
  cases r'
  congr

theorem afterPull_params (s : State) : s.afterPull.params = s.params := rfl

theorem viewByte_afterPull (s : State) (i : Nat) : viewByte s.afterPull i = viewByte s (i + 1) := by
  show (s.mem.read ((s.afterPull.reader.addr.toNat + i) % s.params.space)).toNat = _
  rw [afterPull_addr, Nat.mod_add_mod, Nat.add_assoc, Nat.add_comm 1 i]
  rfl

/-- The byte at R_ADDR is ORed in above the valid bits. -/
theorem afterPull_acc (s : State) :
    s.afterPull.reader.acc = s.reader.acc ||| BitVec.ofNat 16 (viewByte s 0 * 2 ^ s.reader.cnt.toNat) := by
  show s.reader.acc ||| _ = _
  congr 1
  refine BitVec.eq_of_toNat_eq ?_
  rw [BitVec.toNat_shiftLeft, BitVec.toNat_setWidth_of_le (by decide), Nat.shiftLeft_eq, BitVec.toNat_ofNat]
  rfl

/-- Where Rent pulls nothing, its closed form is the state itself. -/
theorem rented_of_no_pull (h : ¬(s.reader.cnt.toNat < n ∧ s.reader.len ≠ 0#32)) : rented n s = s := by
  simp [rented, pullsFor_eq_zero h]

/-- The closed form of Rent is that of the state after its first pull. -/
theorem rented_afterPull (hn : n ≤ rentMax) (hc : s.reader.cnt.toNat < n) (hlen : s.reader.len ≠ 0#32) :
    rented n s.afterPull = rented n s := by
  have hpulls := pullsFor_eq_succ hn hc hlen
  have hbound := cnt_add_pulls_le (s := s) hn
  have hcnt8 := afterPull_cnt (Nat.le_of_lt_succ (hc.trans_le hn))
  have haddr : (rented n s.afterPull).reader.addr = (rented n s).reader.addr := by
    show (if _ then _ else _ : Word) = if _ then _ else _
    rw [hpulls, if_neg (Nat.succ_ne_zero _)]
    split
    · rename_i hp
      rw [hp]
      rfl
    · rw [afterPull_addr, afterPull_params, Nat.mod_add_mod, Nat.add_assoc, Nat.add_comm 1]
  have hleft : (rented n s.afterPull).reader.len = (rented n s).reader.len := by
    show BitVec.ofNat 32 _ = BitVec.ofNat 32 _
    rw [afterPull_len hlen, hpulls]
    congr 1
    omega
  have hacc : (rented n s.afterPull).reader.acc = (rented n s).reader.acc := by
    have htwo : ¬ 2 ≤ pullsFor n s.afterPull.reader := by omega
    simp [rented, afterPull_acc, viewByte_afterPull, hcnt8, hpulls, htwo]
  have hcnt : (rented n s.afterPull).reader.cnt = (rented n s).reader.cnt := by
    show BitVec.ofNat 5 _ = BitVec.ofNat 5 _
    rw [hcnt8, hpulls]
    congr 1
    omega
  have hport : s.afterPull.port ++ pullAccesses n s.afterPull = s.port ++ pullAccesses n s := by
    rw [pullAccesses_eq_cons hn hc hlen]
    exact List.append_assoc ..
  calc rented n s.afterPull
      = { s with reader := (rented n s.afterPull).reader, port := s.afterPull.port ++ pullAccesses n s.afterPull } := rfl
    _ = { s with reader := (rented n s).reader, port := s.port ++ pullAccesses n s } := by
      rw [ReaderCursor.eq_of_registers haddr hleft hacc hcnt, hport]

end Pulls

/-- A Rent that goes on answers its closed form: each turn keeps the closed form of the state, and the last leaves nothing to pull. -/
theorem rentLoop_eq_next {n fuel : Nat} {s t : State} (hn : n ≤ rentMax) (hfuel : n ≤ s.reader.cnt.toNat + 8 * fuel)
    (h : rentLoop n fuel s = .next t) : t = rented n s := by
  induction fuel generalizing s with
  | zero =>
    cases h
    exact (rented_of_no_pull (by omega)).symm
  | succ fuel ih =>
    rw [rentLoop_succ] at h
    split at h
    · rename_i hpull
      obtain ⟨hc, hlen⟩ := hpull
      obtain ⟨u, hu, ht⟩ := chain_eq_next h
      cases pullByte_eq_next hu
      have hcnt := afterPull_cnt (Nat.le_of_lt_succ (hc.trans_le hn))
      rw [ih (by omega) ht, rented_afterPull hn hc hlen]
    · rename_i hstop
      cases h
      exact (rented_of_no_pull hstop).symm

/-- `n` turns of 8 bits are enough (R144, log 18). -/
theorem rent_eq_next {n : Nat} {s t : State} (hn : n ≤ rentMax) (h : rent n s = .next t) : t = rented n s :=
  rentLoop_eq_next hn (by omega) h

/-- Rent goes on wherever its view is admitted plain memory, because its reads stay inside it (R70). -/
theorem rent_eq_rented {n : Nat} {s : State} (hn : n ≤ rentMax) (hv : usableView s.params s.readerView) :
    rent n s = .next (rented n s) := by
  obtain ⟨hplain, hadmit⟩ := hv
  have hreads : ∀ b ∈ pullAccesses n s, s.params.memAdmit b.addr = true := fun b hb => by
    have hin := insideItsView_of_mem_pullAccesses hb
    obtain ⟨i, -, rfl⟩ := List.mem_map.mp hb
    exact hadmit _ hin
  have hport : portOf (rent n s) = _ := portOf_rentLoop hn (by omega)
  rw [portOutcome_of_admitted (.inr hplain) hreads] at hport
  obtain ⟨t, ht, -⟩ := portOf_eq_next hport
  rw [ht, rent_eq_next hn ht]

/-! ## RENT (R142, R144) -/

theorem exec_rent {n : BitVec 5} (hn : n.toNat ≤ rentMax) (s : State) :
    exec (.rent n) s = chain (rent n.toNat s) fun t => .next (t.setResult (t.reader.cnt ++ t.reader.acc)) := if_pos hn

/-- RESULT holds the pair (avail, acc) as one number (R142). -/
theorem append_eq_ofNat (avail : BitVec 5) (acc : BitVec 16) : avail ++ acc = BitVec.ofNat 21 (avail.toNat * 65536 + acc.toNat) :=
  eq_ofNat_of_toNat_eq (by rw [BitVec.toNat_append, ← Nat.shiftLeft_add_eq_or_of_lt acc.isLt, Nat.shiftLeft_eq])

/-- Settles O22: the Rent of a usable view answers its closed form. -/
theorem rentPullsOnlyWhatItNeeds : Obligations.RentPullsOnlyWhatItNeeds := fun n s hn hv => by
  rw [exec_rent hn, rent_eq_rented hn hv, chain_next, append_eq_ofNat]
  rfl

/-- The accumulator holds only its valid bits (R43). -/
theorem State.ReaderInv.acc_lt {s : State} (h : s.ReaderInv) : s.reader.acc.toNat < 2 ^ s.reader.cnt.toNat := by
  obtain ⟨-, hz⟩ := h
  refine Nat.lt_pow_two_of_testBit _ fun k hle => ?_
  by_cases hk : k < 16
  · exact hz k hk hle
  · exact BitVec.getLsbD_of_ge _ _ (by omega)

/-- A byte ORed in above `c` valid bits adds to them, and leaves `c + 8`. -/
theorem toNat_or_byte {acc : BitVec 16} {b c : Nat} (hacc : acc.toNat < 2 ^ c) (hb : b < 256) (hc : c ≤ 8) :
    (acc ||| BitVec.ofNat 16 (b * 2 ^ c)).toNat = acc.toNat + b * 2 ^ c ∧ acc.toNat + b * 2 ^ c < 2 ^ (c + 8) := by
  have hpow : 2 ^ (c + 8) = 256 * 2 ^ c := by rw [Nat.pow_add, Nat.mul_comm]
  have hlt : acc.toNat + b * 2 ^ c < 2 ^ (c + 8) :=
    calc acc.toNat + b * 2 ^ c < 2 ^ c + b * 2 ^ c := by omega
      _ = (b + 1) * 2 ^ c := by ring
      _ ≤ 2 ^ (c + 8) := by rw [hpow]; exact Nat.mul_le_mul_right _ (by omega)
  have hbyte : b * 2 ^ c < 2 ^ 16 := by
    have hfits := Nat.pow_le_pow_right (n := 2) (by decide) (show c + 8 ≤ 16 by omega)
    omega
  refine ⟨?_, hlt⟩
  rw [BitVec.toNat_or, BitVec.toNat_ofNat, Nat.mod_eq_of_lt hbyte, Nat.or_comm, Nat.mul_comm,
    ← Nat.two_pow_add_eq_or_of_lt hacc, Nat.add_comm]

/-- Each pulled byte stands whole at its place above the valid bits: one, or a second one above the first. -/
theorem rented_acc_toNat {n : Nat} {s : State} (hn : n ≤ rentMax) (h : s.ReaderInv) :
    (rented n s).reader.acc.toNat = s.reader.acc.toNat +
      ((List.range (pullsFor n s.reader)).map fun i => viewByte s i * 2 ^ (s.reader.cnt.toNat + 8 * i)).sum := by
  have hacc := h.acc_lt
  have hbyte : ∀ i, viewByte s i < 256 := fun i => BitVec.isLt _
  have hbound := cnt_add_pulls_le (s := s) hn
  obtain hp | hp | hp : pullsFor n s.reader = 0 ∨ pullsFor n s.reader = 1 ∨ pullsFor n s.reader = 2 := by omega
  · simp [rented, hp]
  · obtain ⟨hfirst, -⟩ := toNat_or_byte hacc (hbyte 0) (by omega)
    simp [rented, hp, hfirst]
  · obtain ⟨hfirst, hlt⟩ := toNat_or_byte hacc (hbyte 0) (by omega)
    obtain ⟨hsecond, -⟩ := toNat_or_byte (hfirst ▸ hlt) (hbyte 1) (by omega)
    simp [rented, hp, hsecond, hfirst, Nat.add_assoc, List.range_succ]

theorem rented_cnt_toNat {n : Nat} {s : State} (hn : n ≤ rentMax) :
    (rented n s).reader.cnt.toNat = s.reader.cnt.toNat + 8 * pullsFor n s.reader := by
  have hlt := s.reader.cnt.isLt
  have hbound := cnt_add_pulls_le (s := s) hn
  exact Nat.mod_eq_of_lt (by omega)

/-- Settles O24: by the invariant each pulled byte lands above the valid bits, so its OR is a sum. -/
theorem rentNeverOverflowsAccumulator : Obligations.RentNeverOverflowsAccumulator := fun n s t hinv hn h => by
  rw [exec_rent hn] at h
  obtain ⟨u, hu, ht⟩ := chain_eq_next h
  cases rent_eq_next hn hu
  cases ht
  have hcnt := rented_cnt_toNat (s := s) hn
  have hbound := cnt_add_pulls_le (s := s) hn
  have hacc := rented_acc_toNat hn hinv
  obtain ⟨hle, -⟩ := hinv
  refine ⟨hcnt, ?_, hacc⟩
  rw [State.setResult_reader, hcnt]
  unfold regW at hle
  omega

end Sys2Proof.Machine
end

section
/-! SUPPORT. The SymbolTranslator: the swapped pairs, the fixed bytes, and XLAT (43_translator.md R160 to R164). -/

namespace Sys2Proof.Machine

/-! ## The permutation (R160 to R163) -/

/-- Where the unit is absent, every byte stands for itself (R163). -/
@[simp] theorem translate_absent (b : Byte) : translate false b = b := rfl

@[simp] theorem translate_space : translate true 32#8 = 127#8 := rfl
@[simp] theorem translate_del : translate true 127#8 = 32#8 := rfl
@[simp] theorem translate_quote : translate true 34#8 = 126#8 := rfl
@[simp] theorem translate_tilde : translate true 126#8 = 34#8 := rfl

/-- Outside the two swapped pairs every byte is fixed (R162). -/
theorem translate_of_ne {b : Byte} (xlat : Bool) (hspace : b ≠ 32#8) (hdel : b ≠ 127#8) (hquote : b ≠ 34#8) (htilde : b ≠ 126#8) :
    translate xlat b = b := by
  cases xlat with
  | false => exact translate_absent b
  | true => simp only [translate, if_true, if_neg hspace, if_neg hdel, if_neg hquote, if_neg htilde]

/-- Each byte of a swapped pair comes back from the other one, and every other byte is fixed (R161). -/
theorem translate_translate (xlat : Bool) (b : Byte) : translate xlat (translate xlat b) = b := by
  cases xlat with
  | false => simp only [translate_absent]
  | true =>
    by_cases hspace : b = 32#8
    · rw [hspace, translate_space, translate_del]
    by_cases hdel : b = 127#8
    · rw [hdel, translate_del, translate_space]
    by_cases hquote : b = 34#8
    · rw [hquote, translate_quote, translate_tilde]
    by_cases htilde : b = 126#8
    · rw [htilde, translate_tilde, translate_quote]
    have hfixed := translate_of_ne true hspace hdel hquote htilde
    rw [hfixed, hfixed]

/-- Settles O15: the two swapped pairs are disjoint. -/
theorem translateIsSelfInverse : Obligations.TranslateIsSelfInverse := fun xlat b =>
  ⟨translate_translate xlat b, translate_of_ne xlat⟩

/-- R160's table on the bytes' numbers. -/
theorem translate_toNat (xlat : Bool) (b : Byte) : (translate xlat b).toNat =
    if xlat then
      (if b.toNat = 32 then 127 else if b.toNat = 127 then 32 else if b.toNat = 34 then 126
       else if b.toNat = 126 then 34 else b.toNat)
    else b.toNat := by
  simp only [translate, ← BitVec.toNat_inj, apply_ite BitVec.toNat, BitVec.toNat_ofNat, Nat.reducePow, Nat.reduceMod]

/-! ## XLAT (R164) -/

theorem exec_xlat (b : Byte) (s : State) :
    exec (.xlat b) s = .next (s.setResult ((translate s.params.xlat b).setWidth 21)) := rfl

/-- RESULT is wide enough for a byte, so a read returns the byte that was put there (R28). -/
theorem readReg_result_setResult_byte (b : Byte) (s : State) : (readReg .result (s.setResult (b.setWidth 21))).toNat = b.toNat := by
  have hfits := b.isLt
  show ((b.setWidth 21).setWidth 32).toNat = b.toNat
  simp only [BitVec.toNat_setWidth]
  omega

/-- Settles O14: XLAT puts the translated byte in RESULT, and a read of RESULT returns it. -/
theorem xlatWritesTranslatedByte : Obligations.XlatWritesTranslatedByte := fun b s =>
  ⟨_, exec_xlat b s, rfl, (readReg_result_setResult_byte _ s).trans (translate_toNat s.params.xlat b)⟩

end Sys2Proof.Machine
end

section
/-! SUPPORT. The Codec: the code of a delta, ENC.INIT, and what ENC.SYM and MEAS.SYM make of a symbol (44_codec.md R170 to R177). -/

namespace Sys2Proof.Machine

/-! ## The code of a delta (R171, R175) -/

theorem bitwidth_le_iff {v k : Nat} : bitwidth v ≤ k ↔ v < 2 ^ k := by
  unfold bitwidth
  split
  · rename_i hv
    simp [hv]
  · rename_i hv
    rw [Nat.succ_le_iff, Nat.log2_lt hv]

theorem specCode_toNat (d : Byte) : (specCode d).toNat = if d.toNat < 32 then 2 * d.toNat else 2 * d.toNat + 1 := by
  have hd := d.isLt
  rw [specCode, BitVec.toNat_ofNat]
  split <;> omega

/-- Settles O27: a delta of at most 5 bits is one below `2 ^ 5`, and the machine's code is the rules'. -/
theorem codeHasFlagThenDelta : Obligations.CodeHasFlagThenDelta := by
  intro d
  have hwidth : bitwidth d.toNat ≤ 5 ↔ d.toNat < 32 := bitwidth_le_iff
  rw [code_eq]
  exact ⟨if_congr hwidth.symm rfl rfl, specCode_toNat d, hwidth⟩

/-- Settles O28: the four codes, computed. -/
theorem codeBoundaryAtThirtyTwo : Obligations.CodeBoundaryAtThirtyTwo := ⟨rfl, rfl, rfl, rfl⟩

/-! ## ENC.INIT, and the account of a symbol (R170, R173) -/

/-- Settles O29: ENC.INIT is one update of the encoder registers. -/
theorem encInitSeedsTheEncoder : Obligations.EncInitSeedsTheEncoder := fun _ => rfl

theorem accountSymbol_bits_toNat (c : Byte) (n : Nat) (s : State) :
    (accountSymbol c n s).enc.bits.toNat = (s.enc.bits.toNat + n) % 2 ^ 32 := by
  rw [accountSymbol_enc, BitVec.toNat_add, BitVec.toNat_ofNat, Nat.add_mod_mod]

/-- What the account of a symbol leaves in E_PREV and E_BITS depends on these and P_XLAT alone. -/
theorem accountSymbol_enc_congr (c : Byte) {s u : State} (hp : s.params = u.params) (he : s.enc = u.enc) :
    (accountSymbol c (code (symbolDelta c s)).2 s).enc = (accountSymbol c (code (symbolDelta c u)).2 u).enc := by
  rw [accountSymbol_enc, accountSymbol_enc, symbolDelta, symbolDelta, hp, he]

theorem exec_measSym (c : Byte) (s : State) : exec (.measSym c) s = .next (accountSymbol c (code (symbolDelta c s)).2 s) := rfl

/-- Settles O30: E_BITS grows by the width of the code, as a number modulo `2 ^ 32`. -/
theorem measSymAccountsTheCode : Obligations.MeasSymAccountsTheCode := by
  intro c s
  rw [exec_measSym, code_eq, ← eq_ofNat_of_toNat_eq (accountSymbol_bits_toNat c _ s)]
  rfl

/-! ## ENC.SYM (R172) -/

/-- An ENC.SYM whose code does not fit the view only raises WOVF (R121, R172). -/
theorem exec_encSym_of_not_fits {c : Byte} {s : State} (hfit : ¬ fieldFits (code (symbolDelta c s)).2 s) :
    exec (.encSym c) s = .next (raise .wovf s) := by
  have hwidth := code_width (symbolDelta c s)
  rw [exec, execEncSym, bitWrite_of_not_fits _ (by omega) hfit, chain_next]

/-- Settles O31: the writer's rules for the code of the delta as the field, and the account of the symbol. -/
theorem encSymWritesTheCode : Obligations.EncSymWritesTheCode := by
  intro c s
  have hcode : (code (symbolDelta c s)).1 = specCode (translate s.params.xlat c ^^^ s.enc.prev) := congrArg Prod.fst (code_eq _)
  have hwidth : (code (symbolDelta c s)).2 = specWidth (translate s.params.xlat c ^^^ s.enc.prev) := congrArg Prod.snd (code_eq _)
  rw [← hcode, ← hwidth]
  refine ⟨fun hfit hv => ?_, exec_encSym_of_not_fits⟩
  obtain ⟨t, ht, hport⟩ := exec_next_of_fits (writtenField_encSym c s) rfl hfit hv
  obtain ⟨hmem, hcur, hframe⟩ := execEncSym_of_fits hfit ht
  have henc : t.enc = (accountSymbol c (code (symbolDelta c s)).2 s).enc := by rw [hframe]
  refine ⟨t, ht, hmem, hcur, ?_, ?_, hport, hframe.trans ?_⟩
  · rw [henc, accountSymbol_enc]
  · rw [henc, accountSymbol_bits_toNat]
  · rw [henc]
    rfl

/-! ## Measuring and encoding (R174) -/

/-- Unless WOVF stands after it, an ENC.SYM that goes on has accounted the symbol. -/
theorem exec_encSym_enc {c : Byte} {s t : State} (h : exec (.encSym c) s = .next t) (hok : t.flags.wovf = false) :
    t.enc = (accountSymbol c (code (symbolDelta c s)).2 s).enc := by
  by_cases hfit : fieldFits (code (symbolDelta c s)).2 s
  · obtain ⟨-, -, hframe⟩ := execEncSym_of_fits hfit h
    rw [hframe]
  · rw [exec_encSym_of_not_fits hfit] at h
    cases h
    cases hok

/-- WOVF is sticky, so each ENC.SYM of the run has accounted its symbol, as the MEAS.SYM in its place does. -/
theorem runCommands_encSym_enc_eq {x : List Byte} {s s' t u : State} (hp : s.params = s'.params) (he : s.enc = s'.enc)
    (ht : runCommands (x.map .encSym) s = .next t) (hok : t.flags.wovf = false) (hu : runCommands (x.map .measSym) s' = .next u) :
    t.enc = u.enc := by
  induction x generalizing s s' with
  | nil =>
    cases ht
    cases hu
    exact he
  | cons c rest ih =>
    obtain ⟨s₁, hs₁, ht₁⟩ := chain_eq_next ht
    obtain ⟨s₁', hs₁', hu₁⟩ := chain_eq_next hu
    have hsticky := runCommands_flags_get (List.forall_mem_map.mpr fun _ _ => rfl) ht₁ .wovf
    have hok₁ : s₁.flags.wovf = false := Bool.eq_false_iff.mpr fun hw => Bool.eq_false_iff.mp hok (hsticky hw)
    have henc := (exec_encSym_enc hs₁ hok₁).trans (accountSymbol_enc_congr c hp he)
    cases hs₁'
    exact ih (s' := accountSymbol c _ s') ((exec_params hs₁).trans hp) henc ht₁ hu₁

/-- Settles O32: the two runs leave the same encoder registers, from which E_BYTES is computed. -/
theorem measureAgreesWithEncode : Obligations.MeasureAgreesWithEncode := by
  intro x s s' t u hp he _ ht hok hu
  have henc : t.enc = u.enc := runCommands_encSym_enc_eq hp he ht hok hu
  exact ⟨henc, BitVec.eq_of_toNat_eq (by rw [readReg_eBytes_toNat, readReg_eBytes_toNat, henc])⟩

/-! ## What ENC.SYM depends on (R177) -/

/-- Whether accesses are made does not depend on what the port recorded before them. -/
theorem portOutcome_eq_next_congr {p : Params} {v : View} {l port port' : List PortAccess} (h : portOutcome p v l port = .next port')
    (port₂ : List PortAccess) : portOutcome p v l port₂ = .next (port₂ ++ l) := by
  unfold portOutcome at h ⊢
  split at h
  · cases h
  · rename_i hplain
    rw [if_neg hplain]
    split at h
    · cases h
    · rfl

/-- The cursor and the encoder registers after an ENC.SYM that goes on (R120, R172). -/
theorem exec_encSym_registers {c : Byte} {s t : State} (h : exec (.encSym c) s = .next t) :
    t.writer = (if s.writer.fits (code (symbolDelta c s)).2 then s.writer.advance s.params (code (symbolDelta c s)).2 else s.writer) ∧
    t.enc = (if s.writer.fits (code (symbolDelta c s)).2 then (accountSymbol c (code (symbolDelta c s)).2 s).enc else s.enc) := by
  obtain ⟨⟨e, r⟩, hr, ht⟩ := chain_eq_next h
  have hwidth := code_width (symbolDelta c s)
  rcases bitWrite_eq_next hr with ⟨hzero, -, -⟩ | ⟨-, hno, rfl, rfl⟩ | ⟨-, hfits, rfl, u, hu, rfl⟩
  · omega
  · cases ht
    rw [hno]
    exact ⟨rfl, rfl⟩
  · cases ht
    have hframe := orBytes_frame hu
    rw [if_pos hfits, if_pos hfits]
    refine ⟨rfl, ?_⟩
    rw [accountSymbol_enc, accountSymbol_enc, State.setWriter_params, State.setWriter_enc, hframe.params, hframe.enc]

/-- Settles O33: whether the code fits, what it is and which accesses it makes are the same in both states. -/
theorem encoderOutputIsPure : Obligations.EncoderOutputIsPure := by
  intro c s u t hp he hw ht
  have hdelta : symbolDelta c s = symbolDelta c u := by rw [symbolDelta, symbolDelta, hp, he]
  have hview : accessView (.encSym c) u = accessView (.encSym c) s := by simp only [accessView, State.writerView, hw]
  have hplan : plannedAccesses (.encSym c) u = plannedAccesses (.encSym c) s := by
    simp only [plannedAccesses, writtenField, fieldFits, fieldAccesses, hp, he, hw]
  have hs : portOutcome s.params (accessView (.encSym c) s) (plannedAccesses (.encSym c) s) s.port = .next t.port := by
    rw [← portOf_exec s rfl, ht, portOf_next]
  have hu : portOf (exec (.encSym c) u) = .next (u.port ++ plannedAccesses (.encSym c) s) := by
    rw [portOf_exec u rfl, hview, hplan, ← hp]
    exact portOutcome_eq_next_congr hs u.port
  obtain ⟨w, hexec, hport⟩ := portOf_eq_next hu
  obtain ⟨hwriter, henc⟩ := exec_encSym_registers ht
  obtain ⟨hwriter', henc'⟩ := exec_encSym_registers hexec
  refine ⟨w, plannedAccesses (.encSym c) s, hexec, ?_, ?_, portOutcome_eq_next hs, hport⟩
  · rw [hwriter', hwriter, hdelta, hp, hw]
  · rw [henc', henc, accountSymbol_enc_congr c hp he, hdelta, he, hw]

end Sys2Proof.Machine
end

section
/-! SUPPORT. The DecodingSequence's commands, by what they do to D_REM and by the one DecodeStep each of them may make (45_decoder.md R190
to R194), and the sequence's copy by value (R197). -/

namespace Sys2Proof.Machine

/-! ## DecodeStep (R190) -/

/-- The `len` bits of an accumulator above its flag bit, as a byte. -/
theorem setWidth_extractLsb'_eq_ofNat (acc : BitVec 16) (len : Nat) :
    (acc.extractLsb' 1 len).setWidth 8 = BitVec.ofNat 8 (acc.toNat / 2 % 2 ^ len) := by
  refine BitVec.eq_of_toNat_eq ?_
  rw [BitVec.toNat_setWidth, BitVec.extractLsb'_toNat, BitVec.toNat_ofNat, Nat.shiftRight_eq_div_pow, Nat.pow_one]

/-- Steps 2 to 4 of DecodeStep, in the arithmetic of the rule. -/
theorem consumeCode_eq (s : State) : consumeCode s =
    if 9 ≤ s.reader.cnt.toNat ∧ s.reader.acc.toNat % 2 = 1 then xoredPrev (s.reader.acc.toNat / 2 % 256) (advanced 9 s)
    else xoredPrev (s.reader.acc.toNat / 2 % 32) (advanced 6 s) := by
  have hflag : s.reader.acc.getLsbD 0 = true ↔ s.reader.acc.toNat % 2 = 1 := by
    rw [BitVec.getLsbD, Nat.testBit_zero, decide_eq_true_iff]
  have hlong := setWidth_extractLsb'_eq_ofNat s.reader.acc 8
  have hshort := setWidth_extractLsb'_eq_ofNat s.reader.acc 5
  rw [BitVec.setWidth_eq] at hlong
  simp only [consumeCode, hflag, hlong, hshort, advance_eq_advanced]
  rfl

/-- DecodeStep goes on wherever the reader view is admitted plain memory, and answers its closed form. -/
theorem decodeStep_eq_decoded {s : State} (hv : usableView s.params s.readerView) : decodeStep s = .next (decoded s) := by
  rw [decodeStep, rent_eq_rented (n := 9) (le_refl rentMax) hv, chain_next, consumeCode_eq]
  rfl

/-! ## The two commands (R191, R192) -/

/-- What DEC.INIT and DEC.NEXT end with: a DecodeStep, unless the sequence is exhausted. -/
def decodeIfAny (s : State) : Result := if s.dec.rem = 0#32 then .next s else decodeStep s

/-- The state with D_REM one lower. -/
def State.countDown (s : State) : State := s.setDec { s.dec with rem := s.dec.rem - 1#32 }

theorem decodeIfAny_of_zero {s : State} (h : s.dec.rem = 0#32) : decodeIfAny s = .next s := if_pos h

theorem decodeIfAny_of_ne_zero {s : State} (h : s.dec.rem ≠ 0#32) : decodeIfAny s = decodeStep s := if_neg h

theorem exec_decInit (s : State) : exec .decInit s = decodeIfAny (seedDecoder s) := rfl

theorem exec_decNext_of_zero {s : State} (h : s.dec.rem = 0#32) : exec .decNext s = .next (raise .dend s) := if_pos h

theorem exec_decNext_of_ne_zero {s : State} (h : s.dec.rem ≠ 0#32) : exec .decNext s = decodeIfAny s.countDown := if_neg h

theorem countDown_rem_toNat {s : State} (h : s.dec.rem ≠ 0#32) : s.countDown.dec.rem.toNat = s.dec.rem.toNat - 1 := by
  show (s.dec.rem - 1#32).toNat = _
  bv_omega

theorem decodeIfAny_eq {s : State} (hv : usableView s.params s.readerView) :
    decodeIfAny s = .next (if s.dec.rem = 0#32 then s else decoded s) := by
  by_cases h : s.dec.rem = 0#32
  · rw [decodeIfAny_of_zero h, if_pos h]
  · rw [decodeIfAny_of_ne_zero h, if_neg h, decodeStep_eq_decoded hv]

/-- Settles O35: DEC.INIT is the seed, which leaves the view and D_REM alone, and a DecodeStep if there is a symbol. -/
theorem decInitDecodesFirstSymbol : Obligations.DecInitDecodesFirstSymbol := fun s hv => by
  rw [exec_decInit]
  exact decodeIfAny_eq (s := seedDecoder s) hv

/-- Settles O36: DEND at the end of the sequence; before it, D_REM counts down and a DecodeStep follows if a symbol is left. -/
theorem decNextAdvancesTheSequence : Obligations.DecNextAdvancesTheSequence := by
  intro s hv
  by_cases hend : s.dec.rem = 0#32
  · rw [exec_decNext_of_zero hend, if_pos (by rw [hend]; rfl)]
    rfl
  · have hrem := countDown_rem_toNat hend
    have hpos : s.dec.rem.toNat ≠ 0 := by bv_omega
    have hlast : s.countDown.dec.rem = 0#32 ↔ s.dec.rem.toNat = 1 := by bv_omega
    have hdown : s.countDown = { s with dec := { s.dec with rem := BitVec.ofNat 32 (s.dec.rem.toNat - 1) } } := by
      rw [← eq_ofNat_of_toNat_eq hrem]
      rfl
    rw [exec_decNext_of_ne_zero hend, decodeIfAny_eq (s := s.countDown) hv, if_neg hpos]
    by_cases hone : s.dec.rem.toNat = 1
    · rw [if_pos (hlast.mpr hone), if_pos hone, hdown, hone]
    · rw [if_neg (mt hlast.mp hone), if_neg hone, hdown]

/-! ## The count (R194) -/

theorem decodeIfAny_rem {s t : State} (h : decodeIfAny s = .next t) : t.dec.rem = s.dec.rem := by
  by_cases hrem : s.dec.rem = 0#32
  · rw [decodeIfAny_of_zero hrem] at h
    cases h
    rfl
  · rw [decodeIfAny_of_ne_zero hrem] at h
    rw [decodeStep_frame h]

theorem exec_decInit_rem {s t : State} (h : exec .decInit s = .next t) : t.dec.rem = s.dec.rem :=
  decodeIfAny_rem (s := seedDecoder s) h

/-- DEC.NEXT lowers D_REM by one, and leaves it at 0 once it is there. -/
theorem exec_decNext_rem {s t : State} (h : exec .decNext s = .next t) : t.dec.rem.toNat = s.dec.rem.toNat - 1 := by
  by_cases hend : s.dec.rem = 0#32
  · rw [exec_decNext_of_zero hend] at h
    cases h
    rw [raise_dec, hend]
    rfl
  · rw [exec_decNext_of_ne_zero hend] at h
    rw [decodeIfAny_rem h, countDown_rem_toNat hend]

theorem runCommands_decNext_rem {j : Nat} {s t : State} (h : runCommands (List.replicate j .decNext) s = .next t) :
    t.dec.rem.toNat = s.dec.rem.toNat - j := by
  induction j generalizing s with
  | zero =>
    cases h
    rfl
  | succ j ih =>
    obtain ⟨u, hu, ht⟩ := chain_eq_next h
    rw [ih ht, exec_decNext_rem hu]
    omega

/-- Settles O37: DEC.INIT keeps D_REM and each DEC.NEXT lowers it by one. -/
theorem sequenceEndsAfterExactlyItsCount : Obligations.SequenceEndsAfterExactlyItsCount := by
  intro s t j hj h
  obtain ⟨u, hu, ht⟩ := chain_eq_next h
  have hrem : t.dec.rem.toNat = s.dec.rem.toNat - j := by rw [runCommands_decNext_rem ht, exec_decInit_rem hu]
  refine ⟨hrem, ?_⟩
  rw [readReg_status_done]
  bv_omega

/-! ## SAVE.DEC and RESTORE.DEC (R197, R219) -/

/-- A register of at most 32 bits comes back whole from the word a read of it returns. -/
theorem setWidth_setWidth_word {w : Nat} (hw : w ≤ 32) (x : BitVec w) : (x.setWidth 32).setWidth w = x := by
  rw [BitVec.setWidth_setWidth_of_le x hw, BitVec.setWidth_eq]

theorem wrapAddr_toNat_self {p : Params} {a : Word} (h : a.toNat < p.space) : wrapAddr p a.toNat = a :=
  BitVec.eq_of_toNat_eq (by rw [wrapAddr_toNat, Nat.mod_eq_of_lt h])

/-- R_CNT's legal-value rule keeps a count that is legal (R35). -/
theorem legalCount_setWidth {c : BitVec 5} (h : c.toNat ≤ regW) : legalCount (c.setWidth 32) = c := by
  have hlt := c.isLt
  refine BitVec.eq_of_toNat_eq ?_
  rw [legalCount, BitVec.toNat_setWidth_of_le (by decide), Nat.mod_eq_of_lt hlt, min_eq_left h, BitVec.toNat_ofNat, Nat.mod_eq_of_lt hlt]

/-- What SAVE.DEC answers: the words that reads of the six decoder registers return (R219). -/
def State.savedDecoder (s : State) : SavedDecoder :=
  { rAddr := readReg .rAddr s, rLen := readReg .rLen s, rAcc := readReg .rAcc s, rCnt := readReg .rCnt s
    dPrev := readReg .dPrev s, dRem := readReg .dRem s }

theorem saveDecoder_eq (s : State) : ∃ r, saveDecoder s = .next (s.savedDecoder, { s with hostReads := r }) := by
  simp only [saveDecoder, hostRead_eq, chain_next, State.logRead]
  exact ⟨_, rfl⟩

/-- RESTORE.DEC is six register writes, none of which moves the parameters. -/
theorem runAccesses_restoreOps (d : SavedDecoder) (u : State) : runAccesses (restoreOps u.params d) u = .next
    { u with
      reader := { addr := wrapAddr u.params d.rAddr.toNat, len := d.rLen, acc := d.rAcc.setWidth 16, cnt := legalCount d.rCnt }
      dec := { prev := d.dPrev.setWidth 8, rem := d.dRem } } := by
  simp only [restoreOps, runAccesses_wr, writeReg_params, ne_eq, reduceCtorEq, not_false_eq_true]
  rfl

/-- Settles O38: each register's legal-value rule keeps the value that was read from it. -/
theorem restoreBringsBackTheDecoder : Obligations.RestoreBringsBackTheDecoder := by
  rintro s u ⟨-, haddr, hcnt, -, -⟩ hp
  obtain ⟨r, hsave⟩ := saveDecoder_eq s
  refine ⟨s.savedDecoder, r, hsave, ?_⟩
  rw [runAccesses_restoreOps, hp]
  simp only [State.savedDecoder, readReg, wrapAddr_toNat_self haddr, legalCount_setWidth hcnt, setWidth_setWidth_word (by decide : 16 ≤ 32),
    setWidth_setWidth_word (by decide : 8 ≤ 32)]

end Sys2Proof.Machine
end

section
/-! SUPPORT. Correctness of the decoder on a well-formed stream (45_decoder.md R195): the bits that the reader has still to deliver begin with
the codes of the symbols still to be decoded, so each DecodeStep takes exactly one code off them. DECODE (46_host_sequences.md R212). -/

namespace Sys2Proof.Machine

/-! ## Bits below and above a place -/

/-- The bits of a number made of a low part and a high part. -/
theorem lowBits_add_mul {x m : Nat} (hx : x < 2 ^ m) (y n : Nat) : lowBits (x + y * 2 ^ m) (m + n) = lowBits x m ++ lowBits y n := by
  have hlow : lowBits (x + y * 2 ^ m) m = lowBits x m := List.map_congr_left fun k hk => by
    rw [Nat.add_comm, Nat.mul_comm, Nat.testBit_two_pow_mul_add y hx, if_pos (List.mem_range.mp hk)]
  rw [lowBits_add, hlow, Nat.add_mul_div_right x y (Nat.two_pow_pos m), Nat.div_eq_of_lt hx, Nat.zero_add]

theorem mod_eq_of_lowBits_eq {x y n : Nat} (h : lowBits x n = lowBits y n) : x % 2 ^ n = y % 2 ^ n := by
  refine Nat.eq_of_testBit_eq fun k => ?_
  rw [Nat.testBit_mod_two_pow, Nat.testBit_mod_two_pow]
  by_cases hk : k < n
  · rw [List.map_inj_left.mp h k (List.mem_range.mpr hk)]
  · rw [decide_eq_false hk, Bool.false_and, Bool.false_and]

/-! ## The bits still to be delivered -/

/-- The first `n` bits of the buffer at `start`. -/
def bufferBits (m : Memory) (space start n : Nat) : List Bool := (List.range n).map (bufferBit m space start)

theorem bufferBits_length (m : Memory) (space start n : Nat) : (bufferBits m space start n).length = n := by simp [bufferBits]

/-- The buffer's bits are those of its first byte, then those of the buffer one byte further on. -/
theorem bufferBits_add_eight (m : Memory) (space start n : Nat) : bufferBits m space start (8 + n) =
    lowBits (m.read (start % space)).toNat 8 ++ bufferBits m space ((start + 1) % space) n := by
  simp only [bufferBits, lowBits, List.range_add, List.map_append, List.map_map]
  refine congrArg₂ (· ++ ·) (List.map_congr_left fun k hk => ?_) (List.map_congr_left fun k _ => ?_)
  · have hk8 := List.mem_range.mp hk
    rw [bufferBit, Nat.div_eq_of_lt hk8, Nat.mod_eq_of_lt hk8, Nat.add_zero]
    rfl
  · rw [Function.comp, bufferBit, bufferBit, Nat.mod_add_mod, Nat.add_div_left k (by decide), Nat.add_mod_left, Nat.add_assoc,
      Nat.add_comm 1]

/-- The valid bits of R_ACC, followed by the bits of the bytes not yet pulled (R195). -/
def State.pendingBits (s : State) : List Bool :=
  lowBits s.reader.acc.toNat s.reader.cnt.toNat ++ bufferBits s.mem s.params.space s.reader.addr.toNat (8 * s.reader.len.toNat)

theorem pendingBits_length (s : State) : s.pendingBits.length = s.reader.cnt.toNat + 8 * s.reader.len.toNat := by
  rw [State.pendingBits, List.length_append, lowBits_length, bufferBits_length]

/-- A pull moves a byte's bits from the view into R_ACC (42_bitreader.md R140). -/
theorem pendingBits_afterPull {s : State} (h : s.ReaderInv) (hc : s.reader.cnt.toNat ≤ 8) (hlen : s.reader.len ≠ 0#32) :
    s.afterPull.pendingBits = s.pendingBits := by
  obtain ⟨hacc, -⟩ := toNat_or_byte (b := viewByte s 0) h.acc_lt (BitVec.isLt _) hc
  have hbytes : 8 * s.reader.len.toNat = 8 + 8 * s.afterPull.reader.len.toNat := by
    rw [afterPull_len hlen]
    bv_omega
  rw [State.pendingBits, State.pendingBits, afterPull_acc, hacc, afterPull_cnt hc, lowBits_add_mul h.acc_lt, List.append_assoc, hbytes,
    bufferBits_add_eight, afterPull_addr]
  rfl

/-- Advance drops the oldest bits (R141). -/
theorem pendingBits_advance {n : Nat} {s : State} (hn : n ≤ s.reader.cnt.toNat) :
    s.pendingBits = lowBits s.reader.acc.toNat n ++ (advance n s).pendingBits := by
  have hacc : (advance n s).reader.acc.toNat = s.reader.acc.toNat / 2 ^ n := by
    rw [advance_frame, BitVec.toNat_ushiftRight, Nat.shiftRight_eq_div_pow]
  have hsplit := lowBits_add s.reader.acc.toNat n (s.reader.cnt.toNat - n)
  rw [Nat.add_sub_cancel' hn] at hsplit
  rw [State.pendingBits, State.pendingBits, hacc, advance_cnt, hsplit, List.append_assoc, advance_frame]

/-! ## The reader on a stream -/

/-- The reader is in order, its view is admitted plain memory, and the bits it has still to deliver begin with `l`. -/
structure State.ReadsNext (s : State) (l : List Bool) : Prop where
  inv    : s.ReaderInv
  usable : usableView s.params s.readerView
  bits   : l <+: s.pendingBits

/-- What the reader delivers depends on the parameters, the reader registers and memory alone (10_state.md R44). -/
theorem State.ReadsNext.congr {s u : State} {l : List Bool} (h : s.ReadsNext l) (hp : u.params = s.params) (hr : u.reader = s.reader)
    (hm : u.mem = s.mem) : u.ReadsNext l := by
  obtain ⟨hinv, husable, hbits⟩ := h
  refine ⟨by rwa [State.ReaderInv, hr], by rwa [State.readerView, hp, hr], ?_⟩
  rwa [State.pendingBits, hp, hr, hm]

/-- A pull changes nothing of what the reader delivers. -/
theorem State.ReadsNext.afterPull {s : State} {l : List Bool} (h : s.ReadsNext l) (hc : s.reader.cnt.toNat ≤ 8)
    (hlen : s.reader.len ≠ 0#32) : s.afterPull.ReadsNext l where
  inv := h.inv.afterPull hc
  usable := usableView_of_covers h.usable fun _ ha => covers_of_afterPull hlen ha
  bits := by
    rw [pendingBits_afterPull h.inv hc hlen]
    exact h.bits

theorem State.ReadsNext.rent {n : Nat} {s t : State} {l : List Bool} (h : s.ReadsNext l) (hn : n ≤ rentMax)
    (ht : rent n s = .next t) : t.ReadsNext l :=
  rentLoop_induct (P := (·.ReadsNext l)) ht h fun _ hu hc hlen => hu.afterPull (Nat.le_of_lt_succ (hc.trans_le hn)) hlen

/-- Rent makes the bits it is asked for available, as far as the view holds them (R140). -/
theorem le_cnt_of_rent {n k : Nat} {s t : State} (hn : n ≤ rentMax) (ht : rent n s = .next t) (hk : k ≤ n)
    (hbits : k ≤ s.pendingBits.length) : k ≤ t.reader.cnt.toNat := by
  rw [pendingBits_length] at hbits
  rw [rent_eq_next hn ht, rented_cnt_toNat hn, pullsFor]
  omega

/-- The bits that Advance drops are off what the reader delivers. -/
theorem State.ReadsNext.advance {n : Nat} {s : State} {l l' : List Bool} (h : s.ReadsNext (l ++ l')) (hl : l.length = n)
    (hn : n ≤ s.reader.cnt.toNat) : l = lowBits s.reader.acc.toNat n ∧ (advance n s).ReadsNext l' := by
  have hbits := h.bits
  rw [pendingBits_advance hn] at hbits
  obtain ⟨rest, hrest⟩ := hbits
  rw [List.append_assoc] at hrest
  obtain ⟨hfirst, hlater⟩ := List.append_inj hrest (by rw [hl, lowBits_length])
  refine ⟨hfirst, h.inv.advance n, ?_, rest, hlater⟩
  rw [advance_frame]
  exact h.usable

/-! ## One code (R190, R195) -/

theorem advance_flags {n : Nat} {s : State} (hn : n ≤ s.reader.cnt.toNat) : (advance n s).flags = s.flags := by
  rw [advance_frame]
  exact if_neg (Nat.not_lt.mpr hn)

theorem specWidth_le (d : Byte) : specWidth d ≤ 9 := by
  unfold specWidth
  split <;> omega

theorem specCode_lt (d : Byte) : (specCode d).toNat < 2 ^ specWidth d := by
  have hd := d.isLt
  rw [specCode_toNat, specWidth]
  split <;> omega

/-- Where R_ACC's valid bits begin with the code of `d`, the step takes the code's own branch: bit 0 is its flag. -/
theorem consumeCode_of_code {s : State} {d : Byte} (hn : specWidth d ≤ s.reader.cnt.toNat)
    (hcode : s.reader.acc.toNat % 2 ^ specWidth d = (specCode d).toNat) :
    consumeCode s = applyDelta d (advance (specWidth d) s) := by
  have hxor (n : Nat) (hd : n = d.toNat) (u : State) : xoredPrev n u = applyDelta d u := by
    rw [hd, xoredPrev, BitVec.ofNat_toNat, BitVec.setWidth_eq]
    rfl
  rw [specCode_toNat] at hcode
  rw [consumeCode_eq]
  by_cases hshort : d.toNat < 32
  · have hwidth : specWidth d = 6 := if_pos hshort
    rw [hwidth, if_pos hshort] at hcode
    rw [hwidth, if_neg (by omega), ← advance_eq_advanced]
    exact hxor _ (by omega) _
  · have hwidth : specWidth d = 9 := if_neg hshort
    have hlt := d.isLt
    rw [hwidth] at hn
    rw [hwidth, if_neg hshort] at hcode
    rw [hwidth, if_pos ⟨hn, by omega⟩, ← advance_eq_advanced]
    exact hxor _ (by omega) _

/-- A DecodeStep takes one code off what the reader delivers, applies its delta, and records no error. -/
theorem decodeStep_of_code {s : State} {d : Byte} {l : List Bool} (h : s.ReadsNext (codeBits (code d) ++ l)) :
    ∃ t, decodeStep s = .next t ∧ t.ReadsNext l ∧ t.dec.prev = s.dec.prev ^^^ d ∧ t.flags = s.flags := by
  have hrent := rent_eq_rented (n := 9) (le_refl rentMax) h.usable
  generalize rented 9 s = u at hrent
  have hframe := rent_frame hrent
  have hlen : specWidth d ≤ s.pendingBits.length := by
    refine le_trans ?_ h.bits.length_le
    rw [List.length_append, codeBits_length, code_eq]
    exact Nat.le_add_right ..
  have hn : specWidth d ≤ u.reader.cnt.toNat := le_cnt_of_rent (le_refl rentMax) hrent (specWidth_le d) hlen
  obtain ⟨hbits, hnext⟩ := (h.rent (le_refl rentMax) hrent).advance (by rw [codeBits_length, code_eq]) hn
  have hcode : u.reader.acc.toNat % 2 ^ specWidth d = (specCode d).toNat := by
    rw [code_eq, codeBits_eq_lowBits] at hbits
    rw [← mod_eq_of_lowBits_eq hbits, Nat.mod_eq_of_lt (specCode_lt d)]
  refine ⟨applyDelta d (advance (specWidth d) u), ?_, hnext.congr rfl rfl rfl, ?_, ?_⟩
  · rw [decodeStep, hrent, chain_next, consumeCode_of_code hn hcode]
  · rw [applyDelta_dec, advance_frame, hframe]
  · rw [applyDelta_flags, advance_flags hn, hframe]

/-! ## The symbols of a string -/

/-- The symbols of `x` are still to be decoded: D_REM counts them, and the reader delivers their codes, taken from D_PREV on (R195). -/
structure State.Before (s : State) (x : List Byte) : Prop where
  count : s.dec.rem.toNat = x.length
  reads : s.ReadsNext ((codesFrom s.params.xlat s.dec.prev x).flatMap codeBits)

/-- The symbols of `x` are still to be delivered, the first of them shown by D_OUT (R193, R194). -/
def State.Shows (s : State) : List Byte → Prop
  | [] => s.dec.rem = 0#32
  | c :: rest => s.dec.rem ≠ 0#32 ∧ s.dec.prev = translate s.params.xlat c ∧ s.countDown.Before rest

/-- The lookahead decodes the first symbol, if there is one, and records no error. -/
theorem decodeIfAny_of_before {s : State} {x : List Byte} (h : s.Before x) :
    ∃ t, decodeIfAny s = .next t ∧ t.Shows x ∧ t.flags = s.flags ∧ t.mem = s.mem := by
  obtain ⟨hcount, hreads⟩ := h
  cases x with
  | nil =>
    have hrem : s.dec.rem = 0#32 := BitVec.eq_of_toNat_eq hcount
    exact ⟨s, decodeIfAny_of_zero hrem, hrem, rfl, rfl⟩
  | cons c rest =>
    have hrem : s.dec.rem ≠ 0#32 := fun hzero => by
      rw [hzero] at hcount
      cases hcount
    obtain ⟨t, ht, hnext, hprev, hflags⟩ := decodeStep_of_code hreads
    have hframe := decodeStep_frame ht
    have hp : t.params = s.params := by rw [hframe]
    have hrem' : t.dec.rem = s.dec.rem := by rw [hframe]
    rw [BitVec.xor_comm, BitVec.xor_assoc, BitVec.xor_self, BitVec.xor_zero, ← hp] at hprev
    refine ⟨t, by rw [decodeIfAny_of_ne_zero hrem, ht], ⟨hrem'.symm ▸ hrem, hprev, ?_, ?_⟩, hflags, by rw [hframe]⟩
    · rw [countDown_rem_toNat (hrem'.symm ▸ hrem), hrem', hcount]
      rfl
    · refine State.ReadsNext.congr (s := t) ?_ rfl rfl rfl
      show t.ReadsNext ((codesFrom t.params.xlat t.dec.prev rest).flatMap codeBits)
      rw [hprev, hp]
      exact hnext

/-! ## DECODE (R212) -/

theorem decodeLoop_of_done (fuel : Nat) {s : State} (h : s.dec.rem = 0#32) :
    decodeLoop (fuel + 1) s = .next ([], s.logRead (readReg .status s)) := by
  rw [decodeLoop, hostRead_eq, chain_next, if_pos ((readReg_status_done s).mpr h)]

/-- The state after a turn's reads of STATUS and D_OUT. -/
def State.polled (s : State) : State := (s.logRead (readReg .status s)).logRead (readReg .dOut s)

theorem State.Shows.polled {s : State} {x : List Byte} (h : s.Shows x) : s.polled.Shows x := by
  cases x with
  | nil => exact h
  | cons c rest =>
    obtain ⟨hrem, hprev, hcount, hreads⟩ := h
    exact ⟨hrem, hprev, hcount, hreads.congr rfl rfl rfl⟩

theorem decodeLoop_of_not_done (fuel : Nat) {s : State} (h : s.dec.rem ≠ 0#32) :
    decodeLoop (fuel + 1) s = chain (exec .decNext s.polled) fun t => chain (decodeLoop fuel t) fun r => .next (s.dOut :: r.1, r.2) := by
  have hout : readReg .dOut (s.logRead (readReg .status s)) = s.dOut.setWidth 32 := rfl
  rw [decodeLoop, hostRead_eq, chain_next, if_neg (mt (readReg_status_done s).mp h), hostRead_eq, chain_next, hostAccess_cmd _ rfl]
  simp only [hout, setWidth_setWidth_word (by decide : 8 ≤ 32)]
  rfl

/-- The loop of DECODE delivers the symbols that are still to be delivered. -/
theorem decodeLoop_of_shows {x : List Byte} {fuel : Nat} {s : State} (h : s.Shows x) (hfuel : x.length < fuel) :
    ∃ t, decodeLoop fuel s = .next (x, t) ∧ t.flags = s.flags ∧ t.mem = s.mem ∧ t.dec.rem = 0#32 := by
  induction x generalizing fuel s with
  | nil =>
    obtain ⟨fuel, rfl⟩ := Nat.exists_eq_add_one_of_ne_zero (Nat.ne_zero_of_lt hfuel)
    exact ⟨_, decodeLoop_of_done fuel h, rfl, rfl, h⟩
  | cons c rest ih =>
    obtain ⟨fuel, rfl⟩ := Nat.exists_eq_add_one_of_ne_zero (Nat.ne_zero_of_lt hfuel)
    obtain ⟨hrem', -, hbefore⟩ := h.polled
    obtain ⟨hrem, hprev, -⟩ := h
    have hout : s.dOut = c := by rw [State.dOut, hprev, translate_translate]
    obtain ⟨u, hu, hshows, hflags, hmem⟩ := decodeIfAny_of_before hbefore
    obtain ⟨t, ht, hflags', hmem', hend⟩ := ih hshows (Nat.lt_of_succ_lt_succ hfuel)
    refine ⟨t, ?_, hflags'.trans hflags, hmem'.trans hmem, hend⟩
    rw [decodeLoop_of_not_done fuel hrem, exec_decNext_of_ne_zero hrem', hu, chain_next, ht, chain_next, hout]

/-- The state in which DECODE issues DEC.INIT: the reader on the view, and D_REM the count (R212). -/
def State.decodeStart (s : State) (a len k : Word) : State :=
  { s with reader := { s.reader with addr := wrapAddr s.params a.toNat, len := len }, dec := { s.dec with rem := k } }

theorem runAccesses_decodeOps (a len k : Word) (s : State) :
    runAccesses (decodeOps s.params a len k) s = exec .decInit (s.decodeStart a len k) := by
  simp only [decodeOps, runAccesses_wr, writeReg_params, ne_eq, reduceCtorEq, not_false_eq_true]
  rw [runAccesses_cmd (by simp only [writeReg_params]) rfl]
  show chain (exec .decInit (s.decodeStart a len k)) (runAccesses []) = _
  cases exec .decInit (s.decodeStart a len k) <;> rfl

/-- The bits of a buffer that holds a stream begin with it. -/
theorem HoldsStream.isPrefix_bufferBits {xlat : Bool} {x : List Byte} {m : Memory} {space start n : Nat} (h : HoldsStream xlat x m space start)
    (hn : streamBytes xlat x ≤ n) : streamBits xlat x <+: bufferBits m space (start % space) (8 * n) := by
  refine List.prefix_iff_getElem?.mpr fun k hk => ?_
  rw [streamBits_length] at hk
  rw [streamBytes, ceil8] at hn
  rw [← List.getElem?_eq_getElem, h k hk, bufferBits, List.getElem?_map, List.getElem?_range (by omega), Option.map_some, bufferBit,
    Nat.mod_add_mod]
  rfl

/-- Where the view holds the stream of `x`, DEC.INIT's seed leaves the symbols of `x` still to be decoded. -/
theorem seedDecoder_before {x : List Byte} {a len : Word} {s : State} (hx : x.length < 2 ^ 32)
    (hlen : streamBytes s.params.xlat x ≤ len.toNat) (hv : usableView s.params { start := a.toNat, len := len.toNat })
    (h : HoldsStream s.params.xlat x s.mem s.params.space a.toNat) :
    (seedDecoder (s.decodeStart a len (BitVec.ofNat 32 x.length))).Before x where
  count := Nat.mod_eq_of_lt hx
  reads := by
    refine ⟨⟨Nat.zero_le _, fun _ _ _ => BitVec.getLsbD_zero⟩, usableView_drop (k := 0) hv (wrapAddr_toNat _ _) rfl, ?_⟩
    show streamBits s.params.xlat x <+: bufferBits s.mem s.params.space (wrapAddr s.params a.toNat).toNat (8 * len.toNat)
    rw [wrapAddr_toNat]
    exact h.isPrefix_bufferBits hlen

/-- Settles O54: DEC.INIT starts the sequence of the string's symbols, and each turn of the loop delivers one. -/
theorem decodeRecoversTheString : Obligations.DecodeRecoversTheString := by
  intro x a len s hx hlen hv hstream
  obtain ⟨u, hu, hshows, hflags, hmem⟩ := decodeIfAny_of_before (seedDecoder_before hx hlen hv hstream)
  have hfuel : x.length < (BitVec.ofNat 32 x.length).toNat + 1 := by
    rw [BitVec.toNat_ofNat, Nat.mod_eq_of_lt hx]
    exact Nat.lt_succ_self _
  obtain ⟨t, ht, hflags', hmem', hend⟩ := decodeLoop_of_shows hshows hfuel
  refine ⟨t, ?_, hflags'.trans hflags, hmem'.trans hmem, hend⟩
  rw [decodeString, runAccesses_decodeOps, exec_decInit, hu, chain_next, ht]

end Sys2Proof.Machine
end

section
/-! SUPPORT. The host's sequences on whole strings: MEASURE, the round trip of ENCODE and DECODE, and the size-selecting wrapper
(46_host_sequences.md R210 to R220). -/

namespace Sys2Proof.Machine

/-! ## What E_BYTES counts of a string (10_state.md R37, R38) -/

/-- The size that E_BYTES reads after a string's symbols: the bytes of its code bits, which E_BITS counts modulo `2 ^ 32`. -/
def countedBytes (xlat : Bool) (x : List Byte) : Word := BitVec.ofNat 32 (ceil8 (streamWidth xlat x % 2 ^ 32))

theorem countedBytes_of_lt {xlat : Bool} {x : List Byte} (h : streamWidth xlat x < 2 ^ 32) :
    countedBytes xlat x = BitVec.ofNat 32 (streamBytes xlat x) := by
  rw [countedBytes, Nat.mod_eq_of_lt h]
  rfl

theorem countedBytes_toNat {xlat : Bool} {x : List Byte} (h : streamWidth xlat x < 2 ^ 32) :
    (countedBytes xlat x).toNat = streamBytes xlat x := by
  rw [countedBytes_of_lt h, BitVec.toNat_ofNat, streamBytes, ceil8]
  omega

theorem length_le_streamWidth (xlat : Bool) (x : List Byte) : x.length ≤ streamWidth xlat x := by
  rw [streamWidth_eq]
  omega

/-! ## MEASURE (R210) -/

/-- A run of MEAS.SYMs goes on in every state: it counts the codes' widths in E_BITS and leaves the last symbol in E_PREV (R173). -/
theorem runCommands_measSym (x : List Byte) (s : State) : runCommands (x.map .measSym) s = .next (s.setEnc
    { prev := lastTranslated s.params.xlat s.enc.prev x
      bits := s.enc.bits + BitVec.ofNat 32 ((codesFrom s.params.xlat s.enc.prev x).map Prod.snd).sum }) := by
  induction x generalizing s with
  | nil =>
    rw [codesFrom, List.map_nil, List.map_nil, List.sum_nil, BitVec.add_zero]
    rfl
  | cons c rest ih =>
    rw [List.map_cons, runCommands, exec_measSym, chain_next, ih, codesFrom_cons, List.map_cons, List.sum_cons, BitVec.ofNat_add,
      ← BitVec.add_assoc]
    rfl

/-- The state in which MEASURE reads E_BYTES: the encoder registers are as the string's symbols leave them. -/
def State.measured (s : State) (x : List Byte) : State :=
  s.setEnc { prev := lastTranslated s.params.xlat seed x, bits := BitVec.ofNat 32 (streamWidth s.params.xlat x) }

theorem runAccesses_measureOps (x : List Byte) (s : State) : runAccesses (measureOps s.params x) s = .next (s.measured x) := by
  have hsyms : x.map (fun c => cmd s.params (.measSym c)) = (x.map Instr.measSym).map (cmd s.params) := by simp
  have hseed : exec .encInit s = .next (s.setEnc { prev := seed, bits := 0#32 }) := rfl
  rw [measureOps, hsyms, runAccesses_cmd rfl rfl, hseed, chain_next,
    runAccesses_map_cmd (List.forall_mem_map.mpr fun _ _ => rfl) (State.setEnc_params s _), runCommands_measSym, State.setEnc_enc,
    BitVec.zero_add]
  rfl

theorem readReg_eBytes_measured (x : List Byte) (s : State) : readReg .eBytes (s.measured x) = countedBytes s.params.xlat x := by
  rw [readReg, State.eBytes, State.measured, State.setEnc_enc, BitVec.toNat_ofNat]
  rfl

/-- MEASURE goes on in every state. -/
theorem measure_eq (x : List Byte) (s : State) :
    measure x s = .next (countedBytes s.params.xlat x, (s.measured x).logRead (countedBytes s.params.xlat x)) := by
  rw [measure, runAccesses_measureOps, chain_next, hostRead_eq, readReg_eBytes_measured]

/-- Settles O52: the size that MEASURE reads is that of the stream where E_BITS can count its bits. -/
theorem measureReturnsStreamLength : Obligations.MeasureReturnsStreamLength := fun x s hcount =>
  ⟨_, by rw [measure_eq, countedBytes_of_lt hcount], rfl⟩

/-- Settles O56: MEASURE reads the stream's size, and ENCODE writes the stream into the bytes it takes. -/
theorem measureAndEncodeReturnTheSameSize : Obligations.MeasureAndEncodeReturnTheSameSize := by
  intro x a len m s t hcount hm hlen hspace hv hzero
  rw [measure_eq] at hm
  cases hm
  rw [countedBytes_toNat hcount] at hlen hspace hzero ⊢
  obtain ⟨u, hu, -, -, hother, hflags, -⟩ := encodeWritesTheStream x a len s hcount hlen hspace hv hzero
  exact ⟨u, by rw [hu, countedBytes_of_lt hcount], hflags, hother⟩

/-! ## A buffer that holds a stream (R95, R214) -/

/-- Whether a buffer holds a stream depends on the stream's bytes alone. -/
theorem HoldsStream.congr {xlat : Bool} {x : List Byte} {m m' : Memory} {space start : Nat} (h : HoldsStream xlat x m space start)
    (hm : ∀ i, i < streamBytes xlat x → m'.read ((start + i) % space) = m.read ((start + i) % space)) :
    HoldsStream xlat x m' space start := by
  intro k hk
  have hbyte : k / 8 < streamBytes xlat x := by
    rw [streamBytes, ceil8]
    omega
  rw [h k hk, bufferBit, bufferBit, hm (k / 8) hbyte]

/-- A stream that is ORed into a zeroed buffer stands in it. -/
theorem BitsOred.holdsStream {xlat : Bool} {x : List Byte} {m m' : Memory} {space start : Nat}
    (h : BitsOred (streamBits xlat x) (streamPlace space start) m m') (hspace : streamBytes xlat x ≤ space)
    (hzero : ∀ i, i < streamBytes xlat x → m.read ((start + i) % space) = 0#8) : HoldsStream xlat x m' space start := by
  intro k hk
  have hlength := streamBits_length xlat x
  have hbytes : streamWidth xlat x ≤ 8 * streamBytes xlat x := by
    rw [streamBytes, ceil8]
    omega
  have hbit := List.getElem?_eq_getElem (hlength.symm ▸ hk : k < (streamBits xlat x).length)
  have hiff := h.bufferBit_iff (hlength.trans_le hbytes) hspace hzero (hk.trans_le hbytes)
  rw [hbit, Option.some_inj, Bool.coe_iff_coe] at hiff
  rw [hbit, hiff]

/-- Settles O55: ENCODE leaves the stream in the buffer, where DECODE finds it as long as its bytes are unchanged. -/
theorem encodeThenDecodeRoundTrips : Obligations.EncodeThenDecodeRoundTrips := by
  intro x a len s hx hlen hspace hv hzero
  obtain ⟨t, ht, hmem, -, hframe⟩ := encodeString_eq_next hlen hv
  refine ⟨_, t, ht, by rw [hframe], countedBytes_toNat, fun u len' hp hsame hlen' hv' => ?_⟩
  have hstream := (hmem.holdsStream hspace hzero).congr hsame
  rw [← hp] at hlen' hv' hstream
  obtain ⟨w, hw, hflags, -⟩ := decodeRecoversTheString x a len' u hx hlen' hv' hstream
  exact ⟨w, hw, hflags⟩

/-! ## The host's zeroing and loading of a buffer (20_memory.md R72, 70_reset_and_hazards.md R265) -/

/-- Host stores of 0 that go on leave 0 at each address stored to, and at each that held 0; only memory changes. -/
theorem runAccesses_store_zero {l : List Nat} {s t : State} (hwf : s.mem.wf = true)
    (h : runAccesses (l.map fun b => .memStore b 0#8) s = .next t) :
    ∃ m, t = s.setMem m ∧ ∀ b, b ∈ l ∨ s.mem.read b = 0#8 → m.read b = 0#8 := by
  induction l generalizing s with
  | nil =>
    cases h
    exact ⟨t.mem, rfl, fun b hb => hb.resolve_left List.not_mem_nil⟩
  | cons a rest ih =>
    obtain ⟨u, hu, ht⟩ := chain_eq_next h
    obtain ⟨rfl, -⟩ := hostByteAccess_eq_next hu
    obtain ⟨m, rfl, hzero⟩ := ih (Memory.wf_write hwf a 0#8) ht
    refine ⟨m, rfl, fun b hb => hzero b ?_⟩
    by_cases hba : b = a
    · exact .inr (hba ▸ Memory.read_write_self hwf a 0#8)
    · exact hb.imp (List.mem_of_ne_of_mem hba) (Memory.read_write_of_ne s.mem 0#8 hba).trans

/-- A zeroing of a buffer that goes on has zeroed its bytes and changed only memory. -/
theorem runAccesses_zeroBuffer {p : Params} {a n : Nat} {s t : State} (hwf : s.mem.wf = true)
    (h : runAccesses (zeroBuffer p a n) s = .next t) :
    ∃ m, t = s.setMem m ∧ ∀ i, i < n → m.read ((a + i) % p.space) = 0#8 := by
  have hstores : zeroBuffer p a n = ((List.range n).map fun i => (a + i) % p.space).map fun b => .memStore b 0#8 := by
    rw [zeroBuffer, List.map_map]
    rfl
  obtain ⟨m, ht, hzero⟩ := runAccesses_store_zero hwf (hstores ▸ h)
  exact ⟨m, ht, fun i hi => hzero _ (.inl (List.mem_map_of_mem (List.mem_range.mpr hi)))⟩

/-- Host loads of a buffer that go on give as many bytes as asked for, and are recorded; nothing else changes. -/
theorem loadBytes_eq_next {p : Params} {a n : Nat} {s t : State} {bytes : List Byte} (h : loadBytes p a n s = .next (bytes, t)) :
    bytes.length = n ∧ ∃ r, t = { s with hostReads := r } := by
  induction n generalizing a s t bytes with
  | zero =>
    cases h
    exact ⟨rfl, s.hostReads, rfl⟩
  | succ n ih =>
    obtain ⟨u, hu, hrest⟩ := chain_eq_next h
    obtain ⟨⟨rest, t'⟩, ht', hcons⟩ := chain_eq_next hrest
    obtain ⟨rfl, -⟩ := hostByteAccess_eq_next hu
    obtain ⟨hlength, r, rfl⟩ := ih ht'
    cases hcons
    exact ⟨congrArg (· + 1) hlength, r, rfl⟩

/-! ## The size-selecting wrapper (R215, R216, R220) -/

/-- The wrapper's scratch run: zero a buffer of the measured size, encode into it, and load it back. -/
def ScratchRun (x : List Byte) (a : Word) (s : State) (bytes : List Byte) (t : State) : Prop :=
  ∃ z e : State, ∃ n : Word,
    runAccesses (zeroBuffer s.params a.toNat (countedBytes s.params.xlat x).toNat)
      ((s.measured x).logRead (countedBytes s.params.xlat x)) = .next z ∧
    encodeString x a (countedBytes s.params.xlat x) z = .next (n, e) ∧
    loadBytes s.params a.toNat (countedBytes s.params.xlat x).toNat e = .next (bytes, t)

/-- A wrapper that goes on has stored the string itself, where the measured size is not smaller, or else what its scratch run loaded; the
count stands beside both. -/
theorem wrapString_eq_next {x : List Byte} {a : Word} {s t : State} {f : Stored} (h : wrapString x a s = .next (f, t)) :
    (x.length ≤ (countedBytes s.params.xlat x).toNat ∧ f = { artifact := .raw x, count := x.length } ∧ t.flags = s.flags) ∨
    ((countedBytes s.params.xlat x).toNat < x.length ∧
      ∃ bytes, f = { artifact := .compressed bytes, count := x.length } ∧ ScratchRun x a s bytes t) := by
  rw [wrapString, measure_eq, chain_next] at h
  simp only at h
  split at h
  · rename_i hlt
    obtain ⟨z, hz, h⟩ := chain_eq_next h
    obtain ⟨⟨n, e⟩, he, h⟩ := chain_eq_next h
    obtain ⟨⟨bytes, u⟩, hload, h⟩ := chain_eq_next h
    cases h
    exact .inr ⟨hlt, bytes, rfl, z, e, n, hz, he, hload⟩
  · rename_i hge
    cases h
    exact .inl ⟨Nat.not_lt.mp hge, rfl, rfl⟩

theorem ScratchRun.length {x bytes : List Byte} {a : Word} {s t : State} (h : ScratchRun x a s bytes t) :
    bytes.length = (countedBytes s.params.xlat x).toNat := by
  obtain ⟨z, e, n, -, -, hload⟩ := h
  exact (loadBytes_eq_next hload).1

/-- Settles O57: the wrapper compares the measured size, which is the size of the artifact that it loads back, with the string's. -/
theorem wrapperNeverStoresMore : Obligations.WrapperNeverStoresMore := by
  intro x a s t f h
  obtain ⟨hge, rfl, -⟩ | ⟨hlt, bytes, rfl, hrun⟩ := wrapString_eq_next h
  · refine ⟨rfl, le_refl _, nofun, fun y hy => (Artifact.raw.inj hy).symm, fun hcount => ⟨⟨nofun, fun hlt => ?_⟩, nofun⟩⟩
    rw [countedBytes_toNat hcount] at hge
    exact absurd hlt (Nat.not_lt.mpr hge)
  · have hsmall : bytes.length < x.length := hrun.length.trans_lt hlt
    refine ⟨rfl, hsmall.le, fun _ _ => hsmall, nofun, fun hcount => ?_⟩
    have hsize : bytes.length = streamBytes s.params.xlat x := hrun.length.trans (countedBytes_toNat hcount)
    exact ⟨⟨fun _ => hsize ▸ hsmall, fun _ => ⟨bytes, rfl⟩⟩, fun b hb => Artifact.compressed.inj hb ▸ hsize⟩

/-- The scratch run leaves the stream in its buffer and records no error. -/
theorem ScratchRun.holdsStream {x bytes : List Byte} {a : Word} {s t : State} (h : ScratchRun x a s bytes t) (hwf : s.mem.wf = true)
    (hcount : streamWidth s.params.xlat x < 2 ^ 32) (hspace : streamBytes s.params.xlat x ≤ s.params.space)
    (hv : usableView s.params { start := a.toNat, len := streamBytes s.params.xlat x }) :
    HoldsStream s.params.xlat x t.mem s.params.space a.toNat ∧ t.params = s.params ∧ t.flags = s.flags := by
  obtain ⟨z, e, n, hz, he, hload⟩ := h
  have hsize := countedBytes_toNat hcount
  obtain ⟨m, rfl, hzero⟩ := runAccesses_zeroBuffer (s := (s.measured x).logRead _) hwf hz
  obtain ⟨-, r, rfl⟩ := loadBytes_eq_next hload
  rw [hsize] at hzero
  rw [← hsize] at hv
  obtain ⟨e', he', hmem, -, hframe⟩ := encodeString_eq_next (s := ((s.measured x).logRead _).setMem m) hsize.ge hv
  cases he.symm.trans he'
  exact ⟨hmem.holdsStream hspace hzero, by rw [hframe]; rfl, by rw [hframe]; rfl⟩

/-- Settles O58: a raw artifact is the string, and a compressed one is decoded from the buffer in which its stream still stands. -/
theorem storedFormReadsBackTheString : Obligations.StoredFormReadsBackTheString := by
  intro x a s t f hinv hcount hspace hv h
  obtain ⟨-, rfl, hflags⟩ | ⟨-, bytes, rfl, hrun⟩ := wrapString_eq_next h
  · exact ⟨rfl, t, rfl, hflags⟩
  · obtain ⟨-, -, -, hwf, -⟩ := hinv
    obtain ⟨hstream, hp, hflags⟩ := hrun.holdsStream hwf hcount hspace hv
    have hlen : (BitVec.ofNat 32 bytes.length).toNat = streamBytes s.params.xlat x := by
      rw [hrun.length, BitVec.ofNat_toNat, BitVec.setWidth_eq, countedBytes_toNat hcount]
    have hx : x.length < 2 ^ 32 := (length_le_streamWidth s.params.xlat x).trans_lt hcount
    rw [← hlen] at hv
    rw [← hp] at hlen hv hstream
    obtain ⟨u, hu, hflags', -⟩ := decodeRecoversTheString x a (BitVec.ofNat 32 bytes.length) t hx hlen.ge hv hstream
    exact ⟨rfl, u, hu, hflags'.trans hflags⟩

end Sys2Proof.Machine
end

section
/-! SUPPORT. The precision of the errors: a command that raises one other than RUNDER does nothing else (60_exceptions.md R238). -/

namespace Sys2Proof.Machine

/-- A BitWrite and nothing else: either it leaves the error bits alone, or it fails and only raises WOVF (R121). -/
theorem writeField_flags_or_raise {v : BitVec 16} {n : Nat} {s t : State} (h : writeField v n s = .next t) :
    t.flags = s.flags ∨ t = raise .wovf s := by
  obtain ⟨e, he⟩ := writeField_eq_next h
  rcases bitWrite_eq_next he with ⟨-, -, rfl⟩ | ⟨-, -, -, rfl⟩ | ⟨-, -, -, u, hu, rfl⟩
  · exact .inl rfl
  · exact .inr rfl
  · exact .inl (orBytes_frame hu).flags

theorem exec_encSym_flags_or_raise {c : Byte} {s t : State} (h : exec (.encSym c) s = .next t) : t.flags = s.flags ∨ t = raise .wovf s := by
  by_cases hfit : fieldFits (code (symbolDelta c s)).2 s
  · obtain ⟨-, -, hframe⟩ := execEncSym_of_fits hfit h
    exact .inl (by rw [hframe]; rfl)
  · rw [exec_encSym_of_not_fits hfit] at h
    cases h
    exact .inr rfl

theorem decodeIfAny_raises {s t : State} (h : decodeIfAny s = .next t) : RaisesAtMostOneOf [.runder] s t := by
  by_cases hrem : s.dec.rem = 0#32
  · rw [decodeIfAny_of_zero hrem] at h
    cases h
    exact .inl rfl
  · rw [decodeIfAny_of_ne_zero hrem] at h
    exact decodeStep_raises h

/-- From `s` to `t` no error bit but RUNDER has been set, or one error has been raised and nothing else has changed. -/
def RaisesPrecisely (s t : State) : Prop := RaisesAtMostOneOf [.runder] s t ∨ ∃ e, t = raise e s

/-- A legal command raises WOVF or DEND before it changes anything, and then ends. -/
theorem exec_raisesPrecisely {i : Instr} {s t : State} (hwf : i.wellFormed = true) (h : exec i s = .next t) : RaisesPrecisely s t := by
  have hwrite : t.flags = s.flags ∨ t = raise .wovf s → RaisesPrecisely s t := Or.imp .inl fun ht => ⟨.wovf, ht⟩
  cases i with
  | nop | xlat _ | rent _ | encInit | measSym _ => exact .inl ((exec_raises hwf h).mono (List.nil_subset _))
  | radv _ | decInit => exact .inl (exec_raises hwf h)
  | wbit _ | wbyte _ => exact hwrite (writeField_flags_or_raise h)
  | wfield n v =>
    rw [(exec_of_writeForm rfl hwf s).2] at h
    exact hwrite (writeField_flags_or_raise h)
  | encSym c => exact hwrite (exec_encSym_flags_or_raise h)
  | decNext =>
    by_cases hend : s.dec.rem = 0#32
    · rw [exec_decNext_of_zero hend] at h
      cases h
      exact .inr ⟨.dend, rfl⟩
    · rw [exec_decNext_of_ne_zero hend] at h
      exact .inl ((decodeIfAny_raises h).congr (s' := s) rfl rfl)

/-- An illegal word only raises ILL (R85). -/
theorem executeCommand_raisesPrecisely {w : Word} {s t : State} (h : executeCommand w s = .next t) : RaisesPrecisely s t := by
  cases hd : decode w with
  | error _ =>
    rw [executeCommand, hd] at h
    cases h
    exact .inr ⟨.ill, rfl⟩
  | ok i =>
    rw [executeCommand_of_decode hd] at h
    obtain ⟨hwf, -⟩ := decodedWordEncodesToItself w i hd
    exact exec_raisesPrecisely hwf h

/-- Settles O42: the newly set bit is not RUNDER, so the word raised that one error and did nothing else. -/
theorem raisingIllWovfOrDendChangesNothingElse : Obligations.RaisingIllWovfOrDendChangesNothingElse := by
  intro w s t e hne h hclear hset
  obtain (hsame | ⟨e', hmem, hflags⟩) | ⟨e', rfl⟩ := executeCommand_raisesPrecisely h
  · rw [hsame, hclear] at hset
    cases hset
  · rw [hflags] at hset
    exact absurd ((ErrorFlags.eq_of_get_set hset hclear).trans (List.mem_singleton.mp hmem)) hne
  · rw [ErrorFlags.eq_of_get_set hset hclear]
    rfl

end Sys2Proof.Machine
end

section
/-! SUPPORT. Reset (70_reset_and_hazards.md R260, R261), and how many accesses a command makes (R276). -/

namespace Sys2Proof.Machine

/-! ## Reset (R260, R261) -/

/-- Settles O10: both resets, the one between commands and the one during one, are `resetRegisters`. -/
theorem resetSetsEveryRegister : Obligations.ResetSetsEveryRegister := by
  refine ⟨rfl, fun s w op hop => ?_⟩
  have hreset : op = .reset ∨ op = .resetDuring w := by simpa using hop
  obtain rfl | rfl := hreset
  · rfl
  · rfl

/-- The registers that DEC.INIT seeds have the seeds as their reset values. -/
theorem seedDecoder_reset : seedDecoder State.reset = State.reset := rfl

/-- Settles O11: after reset D_REM is 0, so DEC.INIT is the seed alone, and STATUS reads DONE and no error. -/
theorem resetEqualsFreshEncoderAndDecoder : Obligations.ResetEqualsFreshEncoderAndDecoder := by
  refine ⟨encInitSeedsTheEncoder State.reset, ?_, readReg_status State.reset⟩
  rw [exec_decInit, seedDecoder_reset]
  exact decodeIfAny_of_zero rfl

/-! ## The number of accesses (R276) -/

/-- A BitWrite covers the bytes of its bits and of those before them in the first byte, at most 7 (R120). -/
theorem fieldAccesses_length_le (v : BitVec 16) (n : Nat) (s : State) : (fieldAccesses v n s).length ≤ (n + 14) / 8 := by
  have hoff := s.writer.off.isLt
  calc (fieldAccesses v n s).length
    _ ≤ (List.range ((s.writer.off.toNat + n + 7) / 8)).length := List.length_filterMap_le ..
    _ = (s.writer.off.toNat + n + 7) / 8 := List.length_range
    _ ≤ (n + 14) / 8 := by omega

/-- Rent pulls at most two bytes, since it is asked for at most 9 bits (R140, R144). -/
theorem pullAccesses_length_le {n : Nat} (hn : n ≤ rentMax) (s : State) : (pullAccesses n s).length ≤ 2 := by
  rw [pullAccesses_length, pullsFor]
  unfold rentMax at hn
  omega

theorem planned_length_le_of_writtenField {i : Instr} {s : State} {v : BitVec 16} {n : Nat} (hi : writtenField i s = some (v, n)) :
    (plannedAccesses i s).length ≤ (n + 14) / 8 := by
  rw [(planned_of_writtenField hi).1]
  split
  · exact fieldAccesses_length_le v n s
  · exact Nat.zero_le _

/-- A code is at most 9 bits wide, so ENC.SYM makes no more accesses than a Rent does. -/
theorem planned_length_le_two {i : Instr} (s : State) (hwf : i.wellFormed = true) (hform : writeForm i = none) :
    (plannedAccesses i s).length ≤ 2 := by
  cases i with
  | wbit _ | wbyte _ | wfield _ _ => cases hform
  | nop | xlat _ | radv _ | encInit | measSym _ => exact Nat.zero_le 2
  | encSym c =>
    have hlen := planned_length_le_of_writtenField (i := .encSym c) (s := s) rfl
    have hwidth := specWidth_le (translate s.params.xlat c ^^^ s.enc.prev)
    omega
  | rent n => exact pullAccesses_length_le (of_decide_eq_true hwf) s
  | decInit =>
    rw [plannedAccesses_decInit]
    split
    · exact Nat.zero_le 2
    · exact pullAccesses_length_le (le_refl rentMax) (seedDecoder s)
  | decNext =>
    rw [plannedAccesses_decNext]
    split
    · exact Nat.zero_le 2
    · exact pullAccesses_length_le (le_refl rentMax) s

/-- A field is at most 16 bits wide, which with the 7 bits before it are 3 bytes. -/
theorem planned_length_le_three {i : Instr} (s : State) (hwf : i.wellFormed = true) : (plannedAccesses i s).length ≤ 3 := by
  cases hform : writeForm i with
  | none => exact (planned_length_le_two s hwf hform).trans (by decide)
  | some field =>
    obtain ⟨v, n⟩ := field
    have hi := writtenField_of_writeForm hform s
    have hlen := planned_length_le_of_writtenField hi
    have hwidth := width_le_of_writtenField hi hwf
    omega

/-- Settles O45: a command that goes on has made its planned accesses, or none if no word encodes it. -/
theorem accessCountsAreBounded : Obligations.AccessCountsAreBounded := by
  intro i s t ht
  cases hwf : i.wellFormed with
  | false =>
    rw [exec_of_not_wellFormed s hwf] at ht
    cases ht
    exact ⟨Nat.le_add_right _ 3, fun _ => Nat.le_add_right _ 2⟩
  | true =>
    have hport := portOf_exec s hwf
    rw [ht, portOf_next] at hport
    rw [portOutcome_eq_next hport.symm, List.length_append]
    exact ⟨Nat.add_le_add_left (planned_length_le_three s hwf) _,
      fun hform => Nat.add_le_add_left (planned_length_le_two s hwf hform) _⟩

end Sys2Proof.Machine
end
